-- ==== Sys2Proof/Word.lean ====
section
/-! DEFINITION. The widths of the block's data (00_scope.md R5, R6; 41_color_blend.md R75, R76). -/

namespace Sys2Proof

/-- One 32-bit word of the register port, also a command word and a 24.8 coordinate as stored (R5, R6). -/
abbrev Word := BitVec 32

/-- A pixel address, in pixels, 0 to 2^32 - 1 (20_memory.md R40). -/
abbrev PixAddr := BitVec 32

/-- A stored pixel, RGB565 (41_color_blend.md R76). -/
abbrev Pixel := BitVec 16

/-- A source colour, RGB888 as 0x00RRGGBB (41_color_blend.md R75). -/
abbrev Color := BitVec 24

/-- One byte of the memory that pixel memory is laid over (20_memory.md R44). -/
abbrev Byte := BitVec 8

end Sys2Proof
end

