-- ==== Sys2Proof/Config.lean ====
section
/-! DEFINITION. What an implementation fixes, and the free values of the model (00_scope.md R5, R6;
93_implementation_defined.md). -/

namespace Sys2Proof

/-- The two orders in which the bytes of a pixel can lie in a byte memory (20_memory.md R44). -/
inductive ByteOrder where
  /-- pixel `a` has bits 7:0 at byte `2a` and bits 15:8 at byte `2a + 1` -/
  | little
  /-- pixel `a` has bits 15:8 at byte `2a` and bits 7:0 at byte `2a + 1` -/
  | big
deriving DecidableEq, Repr

/-- PIXEL_BYTE_ORDER, the spec's one open parameter, at the spec's default (R44).
DESIGN CHOICE, log 3: unsafe for a claim about single bytes, irrelevant to a claim about pixels. -/
def Config.pixelByteOrder : ByteOrder := .little

/-- What a byte of memory that nothing has written reads as (93_implementation_defined.md U10 leaves it
open). DESIGN CHOICE, log 2: unsafe. -/
def Config.unlistedByte : Byte := 0

/-- ZMAX, the capacity of the trapezoid table (R5). -/
def Config.zMax : Nat := 5

/-- How many visits one x pass of the clipper may make. DEDUCED, log 15: five entries need at most
fifteen visits, so the bound is never reached. -/
def Config.clipVisits : Nat := 32

/-- The free values: the `n`-th value drawn for a register or table field that the spec calls "any value"
(93_implementation_defined.md U3, U6, U7). No body: nothing can be proved of it. -/
opaque Config.freeWord (n : Nat) : Word

/-- The free number of pixel accesses that a command interrupted by `rst` had already performed
(70_reset_and_hazards.md R173, U4). No body: nothing can be proved of it. -/
opaque Config.freeAccessCount (n : Nat) : Nat

end Sys2Proof
end

