-- ==== Sys2Proof/Syntax.lean ====
section
/-! DEFINITION. The 27 commands (30_encoding.md R55), the registers of the port (10_state.md R23), the
causes of a fault (60_exceptions.md R152) and what the outside can do to the block (10_state.md R21). -/

namespace Sys2Proof

/-- The commands, one constructor per row of the opcode table. A command word carries no operand (R53). -/
inductive Instr where
  | cFromint | cToint | cMul | cDiv | cFloor | cFrac | cRfrac | cRound
  | kPack | kUnpack | kBlend
  | pixSet | pixSetu | pixBlend | pixBlendu
  | spanSet | spanSetu | spanBlend | spanBlendu
  | line | lineAa
  | triSetup | zClip | zFill | zFillaa | triFill | triFillaa
deriving DecidableEq, Repr

/-- All commands, in the order of the table of R55. -/
def Instr.all : List Instr :=
  [.cFromint, .cToint, .cMul, .cDiv, .cFloor, .cFrac, .cRfrac, .cRound, .kPack, .kUnpack, .kBlend,
   .pixSet, .pixSetu, .pixBlend, .pixBlendu, .spanSet, .spanSetu, .spanBlend, .spanBlendu,
   .line, .lineAa, .triSetup, .zClip, .zFill, .zFillaa, .triFill, .triFillaa]

/-- The six fields of an entry of the Z table, in the order of their offsets (10_state.md R23). -/
inductive ZField where
  | xl0 | xr0 | y0 | xl1 | xr1 | y1
deriving DecidableEq, Repr

/-- The registers of the port, by the names of the table of 10_state.md R23. -/
inductive Reg where
  | cmd | status | ctrl | fcmd
  | tileBase | tileX | tileY | tileW | tileH | tileStride
  | x0 | y0 | x1 | y1 | x2 | y2
  | color | alpha | dpix | ca | cb | res | zn
  | z (i : Fin 5) (f : ZField)
deriving DecidableEq, Repr

/-- The causes of a fault, in the order of their codes 1 to 9 (60_exceptions.md R152). -/
inductive Cause where
  | illegalCmd | divZero | range | zoidCount | zoidInvalid | zoidSeq | clipMask | degenerateEdge | zoidOverflow
deriving DecidableEq, Repr

/-- The size of an access to the register port; only `word` is defined (10_state.md R34). -/
inductive AccessSize where
  | byte | half | word
deriving DecidableEq, Repr

/-- What the outside does to the block, one event after the other (10_state.md R21, 30_encoding.md R59). -/
inductive HostEvent where
  /-- a write of `data` at byte offset `off` of the register port -/
  | write (size : AccessSize) (off : Nat) (data : Word)
  /-- a read at byte offset `off` of the register port -/
  | read (size : AccessSize) (off : Nat)
  /-- `rst` asserted and released between commands (70_reset_and_hazards.md R171) -/
  | rst
  /-- `rst` asserted while the command that a write of `w` to CMD started is running (R173) -/
  | cmdRst (w : Word)
  /-- another master of the pixel memory writes a pixel between commands (20_memory.md R48) -/
  | pixWrite (a : PixAddr) (p : Pixel)
  /-- another master of the pixel memory reads a pixel between commands (20_memory.md R48) -/
  | pixRead (a : PixAddr)
deriving DecidableEq, Repr

/-- One access of the engine on the pixel port (20_memory.md R41). -/
inductive PixAccess where
  /-- `MemRead(a, 2)` returned `p` -/
  | read (a : PixAddr) (p : Pixel)
  /-- `MemWrite(a, 2, p)` -/
  | write (a : PixAddr) (p : Pixel)
deriving DecidableEq, Repr

end Sys2Proof
end

