-- ==== Sys2Proof/WellFormed.lean ====
section
/-! DEFINITION. Which terms of the syntax stand for something the spec defines. -/

namespace Sys2Proof

/-- Every command is well formed: a command word has no operand field that could be out of range
(30_encoding.md R53). -/
def Instr.wellFormed (i : Instr) : Bool :=
  Instr.all.contains i

/-- The register port takes aligned 32-bit accesses at offsets 0x000 to 0x3FC only (10_state.md R33, R34;
93_implementation_defined.md U8). -/
def portAccessWellFormed (size : AccessSize) (off : Nat) : Bool :=
  size == .word && off % 4 == 0 && decide (off < 0x400)

/-- An event the spec gives a meaning as far as its own form decides it. -/
def HostEvent.wellFormed : HostEvent → Bool
  | .write size off _ => portAccessWellFormed size off
  | .read size off => portAccessWellFormed size off
  | .rst => true
  | .cmdRst _ => true
  | .pixWrite _ _ => true
  | .pixRead _ => true

end Sys2Proof
end

