-- ==== Sys2Proof/Decode.lean ====
section
/-! DEFINITION. Decoding and encoding of command words (30_encoding.md R53 to R57). -/

namespace Sys2Proof

/-- Why a word is no command (R54, R57). -/
inductive IllegalWord where
  /-- one of bits 31:8, the field ZERO, is set -/
  | zeroFieldSet
  /-- bits 31:8 are 0 and FAM, SUB is no row of the table of R55 -/
  | opcodeNotListed
deriving DecidableEq, Repr

/-- The field ZERO, bits 31:8 (R53). -/
def zeroField (w : Word) : BitVec 24 := w.extractLsb' 8 24

/-- The field FAM, bits 7:4 (R53). -/
def famField (w : Word) : Nat := (w.extractLsb' 4 4).toNat

/-- The field SUB, bits 3:0 (R53). -/
def subField (w : Word) : Nat := (w.extractLsb' 0 4).toNat

/-- The row of the table of R55 for a family and a number in it. -/
def commandAt (fam sub : Nat) : Option Instr :=
  match fam, sub with
  | 0x1, 0x0 => some .cFromint
  | 0x1, 0x1 => some .cToint
  | 0x1, 0x2 => some .cMul
  | 0x1, 0x3 => some .cDiv
  | 0x1, 0x4 => some .cFloor
  | 0x1, 0x5 => some .cFrac
  | 0x1, 0x6 => some .cRfrac
  | 0x1, 0x7 => some .cRound
  | 0x2, 0x0 => some .kPack
  | 0x2, 0x1 => some .kUnpack
  | 0x2, 0x2 => some .kBlend
  | 0x3, 0x0 => some .pixSet
  | 0x3, 0x1 => some .pixSetu
  | 0x3, 0x2 => some .pixBlend
  | 0x3, 0x3 => some .pixBlendu
  | 0x3, 0x4 => some .spanSet
  | 0x3, 0x5 => some .spanSetu
  | 0x3, 0x6 => some .spanBlend
  | 0x3, 0x7 => some .spanBlendu
  | 0x4, 0x0 => some .line
  | 0x4, 0x1 => some .lineAa
  | 0x5, 0x0 => some .triSetup
  | 0x5, 0x1 => some .zClip
  | 0x5, 0x2 => some .zFill
  | 0x5, 0x3 => some .zFillaa
  | 0x5, 0x4 => some .triFill
  | 0x5, 0x5 => some .triFillaa
  | _, _ => none

/-- The command a word encodes, or why it encodes none (R54). -/
def decode (w : Word) : Except IllegalWord Instr :=
  if zeroField w = 0 then
    match commandAt (famField w) (subField w) with
    | some i => .ok i
    | none => .error .opcodeNotListed
  else .error .zeroFieldSet

/-- The word of a command: the column Word of the table of R55. -/
def encode : Instr → Word
  | .cFromint => 0x00000010
  | .cToint => 0x00000011
  | .cMul => 0x00000012
  | .cDiv => 0x00000013
  | .cFloor => 0x00000014
  | .cFrac => 0x00000015
  | .cRfrac => 0x00000016
  | .cRound => 0x00000017
  | .kPack => 0x00000020
  | .kUnpack => 0x00000021
  | .kBlend => 0x00000022
  | .pixSet => 0x00000030
  | .pixSetu => 0x00000031
  | .pixBlend => 0x00000032
  | .pixBlendu => 0x00000033
  | .spanSet => 0x00000034
  | .spanSetu => 0x00000035
  | .spanBlend => 0x00000036
  | .spanBlendu => 0x00000037
  | .line => 0x00000040
  | .lineAa => 0x00000041
  | .triSetup => 0x00000050
  | .zClip => 0x00000051
  | .zFill => 0x00000052
  | .zFillaa => 0x00000053
  | .triFill => 0x00000054
  | .triFillaa => 0x00000055

/-- The host's view of the decoder: the command read from an instruction whose low `nbits` bits are `w`. -/
def decodeTableWord (nbits w : Nat) : Option Instr :=
  match decode (BitVec.ofNat 32 (w % 2 ^ nbits)) with
  | .ok i => some i
  | .error _ => none

/-- The byte offset of a field within an entry of the Z table (10_state.md R23). -/
def zFieldOffset : ZField → Nat
  | .xl0 => 0x00
  | .xr0 => 0x04
  | .y0 => 0x08
  | .xl1 => 0x0C
  | .xr1 => 0x10
  | .y1 => 0x14

/-- The byte offset of a register (the table of 10_state.md R23). -/
def regOffset : Reg → Nat
  | .cmd => 0x000
  | .status => 0x004
  | .ctrl => 0x008
  | .fcmd => 0x00C
  | .tileBase => 0x010
  | .tileX => 0x014
  | .tileY => 0x018
  | .tileW => 0x01C
  | .tileH => 0x020
  | .tileStride => 0x024
  | .x0 => 0x030
  | .y0 => 0x034
  | .x1 => 0x038
  | .y1 => 0x03C
  | .x2 => 0x040
  | .y2 => 0x044
  | .color => 0x048
  | .alpha => 0x04C
  | .dpix => 0x050
  | .ca => 0x054
  | .cb => 0x058
  | .res => 0x05C
  | .zn => 0x080
  | .z i f => 0x0A0 + 0x20 * i.val + zFieldOffset f

/-- The field at byte offset `j` of an entry of the Z table; 0x18 and 0x1C are undefined (R23). -/
def zFieldAt (j : Nat) : Option ZField :=
  match j with
  | 0x00 => some .xl0
  | 0x04 => some .xr0
  | 0x08 => some .y0
  | 0x0C => some .xl1
  | 0x10 => some .xr1
  | 0x14 => some .y1
  | _ => none

/-- The register at byte offset `off` of the Z table's part of the map, 0x0A0 to 0x13F (R23). -/
def zRegAt (off : Nat) : Option Reg :=
  if h : 0x0A0 ≤ off ∧ off < 0x140 then
    match zFieldAt ((off - 0x0A0) % 0x20) with
    | some f => some (.z ⟨(off - 0x0A0) / 0x20, by omega⟩ f)
    | none => none
  else none

/-- The register at a byte offset, or none at an undefined offset (the table of R23; R33). -/
def regAt (off : Nat) : Option Reg :=
  match off with
  | 0x000 => some .cmd
  | 0x004 => some .status
  | 0x008 => some .ctrl
  | 0x00C => some .fcmd
  | 0x010 => some .tileBase
  | 0x014 => some .tileX
  | 0x018 => some .tileY
  | 0x01C => some .tileW
  | 0x020 => some .tileH
  | 0x024 => some .tileStride
  | 0x030 => some .x0
  | 0x034 => some .y0
  | 0x038 => some .x1
  | 0x03C => some .y1
  | 0x040 => some .x2
  | 0x044 => some .y2
  | 0x048 => some .color
  | 0x04C => some .alpha
  | 0x050 => some .dpix
  | 0x054 => some .ca
  | 0x058 => some .cb
  | 0x05C => some .res
  | 0x080 => some .zn
  | _ => zRegAt off

end Sys2Proof
end

