-- ==== Sys2Proof/Machine/State.lean ====
section
/-! DEFINITION. The state of the block as plain data, the reasons a step can stop, and the state after
reset (10_state.md; 70_reset_and_hazards.md R171). -/

namespace Sys2Proof.Machine

/-- Stops for an access to something the spec says does not exist. The nine causes of 60_exceptions.md R152
are not here: they are taken by the machine (`raiseFault`), which goes on in its halted state. -/
inductive Fault where
  /-- Raised by a register access at offset 0x400 or above, "outside the block" (10_state.md R33,
  93_implementation_defined.md U8, log 10). Safe: no state is claimed after it. -/
  | outsideBlock
deriving DecidableEq, Repr

/-- Behaviour the spec gives no result; it asks a model to refuse. -/
inductive Refusal where
  /-- A command that has no meaning in the model yet, raised by an arm of `exec`. Safe. -/
  | notModelled (mnemonic : String)
  /-- Raised by PIX.SETU, PIX.BLENDU, SPAN.SETU and SPAN.BLENDU when they name a pixel outside the tile
  (42_pixel_span.md R97, U2, log 9). Safe: nothing is claimed of such a command. -/
  | unclippedOutOfBounds
  /-- Raised by a byte or halfword access to the register port (10_state.md R34, U8, log 10). Safe. -/
  | portAccessSize
  /-- Raised by a misaligned access to the register port (10_state.md R34, U8, log 10). Safe. -/
  | portMisaligned
deriving DecidableEq, Repr

/-- One entry of the Z table as its six registers hold it (10_state.md R23, R31). -/
structure ZEntry where
  xl0 : Word
  xr0 : Word
  y0 : Word
  xl1 : Word
  xr1 : Word
  y1 : Word
deriving DecidableEq, Repr

/-- The five entries of the Z table (10_state.md R31). -/
structure ZTable where
  e0 : ZEntry
  e1 : ZEntry
  e2 : ZEntry
  e3 : ZEntry
  e4 : ZEntry
deriving DecidableEq, Repr

/-- Pixel memory laid over bytes (20_memory.md R44): the listed (byte address, byte) pairs, addresses
rising, no entry equal to what an unlisted address reads as. -/
abbrev Memory := List Host.Cell

/-- The state. The registers are those of 10_state.md R23 with the bits they store; the last four fields are
the model's own (log 5, 6, 8). -/
structure State where
  /-- STATUS[0], FAULT (R25) -/
  fault : Bool
  /-- STATUS[15:8], FCODE (R25) -/
  fcode : BitVec 8
  fcmd : Word
  tileBase : Word
  tileX : BitVec 16
  tileY : BitVec 16
  tileW : BitVec 16
  tileH : BitVec 16
  tileStride : BitVec 16
  x0 : Word
  y0 : Word
  x1 : Word
  y1 : Word
  x2 : Word
  y2 : Word
  color : Color
  alpha : BitVec 8
  dpix : Pixel
  ca : Word
  cb : Word
  res : Word
  zn : BitVec 3
  z : ZTable
  /-- pixel memory (20_memory.md R40) -/
  mem : Memory
  /-- the engine's accesses on the pixel port, NEWEST FIRST (model's own, log 6) -/
  trace : List PixAccess
  /-- the outside's events still to come, next first (model's own, log 5) -/
  port : List HostEvent
  /-- the values that reads returned, NEWEST FIRST (model's own, log 6) -/
  output : List Word
  /-- how many free values have been drawn (model's own, log 8) -/
  freeCount : Nat
deriving DecidableEq, Repr

/-- An entry of six zeros (log 1). -/
def ZEntry.zero : ZEntry := ⟨0, 0, 0, 0, 0, 0⟩

/-- The block right after `rst` (R35, R171): STATUS, FCMD and ZN are 0. Every other register is unspecified
there and is 0 here (DESIGN CHOICE, log 1, unsafe). Memory lists nothing and no host event is pending. -/
def State.reset : State where
  fault := false
  fcode := 0
  fcmd := 0
  tileBase := 0
  tileX := 0
  tileY := 0
  tileW := 0
  tileH := 0
  tileStride := 0
  x0 := 0
  y0 := 0
  x1 := 0
  y1 := 0
  x2 := 0
  y2 := 0
  color := 0
  alpha := 0
  dpix := 0
  ca := 0
  cb := 0
  res := 0
  zn := 0
  z := ⟨.zero, .zero, .zero, .zero, .zero⟩
  mem := []
  trace := []
  port := []
  output := []
  freeCount := 0

end Sys2Proof.Machine
end

