-- ==== Sys2Proof/Machine/Arith.lean ====
section
/-! DEFINITION. The exact integer helpers of 00_scope.md R7, R8. -/

namespace Sys2Proof.Machine

/-- `fdiv(a, b)`: floor of a/b, used for b > 0 only, where Lean's `/` rounds toward minus infinity (R8). -/
def fdiv (a b : Int) : Int := a / b

/-- `tdiv(a, b)`: a/b truncated toward zero, for b ≠ 0 (R8). -/
def tdiv (a b : Int) : Int := Int.tdiv a b

/-- `asr(a, n)`: arithmetic shift right (R8). -/
def asr (a : Int) (n : Nat) : Int := fdiv a (2 ^ n)

/-- `a << n`, exact (R8). -/
def shl (a : Int) (n : Nat) : Int := a * 2 ^ n

/-- `a & 0xFF`: `a mod 256` in 0..255, for a negative `a` too (R8). -/
def low8 (a : Int) : Int := a % 256

/-- `clamp255(v)` (R8). -/
def clamp255 (v : Int) : Int := if v < 0 then 0 else if 255 < v then 255 else v

/-- `ifloor(c)`: the pixel index of the floor of coordinate c (R8). -/
def ifloor (c : Int) : Int := asr c 8

/-- `iround(c)`: the nearest pixel index, ties toward plus infinity (R8). -/
def iround (c : Int) : Int := asr (c + 128) 8

/-- `iceil(c)`: the least pixel index not below c (R8). -/
def iceil (c : Int) : Int := asr (c + 255) 8

/-- A value lies in the 32-bit signed range -2^31 to 2^31 - 1 (40_coord_alu.md R69). -/
def inRange32 (r : Int) : Bool := decide (-2 ^ 31 ≤ r) && decide (r ≤ 2 ^ 31 - 1)

/-- The whole numbers a, a+1, ..., b; none when a > b (the loops of R88, R102, R121). -/
def intRange (a b : Int) : List Int := (List.range (b - a + 1).toNat).map fun (k : Nat) => a + k

end Sys2Proof.Machine
end

