-- ==== Sys2Proof/Machine/Flags.lean ====
section
/-! DEFINITION. The one flag, STATUS.FAULT, with its code, as the port shows them (10_state.md R25, R36;
60_exceptions.md R152, R158). -/

namespace Sys2Proof.Machine

/-- FCODE of a cause (R152). -/
def causeCode : Cause → BitVec 8
  | .illegalCmd => 1
  | .divZero => 2
  | .range => 3
  | .zoidCount => 4
  | .zoidInvalid => 5
  | .zoidSeq => 6
  | .clipMask => 7
  | .degenerateEdge => 8
  | .zoidOverflow => 9

/-- STATUS as read: FCODE in bits 15:8, FAULT in bit 0, every other bit 0 (R25). -/
def statusWord (s : State) : Word :=
  (0 : BitVec 16) ++ s.fcode ++ (0 : BitVec 7) ++ BitVec.ofBool s.fault

/-- The output `fault_o`, equal to STATUS.FAULT at all times (R158). -/
def faultO (s : State) : Bool := s.fault

/-- The halted state (60_exceptions.md R153). -/
def halted (s : State) : Bool := s.fault

end Sys2Proof.Machine
end

