-- ==== Sys2Proof/Machine/Blend.lean ====
section
/-! DEFINITION. The pure colour functions of alpha_blender_16b (41_color_blend.md R75 to R79). -/

namespace Sys2Proof.Machine

/-- Red of an RGB888 colour, c[23:16] (R75). -/
def red8 (c : Color) : BitVec 8 := c.extractLsb' 16 8

/-- Green of an RGB888 colour, c[15:8] (R75). -/
def green8 (c : Color) : BitVec 8 := c.extractLsb' 8 8

/-- Blue of an RGB888 colour, c[7:0] (R75). -/
def blue8 (c : Color) : BitVec 8 := c.extractLsb' 0 8

/-- Red of a stored pixel, p[15:11] (R76). -/
def red5 (p : Pixel) : BitVec 5 := p.extractLsb' 11 5

/-- Green of a stored pixel, p[10:5] (R76). -/
def green6 (p : Pixel) : BitVec 6 := p.extractLsb' 5 6

/-- Blue of a stored pixel, p[4:0] (R76). -/
def blue5 (p : Pixel) : BitVec 5 := p.extractLsb' 0 5

/-- Three 8-bit channels repacked to 5/6/5 by truncation (R77, R79). -/
def packChannels (r g b : BitVec 8) : Pixel :=
  r.extractLsb' 3 5 ++ g.extractLsb' 2 6 ++ b.extractLsb' 3 5

/-- `pack565(c)` (R77). -/
def pack565 (c : Color) : Pixel := packChannels (red8 c) (green8 c) (blue8 c)

/-- `widen5(v) = (v << 3) | (v >> 2)` on 8 bits (R78). -/
def widen5 (v : BitVec 5) : BitVec 8 := (v.setWidth 8 <<< 3) ||| (v.setWidth 8 >>> 2)

/-- `widen6(v) = (v << 2) | (v >> 4)` on 8 bits (R78). -/
def widen6 (v : BitVec 6) : BitVec 8 := (v.setWidth 8 <<< 2) ||| (v.setWidth 8 >>> 4)

/-- `unpack888(p)` (R78). -/
def unpack888 (p : Pixel) : Color := widen5 (red5 p) ++ widen6 (green6 p) ++ widen5 (blue5 p)

/-- The new value of one channel, `dv + tdiv((sv - dv) * a, 255)`, exact (R79). -/
def blendChannel (dv sv a : Int) : Int := dv + tdiv ((sv - dv) * a) 255

/-- One blended channel as the 8 bits that are repacked; the value lies in 0..255 for an alpha in 0..255 (R79). -/
def blendChannel8 (dv sv : BitVec 8) (a : Int) : BitVec 8 :=
  BitVec.ofInt 8 (blendChannel dv.toNat sv.toNat a)

/-- `blend565(d, c, a)`: colour `c` with alpha `a` over the stored pixel `d` (R79). -/
def blend565 (d : Pixel) (c : Color) (a : Int) : Pixel :=
  packChannels
    (blendChannel8 (red8 (unpack888 d)) (red8 c) a)
    (blendChannel8 (green8 (unpack888 d)) (green8 c) a)
    (blendChannel8 (blue8 (unpack888 d)) (blue8 c) a)

end Sys2Proof.Machine
end

