-- ==== Sys2Proof/Machine/Operands.lean ====
section
/-! DEFINITION. How a command reads its operands (00_scope.md R9; 10_state.md R22, R28 to R31, R38), and the
tile's geometry (20_memory.md R42, R43). -/

namespace Sys2Proof.Machine

/-- The tile as a command reads it (R22). -/
structure Tile where
  base : Int
  x : Int
  y : Int
  w : Int
  h : Int
  stride : Int
deriving DecidableEq, Repr

/-- The six TILE registers as a tile: base, w, h, stride unsigned, x, y signed (R22). -/
def tileOf (s : State) : Tile where
  base := s.tileBase.toNat
  x := s.tileX.toInt
  y := s.tileY.toInt
  w := s.tileW.toNat
  h := s.tileH.toNat
  stride := s.tileStride.toNat

/-- The row y is one of the tile's rows (R43). -/
def rowInside (t : Tile) (y : Int) : Bool := decide (t.y ≤ y) && decide (y < t.y + t.h)

/-- `inside(x, y)`: the pixel is inside the tile (R43). -/
def inside (t : Tile) (x y : Int) : Bool :=
  decide (t.x ≤ x) && decide (x < t.x + t.w) && rowInside t y

/-- `addr(x, y) = (base + y * stride + x) mod 2^32` (R42). -/
def pixAddr (t : Tile) (x y : Int) : PixAddr := BitVec.ofInt 32 (t.base + y * t.stride + x)

/-- A point in coordinates or in pixel indices. -/
structure Point where
  x : Int
  y : Int
deriving DecidableEq, Repr

/-- (sx[X0], sx[Y0]) (R28). -/
def point0 (s : State) : Point := ⟨s.x0.toInt, s.y0.toInt⟩

/-- (sx[X1], sx[Y1]) (R28). -/
def point1 (s : State) : Point := ⟨s.x1.toInt, s.y1.toInt⟩

/-- (sx[X2], sx[Y2]) (R28). -/
def point2 (s : State) : Point := ⟨s.x2.toInt, s.y2.toInt⟩

/-- x[ALPHA] (R29). -/
def alphaOf (s : State) : Int := s.alpha.toNat

/-- A trapezoid on exact integers (10_state.md R31). -/
structure Zoid where
  xl0 : Int
  xr0 : Int
  y0 : Int
  xl1 : Int
  xr1 : Int
  y1 : Int
deriving DecidableEq, Repr

/-- An entry's registers as six signed coordinates (R31). -/
def zoidOf (e : ZEntry) : Zoid :=
  ⟨e.xl0.toInt, e.xr0.toInt, e.y0.toInt, e.xl1.toInt, e.xr1.toInt, e.y1.toInt⟩

/-- The registers of an entry that hold a trapezoid: the low 32 bits of each value (R9). -/
def entryOf (z : Zoid) : ZEntry :=
  ⟨.ofInt 32 z.xl0, .ofInt 32 z.xr0, .ofInt 32 z.y0, .ofInt 32 z.xl1, .ofInt 32 z.xr1, .ofInt 32 z.y1⟩

/-- An entry is valid: y0 ≤ y1, xl0 ≤ xr0, xl1 ≤ xr1 (10_state.md R32). -/
def zoidValid (z : Zoid) : Bool :=
  decide (z.y0 ≤ z.y1) && decide (z.xl0 ≤ z.xr0) && decide (z.xl1 ≤ z.xr1)

/-- A sequence is contiguous: each entry's y1 is the next one's y0 (R32). -/
def contiguous : List Zoid → Bool
  | [] => true
  | [_] => true
  | a :: b :: rest => decide (a.y1 = b.y0) && contiguous (b :: rest)

/-- The five entries in order of index. -/
def zEntries (t : ZTable) : List ZEntry := [t.e0, t.e1, t.e2, t.e3, t.e4]

/-- Entry `i` of the table. -/
def zGet (t : ZTable) (i : Fin 5) : ZEntry :=
  match i with
  | 0 => t.e0
  | 1 => t.e1
  | 2 => t.e2
  | 3 => t.e3
  | 4 => t.e4

/-- The table with entry `i` replaced. -/
def zSet (t : ZTable) (i : Fin 5) (e : ZEntry) : ZTable :=
  match i with
  | 0 => { t with e0 := e }
  | 1 => { t with e1 := e }
  | 2 => { t with e2 := e }
  | 3 => { t with e3 := e }
  | 4 => { t with e4 := e }

/-- The valid part of the table, Z[0] to Z[ZN-1], as trapezoids (R31). -/
def zoidsOf (s : State) : List Zoid := ((zEntries s.z).take s.zn.toNat).map zoidOf

end Sys2Proof.Machine
end

