-- ==== Sys2Proof/Machine/Ops.lean ====
section
/-! DEFINITION. The shared operations: memory, pixel primitives, taking a fault and leaving the halted state,
the table's registers, free values. -/

namespace Sys2Proof.Machine

/-! ### Memory (20_memory.md R40, R41, R44) -/

/-- The byte at an address: what is listed for it, else the value of an unlisted byte (log 2). -/
def memRead : Memory → Nat → Byte
  | [], _ => Config.unlistedByte
  | (b, v) :: m, a => if b = a then v else memRead m a

/-- A memory with an entry put in before the first larger address. -/
def memInsert : Memory → Nat → Byte → Memory
  | [], a, v => [(a, v)]
  | (b, w) :: m, a, v => if a < b then (a, v) :: (b, w) :: m else (b, w) :: memInsert m a v

/-- A memory without any entry for an address. -/
def memErase (m : Memory) (a : Nat) : Memory := m.filter fun c => c.1 != a

/-- The memory after a byte is written; writing the value of an unlisted byte only removes the entry. -/
def memWrite (m : Memory) (a : Nat) (v : Byte) : Memory :=
  if v = Config.unlistedByte then memErase m a else memInsert (memErase m a) a v

/-- The addresses of a memory rise strictly. -/
def memRising : Memory → Bool
  | [] => true
  | [_] => true
  | (a, _) :: (b, w) :: m => decide (a < b) && memRising ((b, w) :: m)

/-- The canonical form: addresses strictly rising, below the end of the 2^32 pixels (2^33 bytes), and no entry
equal to what an unlisted address reads as. -/
def Memory.wf (m : Memory) : Bool :=
  memRising m && m.all fun c => decide (c.1 < 2 ^ 33) && c.2 != Config.unlistedByte

/-- The byte address of bits 7:0 of a pixel (R44, log 3). -/
def pixelLowByte (o : ByteOrder) (a : PixAddr) : Nat :=
  match o with
  | .little => 2 * a.toNat
  | .big => 2 * a.toNat + 1

/-- The byte address of bits 15:8 of a pixel (R44, log 3). -/
def pixelHighByte (o : ByteOrder) (a : PixAddr) : Nat :=
  match o with
  | .little => 2 * a.toNat + 1
  | .big => 2 * a.toNat

/-- The value of `MemRead(a, 2)` (R41). -/
def readPixel (m : Memory) (a : PixAddr) : Pixel :=
  memRead m (pixelHighByte Config.pixelByteOrder a) ++ memRead m (pixelLowByte Config.pixelByteOrder a)

/-- The memory after `MemWrite(a, 2, p)` (R41). -/
def writePixel (m : Memory) (a : PixAddr) (p : Pixel) : Memory :=
  memWrite (memWrite m (pixelLowByte Config.pixelByteOrder a) (p.extractLsb' 0 8))
    (pixelHighByte Config.pixelByteOrder a) (p.extractLsb' 8 8)

/-! ### The pixel port of the engine (20_memory.md R41, R46) -/

/-- The engine writes a pixel: one access on the pixel port. -/
def portWrite (a : PixAddr) (p : Pixel) (s : State) : State :=
  { s with mem := writePixel s.mem a p, trace := .write a p :: s.trace }

/-- The state after the engine has read a pixel: one access on the pixel port, no other effect (R46). -/
def portRead (a : PixAddr) (s : State) : State :=
  { s with trace := .read a (readPixel s.mem a) :: s.trace }

/-- `pix_set(x, y, p, clipped = true)` (42_pixel_span.md R86). -/
def pixSet (x y : Int) (p : Pixel) (s : State) : State :=
  if inside (tileOf s) x y then portWrite (pixAddr (tileOf s) x y) p s else s

/-- A blended pixel at an address: one read, then one write of the same pixel (R87). -/
def blendAt (a : PixAddr) (c : Color) (alpha : Int) (s : State) : State :=
  portWrite a (blend565 (readPixel s.mem a) c alpha) (portRead a s)

/-- `pix_blend(x, y, c, a, clipped = true)`: alpha 0 makes no access, alpha 255 one write and no read (R87). -/
def pixBlend (x y : Int) (c : Color) (a : Int) (s : State) : State :=
  if inside (tileOf s) x y then
    if a = 0 then s
    else if a = 255 then portWrite (pixAddr (tileOf s) x y) (pack565 c) s
    else blendAt (pixAddr (tileOf s) x y) c a s
  else s

/-- One call of a clipped pixel primitive. A drawing command is a list of them, performed in order. -/
inductive PixOp where
  | set (x y : Int) (p : Pixel)
  | blend (x y : Int) (c : Color) (a : Int)
deriving DecidableEq, Repr

/-- Performs one primitive call. -/
def runOp (o : PixOp) (s : State) : State :=
  match o with
  | .set x y p => pixSet x y p s
  | .blend x y c a => pixBlend x y c a s

/-- Performs primitive calls one after the other, each complete before the next (20_memory.md R48 (a)). -/
def runOps (ops : List PixOp) (s : State) : State := ops.foldl (fun t o => runOp o t) s

/-- The columns of a clipped span on row y: those of [x0, x1] in the tile, in increasing x; none on a row
outside the tile or when x0 > x1 (42_pixel_span.md R88). -/
def spanColumns (t : Tile) (x0 x1 y : Int) : List Int :=
  if rowInside t y then intRange (max x0 t.x) (min x1 (t.x + t.w - 1)) else []

/-- `span_set(x0, x1, y, p, clipped = true)` as its pixel calls (R88). -/
def spanSetOps (t : Tile) (x0 x1 y : Int) (p : Pixel) : List PixOp :=
  (spanColumns t x0 x1 y).map fun x => .set x y p

/-- `span_blend(x0, x1, y, c, a, clipped = true)` as its pixel calls (R88). -/
def spanBlendOps (t : Tile) (x0 x1 y : Int) (c : Color) (a : Int) : List PixOp :=
  (spanColumns t x0 x1 y).map fun x => .blend x y c a

/-- The precondition of an unclipped span: every pixel of the run [x0, x1] is inside the tile; an empty run
meets it (R97). -/
def runInside (t : Tile) (x0 x1 y : Int) : Bool :=
  decide (x1 < x0) || (inside t x0 y && inside t x1 y)

/-! ### Faults and reset (60_exceptions.md R151, R159; 70_reset_and_hazards.md R172) -/

/-- Fault entry, `raise <Fault>(cmd)`: FAULT, FCODE and FCMD are written and nothing else (R151). -/
def raiseFault (c : Cause) (cmd : Word) (s : State) : State :=
  { s with fault := true, fcode := causeCode c, fcmd := cmd }

/-- The way back from a fault: the soft reset clears STATUS, FCMD and ZN and keeps everything else (R172). -/
def softReset (s : State) : State :=
  { s with fault := false, fcode := 0, fcmd := 0, zn := 0 }

/-! ### Registers a command writes (10_state.md R30, R31, R38) -/

/-- RES receives 32 bits (R30). -/
def setRes (r : Word) (s : State) : State := { s with res := r }

/-- Six free values as an entry of the Z table, from draw `n` on (log 7). -/
def freeEntry (n : Nat) : ZEntry :=
  ⟨Config.freeWord n, Config.freeWord (n + 1), Config.freeWord (n + 2), Config.freeWord (n + 3),
   Config.freeWord (n + 4), Config.freeWord (n + 5)⟩

/-- Five entries of free values, from draw `n` on. -/
def freeTable (n : Nat) : ZTable :=
  ⟨freeEntry n, freeEntry (n + 6), freeEntry (n + 12), freeEntry (n + 18), freeEntry (n + 24)⟩

/-- Entry `i` of a table after trapezoids `zs` have been stored: the i-th of them, else what `rest` holds. -/
def storedEntry (zs : List Zoid) (i : Nat) (rest : ZEntry) : ZEntry :=
  match zs[i]? with
  | some z => entryOf z
  | none => rest

/-- The table after trapezoids `zs` have been stored from entry 0 on; the entries above keep what `rest` holds. -/
def storedTable (zs : List Zoid) (rest : ZTable) : ZTable :=
  ⟨storedEntry zs 0 rest.e0, storedEntry zs 1 rest.e1, storedEntry zs 2 rest.e2, storedEntry zs 3 rest.e3,
   storedEntry zs 4 rest.e4⟩

/-- ZN and the entries below it are written; the entries at and above ZN keep their values (R38). -/
def setTable (zs : List Zoid) (s : State) : State :=
  { s with zn := BitVec.ofNat 3 zs.length, z := storedTable zs s.z }

/-- ZN and the entries below it are written; the entries at and above ZN become unspecified, that is free
values (10_state.md R31, 44_triangle_zoid_fill.md R119, U6, log 7). -/
def setTableShrunk (zs : List Zoid) (s : State) : State :=
  { s with zn := BitVec.ofNat 3 zs.length, z := storedTable zs (freeTable s.freeCount),
           freeCount := s.freeCount + 30 }

/-- ZN and every entry become unspecified, that is free values: the table after a fault inside the clip
passes (60_exceptions.md R156, U3, log 8). -/
def loseTable (s : State) : State :=
  { s with zn := (Config.freeWord (s.freeCount + 30)).setWidth 3, z := freeTable s.freeCount,
           freeCount := s.freeCount + 31 }

end Sys2Proof.Machine
end

