-- ==== Sys2Proof/Machine/Colour.lean ====
section
/-! DEFINITION. The colour commands, family K (41_color_blend.md R80 to R82). -/

namespace Sys2Proof.Machine

/-- K.PACK (R80). -/
def execKPack (s : State) : Host.Outcome State Fault Refusal :=
  .next (setRes ((pack565 s.color).setWidth 32) s)

/-- K.UNPACK (R81). -/
def execKUnpack (s : State) : Host.Outcome State Fault Refusal :=
  .next (setRes ((unpack888 s.dpix).setWidth 32) s)

/-- K.BLEND (R82). -/
def execKBlend (s : State) : Host.Outcome State Fault Refusal :=
  .next (setRes ((blend565 s.dpix s.color (alphaOf s)).setWidth 32) s)

end Sys2Proof.Machine
end

