-- ==== Sys2Proof/Machine/Coord.lean ====
section
/-! DEFINITION. The coordinate ALU, family C (40_coord_alu.md R61 to R70). -/

namespace Sys2Proof.Machine

/-- The one way a C command ends with an exact result `r`: RES gets its low 32 bits when it is in range, else
the command faults with F_RANGE and RES is not written (R69). -/
def finishInRange (cmd : Word) (r : Int) (s : State) : State :=
  if inRange32 r then setRes (BitVec.ofInt 32 r) s else raiseFault .range cmd s

/-- C.FROMINT: shift left 8 (R61). -/
def execCFromint (s : State) : Host.Outcome State Fault Refusal :=
  .next (finishInRange (encode .cFromint) (s.ca.toInt * 256) s)

/-- C.TOINT: divide by 256, truncating toward zero (R62). -/
def execCToint (s : State) : Host.Outcome State Fault Refusal :=
  .next (setRes (BitVec.ofInt 32 (tdiv s.ca.toInt 256)) s)

/-- C.MUL: the exact product shifted right by 8 (R63). -/
def execCMul (s : State) : Host.Outcome State Fault Refusal :=
  .next (finishInRange (encode .cMul) (asr (s.ca.toInt * s.cb.toInt) 8) s)

/-- C.DIV: F_DIV_ZERO is tested first, then the exact quotient truncated toward zero (R64). -/
def execCDiv (s : State) : Host.Outcome State Fault Refusal :=
  if s.cb.toInt = 0 then .next (raiseFault .divZero (encode .cDiv) s)
  else .next (finishInRange (encode .cDiv) (tdiv (s.ca.toInt * 256) s.cb.toInt) s)

/-- C.FLOOR: mask the low 8 bits to zero (R65). -/
def execCFloor (s : State) : Host.Outcome State Fault Refusal :=
  .next (setRes (s.ca &&& 0xFFFFFF00) s)

/-- C.FRAC: the low 8 bits (R66). -/
def execCFrac (s : State) : Host.Outcome State Fault Refusal :=
  .next (setRes (s.ca &&& 0x000000FF) s)

/-- C.RFRAC: one minus the fraction (R67). -/
def execCRfrac (s : State) : Host.Outcome State Fault Refusal :=
  .next (setRes (256 - (s.ca &&& 0xFF)) s)

/-- C.ROUND: add half, which faults when it leaves the range, then mask (R68). -/
def execCRound (s : State) : Host.Outcome State Fault Refusal :=
  if 2 ^ 31 - 1 < s.ca.toInt + 128 then .next (raiseFault .range (encode .cRound) s)
  else .next (setRes (BitVec.ofInt 32 (256 * fdiv (s.ca.toInt + 128) 256)) s)

end Sys2Proof.Machine
end

