-- ==== Sys2Proof/Machine/Line.lean ====
section
/-! DEFINITION. The line rasteriser, fixed_point_line_stepper (43_line.md R100 to R113). -/

namespace Sys2Proof.Machine

/-! ### LINE -/

/-- The line's end points on the major axis A and the minor axis B, ordered along A (R103). -/
structure AxisLine where
  steep : Bool
  a0 : Int
  b0 : Int
  a1 : Int
  b1 : Int
deriving DecidableEq, Repr

/-- |dy| > |dx|: the line is stepped along y (R103, R109). -/
def isSteep (p q : Point) : Bool := decide ((q.x - p.x).natAbs < (q.y - p.y).natAbs)

/-- Classification, and the swap that makes the major coordinate increase (R103, R109). For LINE the last sentence of
R107 (a mirrored line writes the mirrored pixels) does not follow from this order together with the ties of R106 and
of `iround` (R8): DESIGN CHOICE (log 18), the model follows R101 to R106, and on such ties the mirror image is not
kept. -/
def axisLine (p q : Point) : AxisLine :=
  let st := isSteep p q
  let p' : Point := if st then ⟨p.y, p.x⟩ else p
  let q' : Point := if st then ⟨q.y, q.x⟩ else q
  if q'.x < p'.x then ⟨st, q'.x, q'.y, p'.x, p'.y⟩ else ⟨st, p'.x, p'.y, q'.x, q'.y⟩

/-- DA, the major delta (R103). -/
def AxisLine.da (l : AxisLine) : Int := l.a1 - l.a0

/-- s, the direction of the minor axis: +1 or -1 (R103). -/
def AxisLine.dir (l : AxisLine) : Int := if 0 < l.b1 - l.b0 then 1 else -1

/-- ADB, the absolute minor delta (R103). -/
def AxisLine.adb (l : AxisLine) : Int := (l.b1 - l.b0).natAbs

/-- A pixel from its major and minor index: (x, y) (R105, R109). -/
def axisPixel (steep : Bool) (major minor : Int) : Point :=
  if steep then ⟨minor, major⟩ else ⟨major, minor⟩

/-- The running values of the stepper: major index, minor index in the mirrored axis, error (R104). -/
structure Stepper where
  pa : Int
  pb : Int
  d : Int
deriving DecidableEq, Repr

/-- M of the initialisation (R104). -/
def stepperM (l : AxisLine) : Int :=
  l.da * (l.dir * l.b0) + l.adb * (256 * iround l.a0 - l.a0) + 128 * l.da

/-- Stepper initialisation (R104). -/
def stepperInit (l : AxisLine) : Stepper :=
  let m := stepperM l
  let pb := fdiv m (256 * l.da)
  let e := m - pb * (256 * l.da)
  ⟨iround l.a0, pb, e - 256 * l.da + 256 * l.adb⟩

/-- One major step: the minor index moves by one when the error is non-negative (R105). -/
def stepperNext (l : AxisLine) (t : Stepper) : Stepper :=
  if 0 ≤ t.d then ⟨t.pa + 1, t.pb + 1, t.d - 256 * l.da + 256 * l.adb⟩
  else ⟨t.pa + 1, t.pb, t.d + 256 * l.adb⟩

/-- The stepper loop: the pixel of this major index, then `n` further steps (R105). -/
def stepperPixels (l : AxisLine) : Nat → Stepper → List Point
  | 0, t => [axisPixel l.steep t.pa (l.dir * t.pb)]
  | n + 1, t => axisPixel l.steep t.pa (l.dir * t.pb) :: stepperPixels l n (stepperNext l t)

/-- The pixels of the general case, one per major index from iround(A0) to iround(A1) (R105). -/
def slantedPixels (l : AxisLine) : List Point :=
  stepperPixels l (iround l.a1 - iround l.a0).toNat (stepperInit l)

/-- The pixels of the vertical case, in increasing y (R102). -/
def verticalPixels (p q : Point) : List Point :=
  (intRange (iround (min p.y q.y)) (iround (max p.y q.y))).map fun y => ⟨iround p.x, y⟩

/-- The pixel calls of the hard line (R101, R102, R108). -/
def lineOps (t : Tile) (p q : Point) (c : Pixel) : List PixOp :=
  if p.y = q.y then spanSetOps t (iround (min p.x q.x)) (iround (max p.x q.x)) (iround p.y) c
  else if p.x = q.x then (verticalPixels p q).map fun r => .set r.x r.y c
  else (slantedPixels (axisLine p q)).map fun r => .set r.x r.y c

/-- LINE (R108). -/
def execLine (s : State) : Host.Outcome State Fault Refusal :=
  .next (runOps (lineOps (tileOf s) (point0 s) (point1 s) (pack565 s.color)) s)

/-! ### LINE.AA -/

/-- One blended pixel of the antialiased line: its place and its alpha (R109). -/
structure Plot where
  x : Int
  y : Int
  a : Int
deriving DecidableEq, Repr

/-- `plot(px, py, a)`: transposed back for a steep line (R109). -/
def plotAt (steep : Bool) (px py a : Int) : Plot :=
  if steep then ⟨py, px, a⟩ else ⟨px, py, a⟩

/-- The pixel index of a y accumulator scaled by 65536, `v >> 16` (R110). -/
def accPixel (v : Int) : Int := asr v 16

/-- The 8-bit fraction of a y accumulator, `(v >> 8) & 0xFF` (R110). -/
def accFrac (v : Int) : Int := low8 (asr v 8)

/-- G, the gradient scaled by 65536 (R110). -/
def gradient (l : AxisLine) : Int := fdiv (shl (l.b1 - l.b0) 16) l.da

/-- y of the line at the pixel column nearest the end point (a, b), scaled by 65536 (R111). -/
def endAcc (g a b : Int) : Int := shl b 8 + asr (g * (256 * iround a - a)) 8

/-- The two plots of an end point with x gap `gap` (R111). -/
def endPlots (steep : Bool) (column acc gap : Int) : List Plot :=
  [plotAt steep column (accPixel acc) (asr ((255 - accFrac acc) * gap) 8),
   plotAt steep column (accPixel acc + 1) (asr (accFrac acc * gap) 8)]

/-- The two plots of a column of the main loop: coverages 255 - f and f (R112). -/
def columnPlots (steep : Bool) (column acc : Int) : List Plot :=
  [plotAt steep column (accPixel acc) (255 - accFrac acc),
   plotAt steep column (accPixel acc + 1) (accFrac acc)]

/-- The main loop over `n` columns from `column` on (R112). -/
def mainPlots (steep : Bool) (g : Int) : Nat → Int → Int → List Plot
  | 0, _, _ => []
  | n + 1, column, acc => columnPlots steep column acc ++ mainPlots steep g n (column + 1) (acc + g)

/-- The plots of an antialiased line in order: first end point, second end point, main loop; none for a point
(R109 to R113). -/
def lineAaPlots (p q : Point) : List Plot :=
  let l := axisLine p q
  if l.da = 0 then []
  else
    let g := gradient l
    let xe1 := iround l.a0
    let xe2 := iround l.a1
    let ye1 := endAcc g l.a0 l.b0
    endPlots l.steep xe1 ye1 (256 - low8 (l.a0 + 128))
      ++ endPlots l.steep xe2 (endAcc g l.a1 l.b1) (low8 (l.a1 + 128))
      ++ mainPlots l.steep g (xe2 - xe1 - 1).toNat (xe1 + 1) (ye1 + g)

/-- LINE.AA: every plot is a clipped blend with its coverage as the alpha; ALPHA is not read (R109, R113). -/
def execLineAa (s : State) : Host.Outcome State Fault Refusal :=
  .next (runOps ((lineAaPlots (point0 s) (point1 s)).map fun r => .blend r.x r.y s.color r.a) s)

end Sys2Proof.Machine
end

