-- ==== Sys2Proof/Machine/PixelSpan.lean ====
section
/-! DEFINITION. The pixel and span commands (42_pixel_span.md R85 to R97). X0, X1, Y0 are pixel indices. -/

namespace Sys2Proof.Machine

/-- PIX.SET: a clipped single-pixel write (R89). -/
def execPixSet (s : State) : Host.Outcome State Fault Refusal :=
  .next (runOps [.set s.x0.toInt s.y0.toInt (pack565 s.color)] s)

/-- PIX.SETU: in the tile its clipped twin, else no specified behaviour (R90, R97). -/
def execPixSetu (s : State) : Host.Outcome State Fault Refusal :=
  if inside (tileOf s) s.x0.toInt s.y0.toInt then
    .next (runOps [.set s.x0.toInt s.y0.toInt (pack565 s.color)] s)
  else .refused .unclippedOutOfBounds

/-- PIX.BLEND: a clipped blended pixel (R91). -/
def execPixBlend (s : State) : Host.Outcome State Fault Refusal :=
  .next (runOps [.blend s.x0.toInt s.y0.toInt s.color (alphaOf s)] s)

/-- PIX.BLENDU: in the tile its clipped twin, else no specified behaviour, for every alpha (R92, R97). -/
def execPixBlendu (s : State) : Host.Outcome State Fault Refusal :=
  if inside (tileOf s) s.x0.toInt s.y0.toInt then
    .next (runOps [.blend s.x0.toInt s.y0.toInt s.color (alphaOf s)] s)
  else .refused .unclippedOutOfBounds

/-- The pixel calls of the clipped set span of the operand registers (R93). -/
def spanSetOpsOf (s : State) : List PixOp :=
  spanSetOps (tileOf s) s.x0.toInt s.x1.toInt s.y0.toInt (pack565 s.color)

/-- The pixel calls of the clipped blend span of the operand registers (R95). -/
def spanBlendOpsOf (s : State) : List PixOp :=
  spanBlendOps (tileOf s) s.x0.toInt s.x1.toInt s.y0.toInt s.color (alphaOf s)

/-- SPAN.SET: the clipped run [X0, X1] on row Y0 (R93). -/
def execSpanSet (s : State) : Host.Outcome State Fault Refusal :=
  .next (runOps (spanSetOpsOf s) s)

/-- SPAN.SETU: when every pixel of the run is in the tile its clipped twin, else no specified behaviour
(R94, R97). -/
def execSpanSetu (s : State) : Host.Outcome State Fault Refusal :=
  if runInside (tileOf s) s.x0.toInt s.x1.toInt s.y0.toInt then .next (runOps (spanSetOpsOf s) s)
  else .refused .unclippedOutOfBounds

/-- SPAN.BLEND: the clipped run [X0, X1] on row Y0, each pixel blended (R95). -/
def execSpanBlend (s : State) : Host.Outcome State Fault Refusal :=
  .next (runOps (spanBlendOpsOf s) s)

/-- SPAN.BLENDU: when every pixel of the run is in the tile its clipped twin, else no specified behaviour
(R96, R97). -/
def execSpanBlendu (s : State) : Host.Outcome State Fault Refusal :=
  if runInside (tileOf s) s.x0.toInt s.x1.toInt s.y0.toInt then .next (runOps (spanBlendOpsOf s) s)
  else .refused .unclippedOutOfBounds

end Sys2Proof.Machine
end

