-- ==== Sys2Proof/Machine/Clip.lean ====
section
/-! DEFINITION. The trapezoid clipper, trapezoid_clipper_unit (45_zoid_clip.md R135 to R149), and the check of
the table that it shares with the fills (44_triangle_zoid_fill.md R120). -/

namespace Sys2Proof.Machine

/-! ### Checks -/

/-- `check_table`: ZN ≤ 5, then every entry below ZN valid (44_triangle_zoid_fill.md R120). -/
def checkTable (s : State) : Option Cause :=
  if Config.zMax < s.zn.toNat then some .zoidCount
  else if (zoidsOf s).all zoidValid then none else some .zoidInvalid

/-- The entry checks of Z.CLIP: `check_table`, then contiguity (R136). -/
def clipEntryCheck (s : State) : Option Cause :=
  match checkTable s with
  | some c => some c
  | none => if contiguous (zoidsOf s) then none else some .zoidSeq

/-! ### Intersections (R138) -/

/-- The quotient of the helpers: the denominator made positive, then floor (R138). -/
def isectQuot (num den : Int) : Int := if den < 0 then fdiv (-num) (-den) else fdiv num den

/-- `x_at_y`: x of the edge (xa, ya) to (xb, yb) at height yc (R138). -/
def xAtY (xa ya xb yb yc : Int) : Except Cause Int :=
  if ya = yb then .error .degenerateEdge
  else .ok (xa + isectQuot ((xb - xa) * (yc - ya)) (yb - ya))

/-- `y_at_x`: the height at which the edge (xa, ya) to (xb, yb) reaches x = xc (R138). -/
def yAtX (xa ya xb yb xc : Int) : Except Cause Int :=
  if xa = xb then .error .degenerateEdge
  else .ok (ya + isectQuot ((yb - ya) * (xc - xa)) (xb - xa))

/-- L(yc), the left edge at a height (R138). -/
def leftAt (z : Zoid) (yc : Int) : Except Cause Int := xAtY z.xl0 z.y0 z.xl1 z.y1 yc

/-- R(yc), the right edge at a height (R138). -/
def rightAt (z : Zoid) (yc : Int) : Except Cause Int := xAtY z.xr0 z.y0 z.xr1 z.y1 yc

/-- YL(xc), where the left edge reaches a column (R138). -/
def leftReaches (z : Zoid) (xc : Int) : Except Cause Int := yAtX z.xl0 z.y0 z.xl1 z.y1 xc

/-- YR(xc), where the right edge reaches a column (R138). -/
def rightReaches (z : Zoid) (xc : Int) : Except Cause Int := yAtX z.xr0 z.y0 z.xr1 z.y1 xc

/-! ### The y passes -/

/-- The boundary entry of pass 1 cut at the bottom bound (R139). -/
def cutBelow (z : Zoid) (ymax : Int) : Except Cause Zoid :=
  if ymax < z.y1 then do
    let xl ← leftAt z ymax
    let xr ← rightAt z ymax
    .ok { z with xl1 := xl, xr1 := xr, y1 := ymax }
  else .ok z

/-- Pass 1, max-y: drop from the back, then cut the last entry (R139). -/
def clipMaxY (ymax : Int) (zs : List Zoid) : Except Cause (List Zoid) :=
  match zs.reverse.dropWhile fun z => decide (ymax ≤ z.y0) with
  | [] => .ok []
  | z :: before => do
    let z' ← cutBelow z ymax
    .ok (z' :: before).reverse

/-- The boundary entry of pass 2 cut at the top bound (R140). -/
def cutAbove (z : Zoid) (ymin : Int) : Except Cause Zoid :=
  if z.y0 < ymin then do
    let xl ← leftAt z ymin
    let xr ← rightAt z ymin
    .ok { z with xl0 := xl, xr0 := xr, y0 := ymin }
  else .ok z

/-- Pass 2, min-y: drop from the front, then cut the first entry (R140). -/
def clipMinY (ymin : Int) (zs : List Zoid) : Except Cause (List Zoid) :=
  match zs.dropWhile fun z => decide (z.y1 ≤ ymin) with
  | [] => .ok []
  | z :: after => do
    let z' ← cutAbove z ymin
    .ok (z' :: after)

/-! ### The x passes -/

/-- What a case of an x pass does to the visited entry (R143, R145). -/
inductive ClipAction where
  | discard
  | rewrite (z : Zoid)
  | split (z low : Zoid)
deriving DecidableEq, Repr

/-- A 4-bit mask from its bits m[0] to m[3]: xl0, xr0, xl1, xr1 outside the bound (R142). -/
def mask4 (m0 m1 m2 m3 : Bool) : Nat :=
  m0.toNat + 2 * m1.toNat + 4 * m2.toNat + 8 * m3.toNat

/-- The mask of pass 3: which x values are left of the bound (R142). -/
def minXMask (b : Int) (z : Zoid) : Nat :=
  mask4 (decide (z.xl0 < b)) (decide (z.xr0 < b)) (decide (z.xl1 < b)) (decide (z.xr1 < b))

/-- The mask of pass 4: which x values are right of the bound (R144). -/
def maxXMask (b : Int) (z : Zoid) : Nat :=
  mask4 (decide (b < z.xl0)) (decide (b < z.xr0)) (decide (b < z.xl1)) (decide (b < z.xr1))

/-- The cases of pass 3 for a mask other than 0 (R143); an unrealizable mask faults (R142). -/
def minXCase (b : Int) (m : Nat) (z : Zoid) : Except Cause ClipAction :=
  match m with
  | 5 => .ok (.rewrite { z with xl0 := b, xl1 := b })
  | 1 => do
    let yc ← leftReaches z b
    let r ← rightAt z yc
    let xc := max b r
    .ok (.split ⟨b, z.xr0, z.y0, b, xc, yc⟩ ⟨b, xc, yc, z.xl1, z.xr1, z.y1⟩)
  | 4 => do
    let yc ← leftReaches z b
    let r ← rightAt z yc
    let xc := max b r
    .ok (.split ⟨z.xl0, z.xr0, z.y0, b, xc, yc⟩ ⟨b, xc, yc, b, z.xr1, z.y1⟩)
  | 3 => do
    let yr ← rightReaches z b
    let yl ← leftReaches z b
    let r ← rightAt z yl
    let xc := max b r
    .ok (.split ⟨b, b, yr, b, xc, yl⟩ ⟨b, xc, yl, z.xl1, z.xr1, z.y1⟩)
  | 12 => do
    let yl ← leftReaches z b
    let yr ← rightReaches z b
    let r ← rightAt z yl
    let xc := max b r
    .ok (.split ⟨z.xl0, z.xr0, z.y0, b, xc, yl⟩ ⟨b, xc, yl, b, b, yr⟩)
  | 7 => do
    let yr ← rightReaches z b
    .ok (.rewrite ⟨b, b, yr, b, z.xr1, z.y1⟩)
  | 13 => do
    let yr ← rightReaches z b
    .ok (.rewrite ⟨b, z.xr0, z.y0, b, b, yr⟩)
  | 15 => .ok .discard
  | _ => .error .clipMask

/-- The cases of pass 4 for a mask other than 0 (R145); an unrealizable mask faults (R144). -/
def maxXCase (b : Int) (m : Nat) (z : Zoid) : Except Cause ClipAction :=
  match m with
  | 10 => .ok (.rewrite { z with xr0 := b, xr1 := b })
  | 2 => do
    let yc ← rightReaches z b
    let l ← leftAt z yc
    let xc := min b l
    .ok (.split ⟨z.xl0, b, z.y0, xc, b, yc⟩ ⟨xc, b, yc, z.xl1, z.xr1, z.y1⟩)
  | 8 => do
    let yc ← rightReaches z b
    let l ← leftAt z yc
    let xc := min b l
    .ok (.split ⟨z.xl0, z.xr0, z.y0, xc, b, yc⟩ ⟨xc, b, yc, z.xl1, b, z.y1⟩)
  | 3 => do
    let yl ← leftReaches z b
    let yr ← rightReaches z b
    let l ← leftAt z yr
    let xc := min b l
    .ok (.split ⟨b, b, yl, xc, b, yr⟩ ⟨xc, b, yr, z.xl1, z.xr1, z.y1⟩)
  | 12 => do
    let yr ← rightReaches z b
    let yl ← leftReaches z b
    let l ← leftAt z yr
    let xc := min b l
    .ok (.split ⟨z.xl0, z.xr0, z.y0, xc, b, yr⟩ ⟨xc, b, yr, b, b, yl⟩)
  | 11 => do
    let yl ← leftReaches z b
    .ok (.rewrite ⟨b, b, yl, z.xl1, b, z.y1⟩)
  | 14 => do
    let yl ← leftReaches z b
    .ok (.rewrite ⟨z.xl0, b, z.y0, b, b, yl⟩)
  | 15 => .ok .discard
  | _ => .error .clipMask

/-- What the visit of an entry does in pass 3: nothing when the index advances (R141, R143). -/
def minXVisit (b : Int) (z : Zoid) : Except Cause (Option ClipAction) :=
  if z.y0 = z.y1 then .ok (some .discard)
  else if minXMask b z = 0 then .ok none
  else (minXCase b (minXMask b z) z).map some

/-- What the visit of an entry does in pass 4 (R141, R145). -/
def maxXVisit (b : Int) (z : Zoid) : Except Cause (Option ClipAction) :=
  if z.y0 = z.y1 then .ok (some .discard)
  else if maxXMask b z = 0 then .ok none
  else (maxXCase b (maxXMask b z) z).map some

/-- The table the clipper works on, with whether it has become shorter at some point (log 7). -/
structure ClipWork where
  zs : List Zoid
  shrunk : Bool
deriving DecidableEq, Repr

/-- `discard(i)`: the last entry takes the place of entry i and the table shrinks (R147). -/
def discardAt (w : ClipWork) (i : Nat) : ClipWork :=
  match w.zs.getLast? with
  | none => w
  | some last => ⟨(w.zs.set i last).dropLast, true⟩

/-- `append(low)` after entry i has been rewritten, or the fault of a sixth entry (R146). -/
def splitAt (w : ClipWork) (i : Nat) (z low : Zoid) : Except Cause ClipWork :=
  if Config.zMax ≤ w.zs.length then .error .zoidOverflow
  else .ok { w with zs := w.zs.set i z ++ [low] }

/-- The loop of an x pass from index i on; only an entry that needs nothing lets the index advance (R141). The
first argument bounds the visits (log 15). -/
def clipX (visit : Zoid → Except Cause (Option ClipAction)) : Nat → Nat → ClipWork → Except Cause ClipWork
  | 0, _, w => .ok w
  | n + 1, i, w =>
    match w.zs[i]? with
    | none => .ok w
    | some z =>
      match visit z with
      | .error c => .error c
      | .ok none => clipX visit n (i + 1) w
      | .ok (some .discard) => clipX visit n i (discardAt w i)
      | .ok (some (.rewrite z')) => clipX visit n i { w with zs := w.zs.set i z' }
      | .ok (some (.split z' low)) =>
        match splitAt w i z' low with
        | .error c => .error c
        | .ok w' => clipX visit n i w'

/-! ### The four passes -/

/-- The clip rectangle in coordinates (R137). -/
structure ClipRect where
  xmin : Int
  xmax : Int
  ymin : Int
  ymax : Int
deriving DecidableEq, Repr

/-- The tile's rectangle (R137). -/
def clipRect (t : Tile) : ClipRect :=
  ⟨t.x * 256, (t.x + t.w) * 256, t.y * 256, (t.y + t.h) * 256⟩

/-- The passes max-y, min-y, min-x, max-x, each on the result of the one before (R135, R149). -/
def clipPasses (r : ClipRect) (zs : List Zoid) : Except Cause ClipWork := do
  let zs1 ← clipMaxY r.ymax zs
  let zs2 ← clipMinY r.ymin zs1
  let w3 ← clipX (minXVisit r.xmin) Config.clipVisits 0 ⟨zs2, decide (zs2.length < zs.length)⟩
  clipX (maxXVisit r.xmax) Config.clipVisits 0 w3

/-- Stores the clipped table (R149; the entries above ZN: log 7). -/
def storeClipped (w : ClipWork) (s : State) : State :=
  if w.shrunk then setTableShrunk w.zs s else setTable w.zs s

/-- A stage of a trapezoid command: the state after it, or the cause of a fault and the state in which it is
raised. -/
abbrev Stage := Except (Cause × State) State

/-- The stage Z.CLIP: entry checks before the table is changed, then the passes; a fault inside the passes
leaves the table unspecified (R136, R149; 60_exceptions.md R156). -/
def clipStage (s : State) : Stage :=
  match clipEntryCheck s with
  | some c => .error (c, s)
  | none =>
    match clipPasses (clipRect (tileOf s)) (zoidsOf s) with
    | .error c => .error (c, loseTable s)
    | .ok w => .ok (storeClipped w s)

/-- A command ends with the state of its last stage, or takes the fault of the first stage that has one. -/
def finishStage (cmd : Word) : Stage → Host.Outcome State Fault Refusal
  | .ok s => .next s
  | .error (c, s) => .next (raiseFault c cmd s)

/-- Z.CLIP (R149). -/
def execZClip (s : State) : Host.Outcome State Fault Refusal :=
  finishStage (encode .zClip) (clipStage s)

end Sys2Proof.Machine
end

