-- ==== Sys2Proof/Machine/Triangle.lean ====
section
/-! DEFINITION. Triangle set-up and the trapezoid fills (44_triangle_zoid_fill.md R115 to R128). -/

namespace Sys2Proof.Machine

/-! ### TRI.SETUP -/

/-- Three vertices in an order. -/
structure Vertices where
  a : Point
  b : Point
  c : Point
deriving DecidableEq, Repr

/-- (V0, V1, V2) (R115). -/
def verticesOf (s : State) : Vertices := ⟨point0 s, point1 s, point2 s⟩

/-- Compare and swap of the first two, on strictly smaller y (R116). -/
def orderAB (v : Vertices) : Vertices := if v.b.y < v.a.y then ⟨v.b, v.a, v.c⟩ else v

/-- Compare and swap of the last two, on strictly smaller y (R116). -/
def orderBC (v : Vertices) : Vertices := if v.c.y < v.b.y then ⟨v.a, v.c, v.b⟩ else v

/-- Step 1, the stable sort by y (R116). -/
def sortByY (v : Vertices) : Vertices := orderAB (orderBC (orderAB v))

/-- xm, the long edge at the middle vertex's y (R117). -/
def splitX (v : Vertices) : Int :=
  v.a.x + fdiv ((v.c.x - v.a.x) * (v.b.y - v.a.y)) (v.c.y - v.a.y)

/-- Steps 2 and 3 on sorted vertices: the pieces of the triangle (R117, R118). -/
def trianglePieces (v : Vertices) : List Zoid :=
  if v.a.y = v.c.y then []
  else
    let l := min v.b.x (splitX v)
    let r := max v.b.x (splitX v)
    if l < r then
      (if v.a.y < v.b.y then [⟨v.a.x, v.a.x, v.a.y, l, r, v.b.y⟩] else [])
        ++ (if v.b.y < v.c.y then [⟨l, r, v.b.y, v.c.x, v.c.x, v.c.y⟩] else [])
    else []

/-- The stage TRI.SETUP: the table is rebuilt from the vertices; its other entries become unspecified (R119). -/
def triSetupStage (s : State) : State :=
  setTableShrunk (trianglePieces (sortByY (verticesOf s))) s

/-- TRI.SETUP (R119). -/
def execTriSetup (s : State) : Host.Outcome State Fault Refusal :=
  .next (triSetupStage s)

/-! ### Z.FILL -/

/-- An edge's x at `dy` below the top of a trapezoid of height `h`, rounded down (R121). -/
def edgeX (x0 x1 dy h : Int) : Int := x0 + fdiv ((x1 - x0) * dy) h

/-- The pixel calls of one row of a hard fill (R121). -/
def hardRowOps (t : Tile) (z : Zoid) (p : Pixel) (py : Int) : List PixOp :=
  let h := z.y1 - z.y0
  let dy := 256 * py - z.y0
  spanSetOps t (iceil (edgeX z.xl0 z.xl1 dy h)) (iceil (edgeX z.xr0 z.xr1 dy h) - 1) py p

/-- The pixel calls of the hard fill of one trapezoid, rows in increasing py (R121). -/
def hardFillOps (t : Tile) (p : Pixel) (z : Zoid) : List PixOp :=
  if z.y0 = z.y1 then []
  else (intRange (iceil z.y0) (iceil z.y1 - 1)).flatMap (hardRowOps t z p)

/-- The stage Z.FILL: check, then fill every valid entry in table order (R122). -/
def fillStage (s : State) : Stage :=
  match checkTable s with
  | some c => .error (c, s)
  | none => .ok (runOps ((zoidsOf s).flatMap (hardFillOps (tileOf s) (pack565 s.color))) s)

/-- Z.FILL (R122). -/
def execZFill (s : State) : Host.Outcome State Fault Refusal :=
  finishStage (encode .zFill) (fillStage s)

/-! ### Z.FILLAA -/

/-- The x step of an edge per row, scaled by 65536 (R123). -/
def edgeStep (x0 x1 h : Int) : Int := fdiv (shl (x1 - x0) 16) h

/-- An edge at the centre line of the first row touched, scaled by 65536 (R123). -/
def edgeStart (x0 g off : Int) : Int := shl x0 8 + asr (g * off) 8

/-- The covered height of row py, 1 to 256 (R124). -/
def rowHeight (z : Zoid) (py : Int) : Int := min z.y1 (256 * py + 256) - max z.y0 (256 * py)

/-- The pixel column of an edge accumulator, `v >> 16` (R124). -/
def edgeColumn (v : Int) : Int := asr v 16

/-- The 8-bit fraction of an edge accumulator (R124). -/
def edgeFrac (v : Int) : Int := low8 (asr v 8)

/-- The pixel calls of one row of an antialiased fill with row alpha `rowA` and edges at `xl`, `xr` (R124). -/
def aaRowOps (t : Tile) (c : Color) (py rowA xl xr : Int) : List PixOp :=
  let pl := edgeColumn xl
  let pr := edgeColumn xr
  let lc := clamp255 (255 - edgeFrac xl)
  let rc := clamp255 (edgeFrac xr)
  if pl = pr then [.blend pl py c (fdiv (rowA * max 0 (lc + rc - 255)) 255)]
  else if pl < pr then
    .blend pl py c (fdiv (rowA * lc) 255)
      :: (spanBlendOps t (pl + 1) (pr - 1) py c rowA ++ [.blend pr py c (fdiv (rowA * rc) 255)])
  else []

/-- The rows of an antialiased fill from row `py` on, with the edge accumulators stepped per row (R124). -/
def aaRows (t : Tile) (c : Color) (alpha : Int) (z : Zoid) (gl gr : Int) : Nat → Int → Int → Int → List PixOp
  | 0, _, _, _ => []
  | n + 1, py, xl, xr =>
    aaRowOps t c py (asr (alpha * rowHeight z py) 8) xl xr
      ++ aaRows t c alpha z gl gr n (py + 1) (xl + gl) (xr + gr)

/-- The pixel calls of the antialiased fill of one trapezoid (R123, R124). -/
def aaFillOps (t : Tile) (c : Color) (alpha : Int) (z : Zoid) : List PixOp :=
  if z.y0 = z.y1 then []
  else
    let h := z.y1 - z.y0
    let gl := edgeStep z.xl0 z.xl1 h
    let gr := edgeStep z.xr0 z.xr1 h
    let ya := ifloor z.y0
    let yb := ifloor (z.y1 - 1)
    let off := 256 * ya + 128 - z.y0
    aaRows t c alpha z gl gr (yb - ya + 1).toNat ya (edgeStart z.xl0 gl off) (edgeStart z.xr0 gr off)

/-- The stage Z.FILLAA (R126). -/
def fillAaStage (s : State) : Stage :=
  match checkTable s with
  | some c => .error (c, s)
  | none => .ok (runOps ((zoidsOf s).flatMap (aaFillOps (tileOf s) s.color (alphaOf s))) s)

/-- Z.FILLAA (R126). -/
def execZFillaa (s : State) : Host.Outcome State Fault Refusal :=
  finishStage (encode .zFillaa) (fillAaStage s)

/-! ### The whole calls -/

/-- One stage after another; the first fault ends the command. -/
def andThen (r : Stage) (f : State → Stage) : Stage :=
  match r with
  | .ok s => f s
  | .error e => .error e

/-- TRI.FILL: TRI.SETUP, Z.CLIP, Z.FILL as one command (R127). -/
def execTriFill (s : State) : Host.Outcome State Fault Refusal :=
  finishStage (encode .triFill) (andThen (clipStage (triSetupStage s)) fillStage)

/-- TRI.FILLAA: TRI.SETUP, Z.CLIP, Z.FILLAA as one command (R128). -/
def execTriFillaa (s : State) : Host.Outcome State Fault Refusal :=
  finishStage (encode .triFillaa) (andThen (clipStage (triSetupStage s)) fillAaStage)

end Sys2Proof.Machine
end

