-- ==== Sys2Proof/Machine/Dispatch.lean ====
section
/-! DEFINITION. The meaning of every command, one arm per row of the opcode table (30_encoding.md R55). -/

namespace Sys2Proof.Machine

def exec (i : Instr) (s : State) : Host.Outcome State Fault Refusal :=
  match i with
  -- coordinate ALU
  | .cFromint => Sys2Proof.Machine.execCFromint s
  | .cToint => Sys2Proof.Machine.execCToint s
  | .cMul => Sys2Proof.Machine.execCMul s
  | .cDiv => Sys2Proof.Machine.execCDiv s
  | .cFloor => Sys2Proof.Machine.execCFloor s
  | .cFrac => Sys2Proof.Machine.execCFrac s
  | .cRfrac => Sys2Proof.Machine.execCRfrac s
  | .cRound => Sys2Proof.Machine.execCRound s
  -- colour
  | .kPack => Sys2Proof.Machine.execKPack s
  | .kUnpack => Sys2Proof.Machine.execKUnpack s
  | .kBlend => Sys2Proof.Machine.execKBlend s
  -- pixel and span
  | .pixSet => Sys2Proof.Machine.execPixSet s
  | .pixSetu => Sys2Proof.Machine.execPixSetu s
  | .pixBlend => Sys2Proof.Machine.execPixBlend s
  | .pixBlendu => Sys2Proof.Machine.execPixBlendu s
  | .spanSet => Sys2Proof.Machine.execSpanSet s
  | .spanSetu => Sys2Proof.Machine.execSpanSetu s
  | .spanBlend => Sys2Proof.Machine.execSpanBlend s
  | .spanBlendu => Sys2Proof.Machine.execSpanBlendu s
  -- line
  | .line => Sys2Proof.Machine.execLine s
  | .lineAa => Sys2Proof.Machine.execLineAa s
  -- trapezoid
  | .triSetup => Sys2Proof.Machine.execTriSetup s
  | .zClip => Sys2Proof.Machine.execZClip s
  | .zFill => Sys2Proof.Machine.execZFill s
  | .zFillaa => Sys2Proof.Machine.execZFillaa s
  | .triFill => Sys2Proof.Machine.execTriFill s
  | .triFillaa => Sys2Proof.Machine.execTriFillaa s

end Sys2Proof.Machine
end

