-- ==== Sys2Proof/Machine/Port.lean ====
section
/-! DEFINITION. The register port and what else the outside does to the block (10_state.md R21 to R34;
60_exceptions.md R153; 70_reset_and_hazards.md R171 to R173; 30_encoding.md R59). -/

namespace Sys2Proof.Machine

/-! ### Reading and writing registers -/

/-- The six registers of an entry by field (10_state.md R23). -/
def readField (e : ZEntry) : ZField → Word
  | .xl0 => e.xl0
  | .xr0 => e.xr0
  | .y0 => e.y0
  | .xl1 => e.xl1
  | .xr1 => e.xr1
  | .y1 => e.y1

/-- An entry with one of its registers written. -/
def writeField (e : ZEntry) (f : ZField) (v : Word) : ZEntry :=
  match f with
  | .xl0 => { e with xl0 := v }
  | .xr0 => { e with xr0 := v }
  | .y0 => { e with y0 := v }
  | .xl1 => { e with xl1 := v }
  | .xr1 => { e with xr1 := v }
  | .y1 => { e with y1 := v }

/-- The 32 bits a read of a register returns: bits it does not store are 0, but TILE_X and TILE_Y read
sign-extended; CMD and CTRL read 0 (R23, R24, R26). -/
def readReg (s : State) : Reg → Word
  | .cmd => 0
  | .status => statusWord s
  | .ctrl => 0
  | .fcmd => s.fcmd
  | .tileBase => s.tileBase
  | .tileX => s.tileX.signExtend 32
  | .tileY => s.tileY.signExtend 32
  | .tileW => s.tileW.setWidth 32
  | .tileH => s.tileH.setWidth 32
  | .tileStride => s.tileStride.setWidth 32
  | .x0 => s.x0
  | .y0 => s.y0
  | .x1 => s.x1
  | .y1 => s.y1
  | .x2 => s.x2
  | .y2 => s.y2
  | .color => s.color.setWidth 32
  | .alpha => s.alpha.setWidth 32
  | .dpix => s.dpix.setWidth 32
  | .ca => s.ca
  | .cb => s.cb
  | .res => s.res
  | .zn => s.zn.setWidth 32
  | .z i f => readField (zGet s.z i) f

/-- A write of word `w` to CMD: ignored while halted, else the command `w` encodes is executed to its end, or
F_ILLEGAL_CMD is taken (R24; 30_encoding.md R54; 60_exceptions.md R153). -/
def issueCommand (w : Word) (s : State) : Host.Outcome State Fault Refusal :=
  if halted s then .next s
  else
    match decode w with
    | .ok i => exec i s
    | .error _ => .next (raiseFault .illegalCmd w s)

/-- A write to CTRL: soft reset when bit 0 is 1, else nothing (R26). -/
def writeCtrl (v : Word) (s : State) : State :=
  if v.extractLsb' 0 1 = 1 then softReset s else s

/-- A write of a register other than CMD: it keeps the low bits it stores; read-only registers ignore it (R23). -/
def writeReg (r : Reg) (v : Word) (s : State) : State :=
  match r with
  | .cmd => s
  | .status => s
  | .ctrl => writeCtrl v s
  | .fcmd => s
  | .tileBase => { s with tileBase := v }
  | .tileX => { s with tileX := v.setWidth 16 }
  | .tileY => { s with tileY := v.setWidth 16 }
  | .tileW => { s with tileW := v.setWidth 16 }
  | .tileH => { s with tileH := v.setWidth 16 }
  | .tileStride => { s with tileStride := v.setWidth 16 }
  | .x0 => { s with x0 := v }
  | .y0 => { s with y0 := v }
  | .x1 => { s with x1 := v }
  | .y1 => { s with y1 := v }
  | .x2 => { s with x2 := v }
  | .y2 => { s with y2 := v }
  | .color => { s with color := v.setWidth 24 }
  | .alpha => { s with alpha := v.setWidth 8 }
  | .dpix => { s with dpix := v.setWidth 16 }
  | .ca => { s with ca := v }
  | .cb => { s with cb := v }
  | .res => s
  | .zn => { s with zn := v.setWidth 3 }
  | .z i f => { s with z := zSet s.z i (writeField (zGet s.z i) f v) }

/-! ### Transactions of the register port -/

/-- A write of an aligned word at an offset below 0x400: CMD issues a command, an undefined offset ignores the
write (R23, R24, R33). -/
def portWriteWord (off : Nat) (v : Word) (s : State) : Host.Outcome State Fault Refusal :=
  match regAt off with
  | some .cmd => issueCommand v s
  | some r => .next (writeReg r v s)
  | none => .next s

/-- What a read of an aligned word at an offset below 0x400 returns; an undefined offset reads 0 (R23, R33). -/
def portReadWord (off : Nat) (s : State) : Word :=
  match regAt off with
  | some r => readReg s r
  | none => 0

/-- Only aligned 32-bit accesses below offset 0x400 are defined; any other stops (R33, R34, U8, log 10). -/
def checkedAccess (size : AccessSize) (off : Nat) (go : Host.Outcome State Fault Refusal) :
    Host.Outcome State Fault Refusal :=
  if size ≠ .word then .refused .portAccessSize
  else if off % 4 ≠ 0 then .refused .portMisaligned
  else if 0x400 ≤ off then .fault .outsideBlock
  else go

/-- The value a read returns joins the program's output (30_encoding.md R59, log 6). -/
def emit (v : Word) (s : State) : State := { s with output := v :: s.output }

/-! ### Hardware reset -/

/-- `rst`: STATUS, FCMD and ZN become 0, every other register becomes unspecified, that is a free value;
pixel memory is not changed (70_reset_and_hazards.md R171; 10_state.md R35; U7, log 11). -/
def hardReset (s : State) : State :=
  let n := s.freeCount
  { s with
    fault := false
    fcode := 0
    fcmd := 0
    zn := 0
    z := freeTable n
    tileBase := Config.freeWord (n + 30)
    tileX := (Config.freeWord (n + 31)).setWidth 16
    tileY := (Config.freeWord (n + 32)).setWidth 16
    tileW := (Config.freeWord (n + 33)).setWidth 16
    tileH := (Config.freeWord (n + 34)).setWidth 16
    tileStride := (Config.freeWord (n + 35)).setWidth 16
    x0 := Config.freeWord (n + 36)
    y0 := Config.freeWord (n + 37)
    x1 := Config.freeWord (n + 38)
    y1 := Config.freeWord (n + 39)
    x2 := Config.freeWord (n + 40)
    y2 := Config.freeWord (n + 41)
    color := (Config.freeWord (n + 42)).setWidth 24
    alpha := (Config.freeWord (n + 43)).setWidth 8
    dpix := (Config.freeWord (n + 44)).setWidth 16
    ca := Config.freeWord (n + 45)
    cb := Config.freeWord (n + 46)
    res := Config.freeWord (n + 47)
    freeCount := n + 48 }

/-- The engine performs one access of a recorded list again: a write stores its pixel, a read only counts. -/
def replayAccess (s : State) (x : PixAccess) : State :=
  match x with
  | .write a p => portWrite a p s
  | .read a p => { s with trace := .read a p :: s.trace }

/-- The accesses a run from `s` to `t` made on the pixel port, oldest first. -/
def accessesBetween (s t : State) : List PixAccess :=
  (t.trace.take (t.trace.length - s.trace.length)).reverse

/-- `rst` while a command that would take `s` to `t` runs: the accesses already performed stay, no further one
is made, and the block is reset (R173). How many were performed is a free value (U4, log 11). -/
def interruptedReset (s t : State) : State :=
  hardReset (((accessesBetween s t).take (Config.freeAccessCount s.freeCount)).foldl replayAccess
    { s with freeCount := s.freeCount + 1 })

/-- `rst` while the command of a CMD write of `w` runs (R173); a command without specified behaviour stops. -/
def resetDuring (w : Word) (s : State) : Host.Outcome State Fault Refusal :=
  match issueCommand w s with
  | .next t => .next (interruptedReset s t)
  | .fault r => .fault r
  | .refused r => .refused r

/-! ### Events -/

/-- Performs one event of the outside (R21, R48). -/
def hostEvent (e : HostEvent) (s : State) : Host.Outcome State Fault Refusal :=
  match e with
  | .write size off v => checkedAccess size off (portWriteWord off v s)
  | .read size off => checkedAccess size off (.next (emit (portReadWord off s) s))
  | .rst => .next (hardReset s)
  | .cmdRst w => resetDuring w s
  | .pixWrite a p => .next { s with mem := writePixel s.mem a p }
  | .pixRead a => .next (emit ((readPixel s.mem a).setWidth 32) s)

/-- Takes the next event of the queue and performs it; with no event pending the engine is idle and nothing
changes (10_state.md R20; 70_reset_and_hazards.md R171; log 5). -/
def nextEvent (s : State) : Host.Outcome State Fault Refusal :=
  match s.port with
  | [] => .next s
  | e :: rest => hostEvent e { s with port := rest }

end Sys2Proof.Machine
end

