-- ==== Sys2Proof/Machine/Step.lean ====
section
/-! DEFINITION. One step of the machine. -/

namespace Sys2Proof.Machine

/-- One step: the next event of the outside is performed; a command is executed by the write to CMD that
issues it (10_state.md R20, R21, R24). -/
def step (s : State) : Host.Outcome State Fault Refusal := nextEvent s

/-- The state with a write of the command word `w` to CMD as the next event: where this block takes its next
command from (10_state.md R24, 20_memory.md R51; log 5). In the halted state that write is ignored (R153). -/
def State.withFetchWord (s : State) (nbits w : Nat) : State :=
  { s with port := .write .word (regOffset .cmd) (BitVec.ofNat 32 (w % 2 ^ nbits)) :: s.port }

end Sys2Proof.Machine
end

