-- ==== Sys2Proof/Safety.lean ====
section
/-! DEFINITION. The terms in which claims speak of safe runs, of the state's invariants, and of what the clipper
leaves of an entry. -/

namespace Sys2Proof.Machine

/-- A step or a command stopped neither by a model fault nor by a refusal. -/
def Completes (o : Host.Outcome State Fault Refusal) : Prop := ∃ t, o = .next t

/-- The fault registers agree (10_state.md R25, R27; 60_exceptions.md R152): without a fault FCODE and FCMD
are 0; with one FCODE is one of the codes 1 to 9. -/
def FaultRegsAgree (s : State) : Prop :=
  (s.fault = false → s.fcode = 0 ∧ s.fcmd = 0) ∧
  (s.fault = true → 1 ≤ s.fcode.toNat ∧ s.fcode.toNat ≤ 9)

/-- The invariant of the machine: memory in canonical form and fault registers that agree. -/
def MachineInv (s : State) : Prop := Memory.wf s.mem = true ∧ FaultRegsAgree s

/-- An address belongs to the footprint of a tile (20_memory.md R43). -/
def InFootprint (t : Tile) (a : PixAddr) : Prop :=
  ∃ x y : Int, inside t x y = true ∧ pixAddr t x y = a

/-- The address of an access. -/
def accessAddr : PixAccess → PixAddr
  | .read a _ => a
  | .write a _ => a

/-- The access is a write. -/
def isWrite : PixAccess → Bool
  | .read _ _ => false
  | .write _ _ => true

/-- Byte `b` of memory is one of the two bytes of pixel `a` (20_memory.md R44). -/
def ByteOfPixel (a : PixAddr) (b : Nat) : Prop :=
  b = pixelLowByte Config.pixelByteOrder a ∨ b = pixelHighByte Config.pixelByteOrder a

/-- Every byte of memory outside the pixels of `A` reads in `t` as in `s`. -/
def SameMemoryOutside (s t : State) (A : PixAddr → Prop) : Prop :=
  ∀ b, (∀ a, A a → ¬ ByteOfPixel a b) → memRead t.mem b = memRead s.mem b

/-- `t` agrees with `s` on every register of the port but STATUS, FCMD, RES, ZN and the Z table. -/
def SameOperands (s t : State) : Prop :=
  t.tileBase = s.tileBase ∧ t.tileX = s.tileX ∧ t.tileY = s.tileY ∧ t.tileW = s.tileW ∧ t.tileH = s.tileH ∧
  t.tileStride = s.tileStride ∧ t.x0 = s.x0 ∧ t.y0 = s.y0 ∧ t.x1 = s.x1 ∧ t.y1 = s.y1 ∧ t.x2 = s.x2 ∧
  t.y2 = s.y2 ∧ t.color = s.color ∧ t.alpha = s.alpha ∧ t.dpix = s.dpix ∧ t.ca = s.ca ∧ t.cb = s.cb

/-- `t` agrees with `s` on STATUS and FCMD. -/
def SameFault (s t : State) : Prop := t.fault = s.fault ∧ t.fcode = s.fcode ∧ t.fcmd = s.fcmd

/-- `t` agrees with `s` on ZN, on every entry of the Z table and on the count of free values drawn. -/
def SameTable (s t : State) : Prop := t.zn = s.zn ∧ t.z = s.z ∧ t.freeCount = s.freeCount

/-- `t` agrees with `s` on pixel memory and on the engine's accesses. -/
def SamePixels (s t : State) : Prop := t.mem = s.mem ∧ t.trace = s.trace

/-- `t` agrees with `s` on the outside's events and the values read so far. -/
def SameOutside (s t : State) : Prop := t.port = s.port ∧ t.output = s.output

/-- `t` differs from `s` in RES at most. -/
def OnlyRes (s t : State) : Prop :=
  SameOperands s t ∧ SameFault s t ∧ SameTable s t ∧ SamePixels s t ∧ SameOutside s t

/-- `t` differs from `s` in STATUS and FCMD at most. -/
def OnlyFault (s t : State) : Prop :=
  SameOperands s t ∧ t.res = s.res ∧ SameTable s t ∧ SamePixels s t ∧ SameOutside s t

/-- `t` differs from `s` in pixel memory and in the engine's accesses at most. -/
def OnlyPixels (s t : State) : Prop :=
  SameOperands s t ∧ t.res = s.res ∧ SameFault s t ∧ SameTable s t ∧ SameOutside s t

/-- `t` differs from `s` in ZN, the Z table and the count of free values at most. -/
def OnlyTable (s t : State) : Prop :=
  SameOperands s t ∧ t.res = s.res ∧ SameFault s t ∧ SamePixels s t ∧ SameOutside s t

/-- `t` differs from `s` in ZN, the Z table, the count of free values, pixel memory and the engine's accesses
at most. -/
def OnlyTableAndPixels (s t : State) : Prop :=
  SameOperands s t ∧ t.res = s.res ∧ SameFault s t ∧ SameOutside s t

/-- The writes of a list of clipped stores of one pixel value, oldest first: one per point inside the tile. -/
def storeAccesses (t : Tile) (p : Pixel) (ps : List Point) : List PixAccess :=
  (ps.filter fun r => inside t r.x r.y).map fun r => .write (pixAddr t r.x r.y) p

/-- `t` is `s` after `p` has been stored at those points of `ps` that are inside the tile, in the order of
`ps`: one write and no read for each, each such pixel holds `p`, every other byte of memory and everything
else is unchanged. -/
def Stores (s t : State) (p : Pixel) (ps : List Point) : Prop :=
  OnlyPixels s t ∧
  t.trace = (storeAccesses (tileOf s) p ps).reverse ++ s.trace ∧
  (∀ r ∈ ps, inside (tileOf s) r.x r.y = true → readPixel t.mem (pixAddr (tileOf s) r.x r.y) = p) ∧
  SameMemoryOutside s t fun a => ∃ r ∈ ps, inside (tileOf s) r.x r.y = true ∧ pixAddr (tileOf s) r.x r.y = a

/-- The calls that blend a colour at each of a list of points, with the alpha given there. -/
def blendOps (c : Color) (plots : List (Point × Int)) : List PixOp :=
  plots.map fun r => .blend r.1.x r.1.y c r.2

/-- `t` is `s` after the plots have been blended in order (each as 42_pixel_span.md R87 says), and every byte of
memory outside the plotted pixels inside the tile is unchanged. -/
def Blends (s t : State) (c : Color) (plots : List (Point × Int)) : Prop :=
  t = runOps (blendOps c plots) s ∧ OnlyPixels s t ∧
  SameMemoryOutside s t fun a =>
    ∃ r ∈ plots, inside (tileOf s) r.1.x r.1.y = true ∧ r.2 ≠ 0 ∧ pixAddr (tileOf s) r.1.x r.1.y = a

/-! ### What the clipper leaves of an entry -/

/-- An edge from `a0` at the top of a trapezoid to `a1` at its bottom, at height `yc`, rounded down (45_zoid_clip.md
R138). -/
def edgeAt (z : Zoid) (a0 a1 yc : Int) : Int := a0 + (a1 - a0) * (yc - z.y0) / (z.y1 - z.y0)

/-- The height at which that edge reaches column `b`, rounded down; `a0 ≠ a1` (R138). -/
def heightAt (z : Zoid) (a0 a1 b : Int) : Int :=
  z.y0 + (z.y1 - z.y0) * ((b - a0) * (a1 - a0).sign) / (a1 - a0).natAbs

/-- The entries that have a height. -/
def withHeight (zs : List Zoid) : List Zoid := zs.filter fun z => decide (z.y0 < z.y1)

/-- What is left of an entry right of the bound `b`, from top to bottom (45_zoid_clip.md R143, masks 0, 15, 7, 3,
13, 12, 4, 1, 5). -/
def leftCut (b : Int) (z : Zoid) : List Zoid :=
  let yl := heightAt z z.xl0 z.xl1 b
  let yr := heightAt z z.xr0 z.xr1 b
  let xc := max b (edgeAt z z.xr0 z.xr1 yl)
  if b ≤ z.xl0 ∧ b ≤ z.xl1 then [z]
  else if z.xr0 < b ∧ z.xr1 < b then []
  else if z.xr0 < b ∧ z.xl1 < b then [⟨b, b, yr, b, z.xr1, z.y1⟩]
  else if z.xr0 < b then [⟨b, b, yr, b, xc, yl⟩, ⟨b, xc, yl, z.xl1, z.xr1, z.y1⟩]
  else if z.xl0 < b ∧ z.xr1 < b then [⟨b, z.xr0, z.y0, b, b, yr⟩]
  else if z.xr1 < b then [⟨z.xl0, z.xr0, z.y0, b, xc, yl⟩, ⟨b, xc, yl, b, b, yr⟩]
  else if b ≤ z.xl0 then [⟨z.xl0, z.xr0, z.y0, b, xc, yl⟩, ⟨b, xc, yl, b, z.xr1, z.y1⟩]
  else if b ≤ z.xl1 then [⟨b, z.xr0, z.y0, b, xc, yl⟩, ⟨b, xc, yl, z.xl1, z.xr1, z.y1⟩]
  else [⟨b, z.xr0, z.y0, b, z.xr1, z.y1⟩]

/-- What is left of an entry left of the bound `b`, from top to bottom (45_zoid_clip.md R145, masks 0, 15, 11, 3,
14, 12, 8, 2, 10). -/
def rightCut (b : Int) (z : Zoid) : List Zoid :=
  let yl := heightAt z z.xl0 z.xl1 b
  let yr := heightAt z z.xr0 z.xr1 b
  let xc := min b (edgeAt z z.xl0 z.xl1 yr)
  if z.xr0 ≤ b ∧ z.xr1 ≤ b then [z]
  else if b < z.xl0 ∧ b < z.xl1 then []
  else if b < z.xl0 ∧ b < z.xr1 then [⟨b, b, yl, z.xl1, b, z.y1⟩]
  else if b < z.xl0 then [⟨b, b, yl, xc, b, yr⟩, ⟨xc, b, yr, z.xl1, z.xr1, z.y1⟩]
  else if b < z.xr0 ∧ b < z.xl1 then [⟨z.xl0, b, z.y0, b, b, yl⟩]
  else if b < z.xl1 then [⟨z.xl0, z.xr0, z.y0, xc, b, yr⟩, ⟨xc, b, yr, b, b, yl⟩]
  else if z.xr0 ≤ b then [⟨z.xl0, z.xr0, z.y0, xc, b, yr⟩, ⟨xc, b, yr, z.xl1, b, z.y1⟩]
  else if z.xr1 ≤ b then [⟨z.xl0, b, z.y0, xc, b, yr⟩, ⟨xc, b, yr, z.xl1, z.xr1, z.y1⟩]
  else [⟨z.xl0, b, z.y0, z.xl1, b, z.y1⟩]

/-- An entry cut at the bottom bound when it crosses it (45_zoid_clip.md R139). -/
def bottomCut (b : Int) (z : Zoid) : Zoid :=
  if b < z.y1 then ⟨z.xl0, z.xr0, z.y0, edgeAt z z.xl0 z.xl1 b, edgeAt z z.xr0 z.xr1 b, b⟩ else z

/-- An entry cut at the top bound when it crosses it (45_zoid_clip.md R140). -/
def topCut (b : Int) (z : Zoid) : Zoid :=
  if z.y0 < b then ⟨edgeAt z z.xl0 z.xl1 b, edgeAt z z.xr0 z.xr1 b, b, z.xl1, z.xr1, z.y1⟩ else z

/-- What is left of a table between the top and the bottom bound: the entries with rows there, in order, each cut
at the bound it crosses, the bottom first (45_zoid_clip.md R139, R140). -/
def rowsKept (top bottom : Int) (zs : List Zoid) : List Zoid :=
  (zs.filter fun z => decide (max top z.y0 < min bottom z.y1)).map fun z => topCut top (bottomCut bottom z)

/-- What is left of a table in a rectangle, entry by entry: its rows, cut at the left bound, then at the right
bound; a piece without height is left out after each cut (45_zoid_clip.md R149). -/
def partsInside (r : ClipRect) (zs : List Zoid) : List Zoid :=
  withHeight ((withHeight ((rowsKept r.ymin r.ymax zs).flatMap (leftCut r.xmin))).flatMap (rightCut r.xmax))

end Sys2Proof.Machine
end

