-- ==== Sys2Proof/Certificates/Slice0/Obligations.lean ====
section
/-! DEFINITION. The statements for the provers. `R<n>` is a rule of spec/; "log <n>" is an entry of
notes/assumptions. The words defined first are only used to write statements. -/

namespace Sys2Proof.Machine

/-- The 22 registers of 10_state.md R23 that stand at one offset each, as the table of the rule lists them. -/
def portMap : List (Nat × Reg) :=
  [(0x000, .cmd), (0x004, .status), (0x008, .ctrl), (0x00C, .fcmd), (0x010, .tileBase), (0x014, .tileX),
   (0x018, .tileY), (0x01C, .tileW), (0x020, .tileH), (0x024, .tileStride), (0x030, .x0), (0x034, .y0),
   (0x038, .x1), (0x03C, .y1), (0x040, .x2), (0x044, .y2), (0x048, .color), (0x04C, .alpha), (0x050, .dpix),
   (0x054, .ca), (0x058, .cb), (0x05C, .res), (0x080, .zn)]

/-- How many bits of a read-write register are stored (the table of R23). -/
def storedBits : Reg → Nat
  | .tileX | .tileY | .tileW | .tileH | .tileStride | .dpix => 16
  | .color => 24
  | .alpha => 8
  | .zn => 3
  | _ => 32

/-- What a read of a read-write register returns after `v` has been written to it (R23). -/
def readBack (r : Reg) (v : Word) : Word :=
  if r = .tileX ∨ r = .tileY then (v.setWidth 16).signExtend 32
  else BitVec.ofNat 32 (v.toNat % 2 ^ storedBits r)

/-- Red, green, blue of an RGB888 value, as numbers 0 to 255 (41_color_blend.md R75). -/
def redOf (c : Color) : Int := c.toNat / 65536
def greenOf (c : Color) : Int := c.toNat / 256 % 256
def blueOf (c : Color) : Int := c.toNat % 256

/-- Red, green, blue of a stored pixel, widened to 0 to 255 (41_color_blend.md R76, R78). -/
def wideRed (p : Pixel) : Int := (p.toNat / 2048) * 8 + (p.toNat / 2048) / 4
def wideGreen (p : Pixel) : Int := (p.toNat / 32 % 64) * 4 + (p.toNat / 32 % 64) / 16
def wideBlue (p : Pixel) : Int := (p.toNat % 32) * 8 + (p.toNat % 32) / 4

/-- Three channels 0 to 255 as the number of an RGB565 pixel (41_color_blend.md R77). -/
def packed (r g b : Int) : Int := r / 8 * 2048 + g / 4 * 32 + b / 8

/-- One channel of the blend (41_color_blend.md R79). -/
def mixed (dv sv a : Int) : Int := dv + Int.tdiv ((sv - dv) * a) 255

/-- The points of row `y` from column `x0` to column `x1`, in increasing x. -/
def rowPoints (x0 x1 y : Int) : List Point := (intRange x0 x1).map fun x => ⟨x, y⟩

/-- The minor index of R106 at major index `pa`: the closed form of the stepper, s * pb(pa). -/
def nearestMinor (l : AxisLine) (pa : Int) : Int :=
  l.dir * ((l.da * (l.dir * l.b0) + l.adb * (256 * pa - l.a0) + 128 * l.da) / (256 * l.da))

/-- The pixels of a slanted line by the closed form, in increasing major index (43_line.md R106). -/
def nearestPixels (l : AxisLine) : List Point :=
  (intRange (iround l.a0) (iround l.a1)).map fun pa => axisPixel l.steep pa (nearestMinor l pa)

/-- The two plots of an antialiased column: pixel index `acc >> 16` with weight `wLow`, the next with `wHigh`. -/
def columnPair (steep : Bool) (column acc wLow wHigh : Int) : List (Point × Int) :=
  [(axisPixel steep column (acc / 65536), wLow), (axisPixel steep column (acc / 65536 + 1), wHigh)]

/-- The plots of LINE.AA by R110 to R112, with the accumulator of the k-th main-loop column in closed form. -/
def aaLinePlots (l : AxisLine) : List (Point × Int) :=
  let g := (l.b1 - l.b0) * 65536 / (l.a1 - l.a0)
  let xe1 := (l.a0 + 128) / 256
  let xe2 := (l.a1 + 128) / 256
  let ye1 := l.b0 * 256 + g * (256 * xe1 - l.a0) / 256
  let ye2 := l.b1 * 256 + g * (256 * xe2 - l.a1) / 256
  let f1 := ye1 / 256 % 256
  let f2 := ye2 / 256 % 256
  let gap1 := 256 - (l.a0 + 128) % 256
  let gap2 := (l.a1 + 128) % 256
  columnPair l.steep xe1 ye1 ((255 - f1) * gap1 / 256) (f1 * gap1 / 256)
    ++ columnPair l.steep xe2 ye2 ((255 - f2) * gap2 / 256) (f2 * gap2 / 256)
    ++ (List.range (xe2 - xe1 - 1).toNat).flatMap fun (k : Nat) =>
      let acc := ye1 + (k + 1) * g
      columnPair l.steep (xe1 + 1 + k) acc (255 - acc / 256 % 256) (acc / 256 % 256)

/-- The pieces of a triangle with vertices sorted by y (44_triangle_zoid_fill.md R117, R118). -/
def piecesOf (a b c : Point) : List Zoid :=
  if a.y = c.y then []
  else
    let xm := a.x + (c.x - a.x) * (b.y - a.y) / (c.y - a.y)
    if min b.x xm < max b.x xm then
      (if a.y < b.y then [⟨a.x, a.x, a.y, min b.x xm, max b.x xm, b.y⟩] else [])
        ++ (if b.y < c.y then [⟨min b.x xm, max b.x xm, b.y, c.x, c.x, c.y⟩] else [])
    else []

/-- The left and right edge of a trapezoid at row `py`, rounded down (44_triangle_zoid_fill.md R121). -/
def leftEdge (z : Zoid) (py : Int) : Int := z.xl0 + (z.xl1 - z.xl0) * (256 * py - z.y0) / (z.y1 - z.y0)
def rightEdge (z : Zoid) (py : Int) : Int := z.xr0 + (z.xr1 - z.xr0) * (256 * py - z.y0) / (z.y1 - z.y0)

/-- The sample point of pixel `r` lies in the half-open region of the trapezoid: top and left edge included,
bottom and right edge excluded (R121). -/
def Sampled (z : Zoid) (r : Point) : Prop :=
  (z.y0 ≤ 256 * r.y ∧ 256 * r.y < z.y1) ∧ leftEdge z r.y ≤ 256 * r.x ∧ 256 * r.x < rightEdge z r.y

/-- The pixels of a hard fill of one trapezoid: rows in increasing y, pixels in increasing x (R121). -/
def hardPoints (z : Zoid) : List Point :=
  if z.y0 = z.y1 then []
  else (intRange ((z.y0 + 255) / 256) ((z.y1 + 255) / 256 - 1)).flatMap fun py =>
    rowPoints ((leftEdge z py + 255) / 256) ((rightEdge z py + 255) / 256 - 1) py

/-- The plots of one row of an antialiased fill: row alpha `rowA`, edge positions `xl`, `xr` scaled by 65536
(44_triangle_zoid_fill.md R124, R125). -/
def aaRowPlots (t : Tile) (py rowA xl xr : Int) : List (Point × Int) :=
  let pl := xl / 65536
  let pr := xr / 65536
  let lc := 255 - xl / 256 % 256
  let rc := xr / 256 % 256
  if pl = pr then [(⟨pl, py⟩, rowA * max 0 (lc + rc - 255) / 255)]
  else if pl < pr then
    (⟨pl, py⟩, rowA * lc / 255)
      :: ((rowPoints (pl + 1) (pr - 1) py).filter fun r => inside t r.x r.y).map (fun r => (r, rowA))
      ++ [(⟨pr, py⟩, rowA * rc / 255)]
  else []

/-- The plots of the antialiased fill of one trapezoid with the edges of the k-th row in closed form
(44_triangle_zoid_fill.md R123, R124). -/
def aaZoidPlots (t : Tile) (alpha : Int) (z : Zoid) : List (Point × Int) :=
  if z.y0 = z.y1 then []
  else
    let h := z.y1 - z.y0
    let gl := (z.xl1 - z.xl0) * 65536 / h
    let gr := (z.xr1 - z.xr0) * 65536 / h
    let ya := z.y0 / 256
    let off := 256 * ya + 128 - z.y0
    (List.range ((z.y1 - 1) / 256 - ya + 1).toNat).flatMap fun (k : Nat) =>
      let py := ya + k
      aaRowPlots t py (alpha * (min z.y1 (256 * py + 256) - max z.y0 (256 * py)) / 256)
        (z.xl0 * 256 + gl * off / 256 + k * gl) (z.xr0 * 256 + gr * off / 256 + k * gr)

/-- A trapezoid lies inside the tile's rectangle, bounds included (45_zoid_clip.md R137). -/
def ZoidInTile (t : Tile) (z : Zoid) : Prop :=
  (t.x * 256 ≤ z.xl0 ∧ z.xr0 ≤ (t.x + t.w) * 256) ∧ (t.x * 256 ≤ z.xl1 ∧ z.xr1 ≤ (t.x + t.w) * 256) ∧
  (t.y * 256 ≤ z.y0 ∧ z.y1 ≤ (t.y + t.h) * 256)

/-- A point lies inside the tile's rectangle, bounds included. -/
def PointInTile (t : Tile) (p : Point) : Prop :=
  (t.x * 256 ≤ p.x ∧ p.x ≤ (t.x + t.w) * 256) ∧ (t.y * 256 ≤ p.y ∧ p.y ≤ (t.y + t.h) * 256)

/-- The fault codes a command can raise: those of the table of 60_exceptions.md R152 less the codes 7 and 8,
and for TRI.FILL and TRI.FILLAA less 4, 5, 6, which that rule calls unreachable. -/
def mayRaise : Instr → List Nat
  | .cFromint | .cMul | .cRound => [3]
  | .cDiv => [2, 3]
  | .zClip => [4, 5, 6, 9]
  | .zFill | .zFillaa => [4, 5]
  | .triFill | .triFillaa => [9]
  | _ => []

/-- The pixel the latest write of a list of accesses (newest first) stored at an address. -/
def latestWrite : List PixAccess → PixAddr → Option Pixel
  | [], _ => none
  | .read _ _ :: xs, a => latestWrite xs a
  | .write b p :: xs, a => if b = a then some p else latestWrite xs a

/-- The accesses of one blended pixel of alpha `a` at an address that holds `d` (42_pixel_span.md R87). -/
def blendAccesses (ad : PixAddr) (d : Pixel) (c : Color) (a : Int) : List PixAccess :=
  if a = 0 then [] else if a = 255 then [.write ad (pack565 c)] else [.read ad d, .write ad (blend565 d c a)]

/-- What one blended pixel of alpha `a` leaves at an address that held `d` (42_pixel_span.md R87). -/
def blendResult (d : Pixel) (c : Color) (a : Int) : Pixel :=
  if a = 0 then d else if a = 255 then pack565 c else blend565 d c a

end Sys2Proof.Machine

open Sys2Proof Sys2Proof.Machine

/-! ### Encoding and the CMD register -/

/-- R55: the 27 words of the table decode to their commands. -/
def Obligations.TableWordsDecode : Prop :=
  decode 0x00000010 = .ok .cFromint ∧ decode 0x00000011 = .ok .cToint ∧ decode 0x00000012 = .ok .cMul ∧
  decode 0x00000013 = .ok .cDiv ∧ decode 0x00000014 = .ok .cFloor ∧ decode 0x00000015 = .ok .cFrac ∧
  decode 0x00000016 = .ok .cRfrac ∧ decode 0x00000017 = .ok .cRound ∧ decode 0x00000020 = .ok .kPack ∧
  decode 0x00000021 = .ok .kUnpack ∧ decode 0x00000022 = .ok .kBlend ∧ decode 0x00000030 = .ok .pixSet ∧
  decode 0x00000031 = .ok .pixSetu ∧ decode 0x00000032 = .ok .pixBlend ∧ decode 0x00000033 = .ok .pixBlendu ∧
  decode 0x00000034 = .ok .spanSet ∧ decode 0x00000035 = .ok .spanSetu ∧ decode 0x00000036 = .ok .spanBlend ∧
  decode 0x00000037 = .ok .spanBlendu ∧ decode 0x00000040 = .ok .line ∧ decode 0x00000041 = .ok .lineAa ∧
  decode 0x00000050 = .ok .triSetup ∧ decode 0x00000051 = .ok .zClip ∧ decode 0x00000052 = .ok .zFill ∧
  decode 0x00000053 = .ok .zFillaa ∧ decode 0x00000054 = .ok .triFill ∧ decode 0x00000055 = .ok .triFillaa

/-- For every word and every command: the word decodes to the command exactly when it is the command's word. -/
def Obligations.DecodeAndEncodeAgree : Prop :=
  ∀ (w : Word) (i : Instr), decode w = .ok i ↔ w = encode i

/-- R54: a CMD write of a command's word executes that command; a CMD write of any other word takes
F_ILLEGAL_CMD, FCODE 1 and FCMD the word, and changes nothing else. -/
def Obligations.UnlistedWordsTakeIllegalCommand : Prop :=
  ∀ (s : State) (w : Word) (rest : List HostEvent), s.port = .write .word 0x000 w :: rest → s.fault = false →
    (∀ i, w = encode i → step s = exec i { s with port := rest }) ∧
    ((∀ i, w ≠ encode i) → step s = .next { s with port := rest, fault := true, fcode := 1, fcmd := w })

/-- R24: a write of a word to CMD while STATUS.FAULT = 0 executes the command it decodes to, a write while
STATUS.FAULT = 1 changes nothing (but that the event is done), and a read of CMD returns 0. -/
def Obligations.StepRunsTheDecodedCommand : Prop :=
  ∀ (s : State) (rest : List HostEvent),
    (∀ w i, s.port = .write .word 0x000 w :: rest → s.fault = false → decode w = .ok i →
      step s = exec i { s with port := rest }) ∧
    (∀ w, s.port = .write .word 0x000 w :: rest → s.fault = true → step s = .next { s with port := rest }) ∧
    (s.port = .read .word 0x000 :: rest → step s = .next { s with port := rest, output := 0 :: s.output })

/-! ### Faults, the halted state, reset -/

/-- R159, and of R153 what the engine does: from the halted state a step makes no pixel access of the engine (an
access of another master, log 14, is none); the state stays halted with the
same FCODE and FCMD but for `rst` or a write to CTRL with bit 0 = 1, which clear STATUS, FCMD, ZN. -/
def Obligations.OnlyResetsLeaveTheHaltedState : Prop :=
  ∀ s t : State, s.fault = true → step s = .next t →
    t.trace = s.trace ∧
    (t.fault = true → t.fcode = s.fcode ∧ t.fcmd = s.fcmd) ∧
    (t.fault = false →
      (∃ rest, s.port = .rst :: rest ∨ (∃ w, s.port = .cmdRst w :: rest) ∨
        ∃ v : Word, v.getLsbD 0 = true ∧ s.port = .write .word 0x008 v :: rest) ∧
      t.fcode = 0 ∧ t.fcmd = 0 ∧ t.zn = 0)

/-- A step raises a fault only by a write to CMD; FCMD is then the word written and FCODE one of 1 to 9. -/
def Obligations.FaultsComeOnlyFromCommandWrites : Prop :=
  ∀ s t : State, s.fault = false → step s = .next t → t.fault = true →
    (∃ rest, s.port = .write .word 0x000 t.fcmd :: rest) ∧ 1 ≤ t.fcode.toNat ∧ t.fcode.toNat ≤ 9

/-- R155, R156: a command that faults has accessed no pixel, has written no operand register and not RES, has
FCMD = its word; the Z table and ZN are unchanged unless the fault was raised inside the clip passes
(FCODE 7, 8 or 9). -/
def Obligations.FaultsComeBeforePixels : Prop :=
  ∀ (i : Instr) (s t : State), s.fault = false → exec i s = .next t → t.fault = true →
    SamePixels s t ∧ SameOperands s t ∧ SameOutside s t ∧ t.res = s.res ∧ t.fcmd = encode i ∧
    (t.fcode.toNat < 7 → SameTable s t)

/-- R152 with R138, R142, R144: which codes each command can raise; F_CLIP_MASK and F_DEGENERATE_EDGE never,
and TRI.FILL, TRI.FILLAA never a check of the table. -/
def Obligations.CommandsRaiseOnlyTheirCauses : Prop :=
  ∀ (i : Instr) (s t : State), s.fault = false → exec i s = .next t → t.fault = true →
    t.fcode.toNat ∈ mayRaise i

/-- R172: a write to CTRL with bit 0 = 1 clears STATUS, FCMD and ZN and keeps everything else; a write
with bit 0 = 0 does nothing; a read of CTRL returns 0; in the halted state too. -/
def Obligations.ControlWriteSoftResets : Prop :=
  ∀ (s : State) (rest : List HostEvent),
    (∀ v : Word, s.port = .write .word 0x008 v :: rest →
      (v.getLsbD 0 = true →
        step s = .next { s with port := rest, fault := false, fcode := 0, fcmd := 0, zn := 0 }) ∧
      (v.getLsbD 0 = false → step s = .next { s with port := rest })) ∧
    (s.port = .read .word 0x008 :: rest → step s = .next { s with port := rest, output := 0 :: s.output })

/-- R171: hardware reset between commands leaves STATUS = 0, FCMD = 0, ZN = 0, `fault_o` = 0 and does not change
pixel memory; it makes no pixel access. -/
def Obligations.HardwareResetClearsStatus : Prop :=
  ∀ (s : State) (rest : List HostEvent), s.port = .rst :: rest →
    ∃ t, step s = .next t ∧ statusWord t = 0 ∧ t.fcmd = 0 ∧ t.zn = 0 ∧ faultO t = false ∧ SamePixels s t ∧
      t.port = rest ∧ t.output = s.output

/-- R173 as log 11 models it: `rst` during a command keeps the accesses the command had already performed (an
initial part of those it makes when it is not interrupted) with the pixels they wrote, makes no further one,
and clears STATUS, FCMD and ZN; every byte of memory outside the pixels already written is unchanged. -/
def Obligations.InterruptedCommandKeepsItsFirstWrites : Prop :=
  ∀ (s t : State) (w : Word) (rest : List HostEvent), s.port = .cmdRst w :: rest → step s = .next t →
    (t.fault = false ∧ t.fcode = 0 ∧ t.fcmd = 0 ∧ t.zn = 0) ∧
    ∃ u k done, issueCommand w { s with port := rest } = .next u ∧ t.trace = u.trace.drop k ∧
      t.trace = done ++ s.trace ∧
      (∀ a, readPixel t.mem a = (latestWrite done a).getD (readPixel s.mem a)) ∧
      SameMemoryOutside s t fun a => ∃ p, .write a p ∈ done

/-- R35: right after reset STATUS, FCMD and ZN read 0 (the model's start state). -/
def Obligations.ResetStateReadsZeroStatus : Prop :=
  readReg State.reset .status = 0 ∧ readReg State.reset .fcmd = 0 ∧ readReg State.reset .zn = 0 ∧
  halted State.reset = false ∧ faultO State.reset = false

/-- R25: STATUS reads FAULT in bit 0, FCODE in bits 15:8 and 0 in bits 7:1 and 31:16. -/
def Obligations.StatusLayout : Prop :=
  ∀ s : State, (readReg s .status).toNat = 256 * s.fcode.toNat + s.fault.toNat

/-- The invariant of the machine: whatever the next event is, a step keeps memory in canonical form and keeps
STATUS and FCMD consistent (without a fault FCODE = 0 and FCMD = 0; with one FCODE is 1 to 9). -/
def Obligations.EveryStepKeepsTheInvariant : Prop :=
  ∀ s t : State, MachineInv s → step s = .next t → MachineInv t

/-- The invariant holds right after reset. -/
def Obligations.ResetHasTheInvariant : Prop := MachineInv State.reset

/-! ### The register port -/

/-- R23: the registers stand at the offsets of the table; a write keeps the bits the register stores, which is
what a later read returns (TILE_X, TILE_Y sign-extended), and leaves what every other register reads, pixel
memory and the engine's accesses alone; STATUS, FCMD and RES ignore writes; CMD and CTRL read 0. -/
def Obligations.RegisterPortFollowsTheMap : Prop :=
  (∀ e ∈ portMap, regAt e.1 = some e.2) ∧
  (∀ i : Fin 5,
    regAt (0x0A0 + 0x20 * i.val + 0x00) = some (.z i .xl0) ∧ regAt (0x0A0 + 0x20 * i.val + 0x04) = some (.z i .xr0) ∧
    regAt (0x0A0 + 0x20 * i.val + 0x08) = some (.z i .y0) ∧ regAt (0x0A0 + 0x20 * i.val + 0x0C) = some (.z i .xl1) ∧
    regAt (0x0A0 + 0x20 * i.val + 0x10) = some (.z i .xr1) ∧ regAt (0x0A0 + 0x20 * i.val + 0x14) = some (.z i .y1)) ∧
  (∀ (s : State) (r : Reg) (v : Word) (rest : List HostEvent), s.port = .write .word (regOffset r) v :: rest →
    (r ≠ .cmd ∧ r ≠ .ctrl ∧ r ≠ .status ∧ r ≠ .fcmd ∧ r ≠ .res →
      ∃ t, step s = .next t ∧ readReg t r = readBack r v ∧ SamePixels s t ∧
        ∀ r', r' ≠ r → readReg t r' = readReg s r') ∧
    (r = .status ∨ r = .fcmd ∨ r = .res → step s = .next { s with port := rest })) ∧
  (∀ s : State, readReg s .cmd = 0 ∧ readReg s .ctrl = 0) ∧
  (∀ (s : State) (r : Reg) (rest : List HostEvent), s.port = .read .word (regOffset r) :: rest →
    step s = .next { s with port := rest, output := readReg s r :: s.output })

/-- Every register has one offset and every listed offset one register. -/
def Obligations.RegisterMapIsOneToOne : Prop :=
  ∀ (off : Nat) (r : Reg), regAt off = some r ↔ off = regOffset r

/-- R33: an aligned offset below 0x400 that no register has reads 0 and ignores writes, with no fault; no
register stands at or above 0x400. -/
def Obligations.UndefinedOffsetsReadZero : Prop :=
  (∀ r, regOffset r < 0x400) ∧
  ∀ (s : State) (off : Nat) (rest : List HostEvent), off % 4 = 0 → off < 0x400 → (∀ r, regOffset r ≠ off) →
    (s.port = .read .word off :: rest → step s = .next { s with port := rest, output := 0 :: s.output }) ∧
    (∀ v, s.port = .write .word off v :: rest → step s = .next { s with port := rest })

/-- R34: a byte or halfword access, and a misaligned word access, is refused, for reads and for writes. -/
def Obligations.PortRefusesOtherThanAlignedWords : Prop :=
  ∀ (s : State) (size : AccessSize) (off : Nat) (v : Word) (rest : List HostEvent),
    s.port = .read size off :: rest ∨ s.port = .write size off v :: rest →
      (size ≠ .word → step s = .refused .portAccessSize) ∧
      (size = .word → off % 4 ≠ 0 → step s = .refused .portMisaligned)

/-- The model's choice of log 10: an aligned word access at offset 0x400 or above, which R33 puts outside the
block, stops with the model's fault. -/
def Obligations.AccessOutsideTheBlockStops : Prop :=
  ∀ (s : State) (off : Nat) (v : Word) (rest : List HostEvent), off % 4 = 0 → 0x400 ≤ off →
    s.port = .read .word off :: rest ∨ s.port = .write .word off v :: rest → step s = .fault .outsideBlock

/-- R48 as log 14 models it: a pixel that the outside writes between commands is what the outside reads there
afterwards; neither is an access of the engine. -/
def Obligations.OutsidePixelWriteIsReadBack : Prop :=
  ∀ (s : State) (a : PixAddr) (p : Pixel) (rest : List HostEvent),
    s.port = .pixWrite a p :: .pixRead a :: rest →
    ∃ t u, step s = .next t ∧ step t = .next u ∧ u.output = p.setWidth 32 :: s.output ∧ u.trace = s.trace ∧
      u.port = rest ∧ SameMemoryOutside s u fun b => b = a

/-! ### Whole-machine rules over all commands -/

/-- R38, R22, R28, R29: no command writes the tile, geometry, colour or ALU operand registers. R177 with R97: every
command has a next state, but an unclipped one may be refused, as log 9 says. -/
def Obligations.CommandsNeverWriteOperands : Prop :=
  ∀ (i : Instr) (s : State),
    (∀ t, exec i s = .next t → SameOperands s t ∧ SameOutside s t) ∧
    ((∃ t, exec i s = .next t) ∨
      ((i = .pixSetu ∨ i = .pixBlendu ∨ i = .spanSetu ∨ i = .spanBlendu) ∧
        exec i s = .refused .unclippedOutOfBounds))

/-- R43: whatever the command, every pixel access it makes is in the tile's footprint, and every byte of memory
outside the footprint is unchanged. -/
def Obligations.AccessesStayInTheFootprint : Prop :=
  ∀ (i : Instr) (s t : State), exec i s = .next t →
    (∃ new, t.trace = new ++ s.trace ∧ ∀ x ∈ new, InFootprint (tileOf s) (accessAddr x)) ∧
    SameMemoryOutside s t (InFootprint (tileOf s))

/-- R46: a command's accesses are single writes and reads each followed at once by a write of the same pixel;
R40: C.*, K.*, TRI.SETUP and Z.CLIP make none; and the set-type commands never read. -/
def Obligations.ReadsAreFollowedByWrites : Prop :=
  ∀ (i : Instr) (s t : State), exec i s = .next t →
    ∃ blocks : List (List PixAccess), t.trace = blocks.flatten.reverse ++ s.trace ∧
      (∀ b ∈ blocks, (∃ a p, b = [.write a p]) ∨ ∃ a d p, b = [.read a d, .write a p]) ∧
      (i ∈ [Instr.cFromint, .cToint, .cMul, .cDiv, .cFloor, .cFrac, .cRfrac, .cRound, .kPack, .kUnpack, .kBlend,
        .triSetup, .zClip] → blocks = []) ∧
      (i ∈ [Instr.pixSet, .pixSetu, .spanSet, .spanSetu, .line, .zFill, .triFill] →
        ∀ b ∈ blocks, ∃ a p, b = [.write a p])

/-- R176: repeating a set-type command on the memory it left changes no pixel the second time. -/
def Obligations.RepeatedSetCommandChangesNothing : Prop :=
  ∀ (i : Instr) (s t : State),
    i ∈ [Instr.pixSet, .pixSetu, .spanSet, .spanSetu, .line, .zFill, .triFill] → exec i s = .next t →
    ∃ u, exec i t = .next u ∧ ∀ a, readPixel u.mem a = readPixel t.mem a

/-! ### The coordinate ALU -/

/-- R61: C.FROMINT, word 0x10, multiplies CA by 256 when the product fits, and else takes F_RANGE, RES unchanged. -/
def Obligations.FromintScalesOrFaults : Prop :=
  decode 0x00000010 = .ok .cFromint ∧ ∀ s : State,
    (-8388608 ≤ s.ca.toInt ∧ s.ca.toInt ≤ 8388607 →
      ∃ t, exec .cFromint s = .next t ∧ t.res.toInt = s.ca.toInt * 256 ∧ OnlyRes s t) ∧
    (s.ca.toInt < -8388608 ∨ 8388607 < s.ca.toInt →
      exec .cFromint s = .next { s with fault := true, fcode := 3, fcmd := 0x00000010 })

/-- R62: C.TOINT, word 0x11, divides CA by 256, truncating toward zero, and never faults. -/
def Obligations.TointTruncates : Prop :=
  decode 0x00000011 = .ok .cToint ∧ ∀ s : State, ∃ t, exec .cToint s = .next t ∧ t.res.toInt = Int.tdiv s.ca.toInt 256 ∧ OnlyRes s t

/-- R63: C.MUL, word 0x12, gives the exact product divided by 256 rounded toward minus infinity when it fits in 32 bits, and
else takes F_RANGE, RES unchanged. -/
def Obligations.MulRescalesOrFaults : Prop :=
  decode 0x00000012 = .ok .cMul ∧ ∀ s : State,
    let r := s.ca.toInt * s.cb.toInt / 256
    (-2147483648 ≤ r ∧ r ≤ 2147483647 →
      ∃ t, exec .cMul s = .next t ∧ t.res.toInt = r ∧ OnlyRes s t) ∧
    (r < -2147483648 ∨ 2147483647 < r →
      exec .cMul s = .next { s with fault := true, fcode := 3, fcmd := 0x00000012 })

/-- R64: C.DIV, word 0x13, takes F_DIV_ZERO for a zero divisor, first; else it gives the quotient of CA * 256 by CB truncated
toward zero when it fits, and else takes F_RANGE; RES unchanged by both faults. -/
def Obligations.DivChecksZeroThenRange : Prop :=
  decode 0x00000013 = .ok .cDiv ∧ ∀ s : State,
    let r := Int.tdiv (s.ca.toInt * 256) s.cb.toInt
    (s.cb = 0 → exec .cDiv s = .next { s with fault := true, fcode := 2, fcmd := 0x00000013 }) ∧
    (s.cb ≠ 0 → -2147483648 ≤ r ∧ r ≤ 2147483647 →
      ∃ t, exec .cDiv s = .next t ∧ t.res.toInt = r ∧ OnlyRes s t) ∧
    (s.cb ≠ 0 → r < -2147483648 ∨ 2147483647 < r →
      exec .cDiv s = .next { s with fault := true, fcode := 3, fcmd := 0x00000013 })

/-- R65, R66, R67: on the signed value of CA, C.FLOOR (word 0x14) gives 256 * floor(a / 256), C.FRAC (0x15) gives
a mod 256 in 0..255, C.RFRAC (0x16) gives 256 less that; so floor + frac = a; none faults. -/
def Obligations.FloorFracRfracSplitACoordinate : Prop :=
  decode 0x00000014 = .ok .cFloor ∧ decode 0x00000015 = .ok .cFrac ∧ decode 0x00000016 = .ok .cRfrac ∧
  ∀ s : State, ∃ f g h, exec .cFloor s = .next f ∧ exec .cFrac s = .next g ∧ exec .cRfrac s = .next h ∧
    f.res.toInt = 256 * (s.ca.toInt / 256) ∧ g.res.toInt = s.ca.toInt % 256 ∧
    h.res.toInt = 256 - s.ca.toInt % 256 ∧ f.res.toInt + g.res.toInt = s.ca.toInt ∧
    OnlyRes s f ∧ OnlyRes s g ∧ OnlyRes s h

/-- R68: C.ROUND, word 0x17, gives 256 * floor((a + 128) / 256), and takes F_RANGE when a > 0x7FFFFF7F, RES unchanged. -/
def Obligations.RoundTiesUpOrFaults : Prop :=
  decode 0x00000017 = .ok .cRound ∧ ∀ s : State,
    (s.ca.toInt ≤ 0x7FFFFF7F →
      ∃ t, exec .cRound s = .next t ∧ t.res.toInt = 256 * ((s.ca.toInt + 128) / 256) ∧ OnlyRes s t) ∧
    (0x7FFFFF7F < s.ca.toInt →
      exec .cRound s = .next { s with fault := true, fcode := 3, fcmd := 0x00000017 })

/-! ### Colour -/

/-- R80 with R77: K.PACK, word 0x20, gives (R >> 3) << 11 | (G >> 2) << 5 | (B >> 3) of COLOR. -/
def Obligations.PackTruncatesChannels : Prop :=
  decode 0x00000020 = .ok .kPack ∧ ∀ s : State, ∃ t, exec .kPack s = .next t ∧
    (t.res.toNat : Int) = packed (redOf s.color) (greenOf s.color) (blueOf s.color) ∧ OnlyRes s t

/-- R81 with R78: K.UNPACK, word 0x21, gives the three channels of DPIX widened by bit replication. -/
def Obligations.UnpackReplicatesBits : Prop :=
  decode 0x00000021 = .ok .kUnpack ∧ ∀ s : State, ∃ t, exec .kUnpack s = .next t ∧
    (t.res.toNat : Int) = wideRed s.dpix * 65536 + wideGreen s.dpix * 256 + wideBlue s.dpix ∧ OnlyRes s t

/-- R82: K.BLEND, word 0x22, mixes each channel of COLOR over the widened channel of DPIX with ALPHA, the signed
quotient truncated toward zero, and repacks. -/
def Obligations.BlendMixesChannels : Prop :=
  decode 0x00000022 = .ok .kBlend ∧ ∀ s : State, ∃ t, exec .kBlend s = .next t ∧
    (t.res.toNat : Int) =
      packed (mixed (wideRed s.dpix) (redOf s.color) s.alpha.toNat)
        (mixed (wideGreen s.dpix) (greenOf s.color) s.alpha.toNat)
        (mixed (wideBlue s.dpix) (blueOf s.color) s.alpha.toNat) ∧
    OnlyRes s t

/-- The laws (a) to (d) of R83: packing undoes unpacking; alpha 0 keeps the pixel; alpha 255 overwrites; the
round trip errs by at most 7 in red and blue and 3 in green, and these bounds are reached. -/
def Obligations.ColourLaws : Prop :=
  (∀ p : Pixel, pack565 (unpack888 p) = p) ∧
  (∀ (d : Pixel) (c : Color), blend565 d c 0 = d) ∧
  (∀ (d : Pixel) (c : Color), blend565 d c 255 = pack565 c) ∧
  (∀ c : Color, (wideRed (pack565 c) - redOf c).natAbs ≤ 7 ∧ (wideGreen (pack565 c) - greenOf c).natAbs ≤ 3 ∧
    (wideBlue (pack565 c) - blueOf c).natAbs ≤ 7) ∧
  (∃ c : Color, wideRed (pack565 c) - redOf c = -7 ∧ wideGreen (pack565 c) - greenOf c = -3 ∧
    wideBlue (pack565 c) - blueOf c = -7) ∧
  (∃ c : Color, wideRed (pack565 c) - redOf c = 7 ∧ wideBlue (pack565 c) - blueOf c = 7)

/-! ### Pixels and spans -/

/-- R89: PIX.SET, word 0x30, stores pack565(COLOR) at (X0, Y0) with one write and no read when the pixel is in the
tile, and does nothing at all when it is not. -/
def Obligations.PixSetStoresOnePixel : Prop :=
  decode 0x00000030 = .ok .pixSet ∧ ∀ s : State,
    (inside (tileOf s) s.x0.toInt s.y0.toInt = true →
      ∃ t, exec .pixSet s = .next t ∧ Stores s t (pack565 s.color) [⟨s.x0.toInt, s.y0.toInt⟩]) ∧
    (inside (tileOf s) s.x0.toInt s.y0.toInt = false → exec .pixSet s = .next s)

/-- R91: PIX.BLEND, word 0x32, does nothing outside the tile or for ALPHA = 0; for ALPHA = 255 it stores
pack565(COLOR) without reading; else it reads the pixel and then writes the blend; nothing else changes. -/
def Obligations.PixBlendReadsThenWrites : Prop :=
  decode 0x00000032 = .ok .pixBlend ∧ ∀ s : State,
    let a : PixAddr := pixAddr (tileOf s) s.x0.toInt s.y0.toInt
    let d := readPixel s.mem a
    (inside (tileOf s) s.x0.toInt s.y0.toInt = false ∨ s.alpha = 0 → exec .pixBlend s = .next s) ∧
    (inside (tileOf s) s.x0.toInt s.y0.toInt = true → s.alpha = 255 →
      ∃ t, exec .pixBlend s = .next t ∧ Stores s t (pack565 s.color) [⟨s.x0.toInt, s.y0.toInt⟩]) ∧
    (inside (tileOf s) s.x0.toInt s.y0.toInt = true → s.alpha ≠ 0 → s.alpha ≠ 255 →
      ∃ t, exec .pixBlend s = .next t ∧ OnlyPixels s t ∧
        t.trace = .write a (blend565 d s.color s.alpha.toNat) :: .read a d :: s.trace ∧
        readPixel t.mem a = blend565 d s.color s.alpha.toNat ∧ SameMemoryOutside s t fun b => b = a)

/-- R97: an unclipped command whose pixels are all inside the tile does exactly what its clipped twin does (a run
with X0 > X1 names no pixel); one that names a pixel outside is refused, for every alpha. -/
def Obligations.UnclippedCommandsMatchTheirTwins : Prop :=
  ∀ s : State,
    let t := tileOf s
    (inside t s.x0.toInt s.y0.toInt = true →
      (∃ u, exec .pixSetu s = .next u ∧ exec .pixSet s = .next u) ∧
      (∃ u, exec .pixBlendu s = .next u ∧ exec .pixBlend s = .next u)) ∧
    (inside t s.x0.toInt s.y0.toInt = false →
      exec .pixSetu s = .refused .unclippedOutOfBounds ∧ exec .pixBlendu s = .refused .unclippedOutOfBounds) ∧
    ((∀ x, s.x0.toInt ≤ x → x ≤ s.x1.toInt → inside t x s.y0.toInt = true) →
      (∃ u, exec .spanSetu s = .next u ∧ exec .spanSet s = .next u) ∧
      (∃ u, exec .spanBlendu s = .next u ∧ exec .spanBlend s = .next u)) ∧
    ((∃ x, s.x0.toInt ≤ x ∧ x ≤ s.x1.toInt ∧ inside t x s.y0.toInt = false) →
      exec .spanSetu s = .refused .unclippedOutOfBounds ∧ exec .spanBlendu s = .refused .unclippedOutOfBounds)

/-- R93: SPAN.SET, word 0x34, stores pack565(COLOR) at the pixels of [X0, X1] on row Y0 that are in the tile, in
increasing x; an empty run and a row outside the tile store nothing. -/
def Obligations.SpanSetStoresTheRun : Prop :=
  decode 0x00000034 = .ok .spanSet ∧ ∀ s : State, ∃ t, exec .spanSet s = .next t ∧
    Stores s t (pack565 s.color) (rowPoints s.x0.toInt s.x1.toInt s.y0.toInt)

/-- R95: SPAN.BLEND, word 0x36, blends each pixel of [X0, X1] on row Y0 that is in the tile once, in increasing
x, each with the value it held before the command; every byte outside these pixels is unchanged. -/
def Obligations.SpanBlendBlendsTheRun : Prop :=
  decode 0x00000036 = .ok .spanBlend ∧ ∀ s : State,
    let run := (rowPoints s.x0.toInt s.x1.toInt s.y0.toInt).filter fun r => inside (tileOf s) r.x r.y
    let ad : Point → PixAddr := fun r => pixAddr (tileOf s) r.x r.y
    ∃ t, exec .spanBlend s = .next t ∧ OnlyPixels s t ∧
      t.trace =
        (run.flatMap fun r => blendAccesses (ad r) (readPixel s.mem (ad r)) s.color s.alpha.toNat).reverse
          ++ s.trace ∧
      (∀ r ∈ run, readPixel t.mem (ad r) = blendResult (readPixel s.mem (ad r)) s.color s.alpha.toNat) ∧
      SameMemoryOutside s t fun a => ∃ r ∈ run, ad r = a

/-! ### Lines -/

/-- R101, R102: a horizontal line, a point among them, stores the run between the rounded ends in increasing x;
a vertical one that is no point stores the run between the rounded ends in increasing y. -/
def Obligations.AxisParallelLinesStoreRuns : Prop :=
  ∀ s : State,
    let p := point0 s
    let q := point1 s
    (p.y = q.y → ∃ t, exec .line s = .next t ∧
      Stores s t (pack565 s.color)
        (rowPoints ((min p.x q.x + 128) / 256) ((max p.x q.x + 128) / 256) ((p.y + 128) / 256))) ∧
    (p.y ≠ q.y → p.x = q.x → ∃ t, exec .line s = .next t ∧
      Stores s t (pack565 s.color)
        ((intRange ((min p.y q.y + 128) / 256) ((max p.y q.y + 128) / 256)).map fun y =>
          ⟨(p.x + 128) / 256, y⟩))

/-- R103 to R106: a slanted line stores, at every major index between the rounded ends in increasing order, the
pixel of the closed form of R106 when it is in the tile, and nothing else. -/
def Obligations.SlantedLineStoresNearestPixels : Prop :=
  ∀ s : State, (point0 s).y ≠ (point1 s).y → (point0 s).x ≠ (point1 s).x →
    ∃ t, exec .line s = .next t ∧
      Stores s t (pack565 s.color) (nearestPixels (axisLine (point0 s) (point1 s)))

/-- R106: the stepper of R104 and R105 visits exactly the pixels of the closed form, in the same order, for every
pair of end points that differ in both coordinates. -/
def Obligations.StepperIsItsClosedForm : Prop :=
  ∀ p q : Point, p.x ≠ q.x → p.y ≠ q.y → slantedPixels (axisLine p q) = nearestPixels (axisLine p q)

/-- R107 (its sentence on the order of the end points), R113: with the two end points exchanged LINE and LINE.AA
make the same accesses in the same order and leave the same memory. -/
def Obligations.LinesIgnoreEndPointOrder : Prop :=
  ∀ s : State,
    let s' := { s with x0 := s.x1, y0 := s.y1, x1 := s.x0, y1 := s.y0 }
    (∃ t t', exec .line s = .next t ∧ exec .line s' = .next t' ∧ t'.mem = t.mem ∧ t'.trace = t.trace) ∧
    (∃ t t', exec .lineAa s = .next t ∧ exec .lineAa s' = .next t' ∧ t'.mem = t.mem ∧ t'.trace = t.trace)

/-- R109 to R113: LINE.AA of a point does nothing; else it blends the plots of the first end point, of the second
and of the columns between, each column's accumulator being y of the first column plus a multiple of G; ALPHA
is not read; every byte outside the plotted pixels is unchanged. -/
def Obligations.AntialiasedLinePlotsCoverage : Prop :=
  ∀ s : State,
    (point0 s = point1 s → exec .lineAa s = .next s) ∧
    (point0 s ≠ point1 s →
      ∃ t, exec .lineAa s = .next t ∧ Blends s t s.color (aaLinePlots (axisLine (point0 s) (point1 s))))

/-- R114, R111: the two coverages of a main-loop column are in 0..255 and sum to 255; the two weights of an end
point with x gap 0..256 are in 0..255 and sum to 255 * gap / 256 rounded down, or 1 less. -/
def Obligations.CoverageIsConserved : Prop :=
  ∀ (steep : Bool) (column acc gap : Int), 0 ≤ gap → gap ≤ 256 →
    (∃ a b : Plot, columnPlots steep column acc = [a, b] ∧ a.a + b.a = 255 ∧ 0 ≤ a.a ∧ 0 ≤ b.a) ∧
    (∃ a b : Plot, endPlots steep column acc gap = [a, b] ∧
      255 * gap / 256 - 1 ≤ a.a + b.a ∧ a.a + b.a ≤ 255 * gap / 256 ∧
      0 ≤ a.a ∧ a.a ≤ 255 ∧ 0 ≤ b.a ∧ b.a ≤ 255)

/-! ### Triangles and trapezoids -/

/-- R117, R118, and R116, R129 (a) for the order: in whatever order the three vertices stand in the registers,
TRI.SETUP leaves in the table the pieces of the triangle sorted by y, and changes the table only. -/
def Obligations.TriangleSetupStoresThePieces : Prop :=
  ∀ (s : State) (a b c : Point), [a, b, c].Perm [point0 s, point1 s, point2 s] → a.y ≤ b.y → b.y ≤ c.y →
    ∃ t, exec .triSetup s = .next t ∧ OnlyTable s t ∧ zoidsOf t = piecesOf a b c ∧
      t.zn.toNat = (piecesOf a b c).length

/-- R118: the table TRI.SETUP leaves has at most two entries, each valid and of positive height, and is
contiguous. -/
def Obligations.TriangleSetupTableIsValid : Prop :=
  ∀ s : State, ∃ t, exec .triSetup s = .next t ∧ t.zn.toNat ≤ 2 ∧ contiguous (zoidsOf t) = true ∧
    ∀ z ∈ zoidsOf t, zoidValid z = true ∧ z.y0 < z.y1

/-- R129 (c): for three colinear vertices TRI.SETUP leaves an empty table, and TRI.FILL and TRI.FILLAA access no
pixel, raise no fault and leave an empty table. -/
def Obligations.ColinearTrianglesDrawNothing : Prop :=
  ∀ s : State,
    let a := point0 s
    let b := point1 s
    let c := point2 s
    (b.x - a.x) * (c.y - a.y) = (c.x - a.x) * (b.y - a.y) →
    ∃ t u v, exec .triSetup s = .next t ∧ t.zn = 0 ∧ OnlyTable s t ∧
      exec .triFill s = .next u ∧ u.zn = 0 ∧ OnlyTable s u ∧
      exec .triFillaa s = .next v ∧ v.zn = 0 ∧ OnlyTable s v

/-- R120, R136: Z.CLIP, Z.FILL and Z.FILLAA take F_ZOID_COUNT when ZN > 5; else F_ZOID_INVALID when an entry
below ZN is not valid; Z.CLIP alone then F_ZOID_SEQ when the table is not contiguous; nothing else changes. -/
def Obligations.TableChecksComeInOrder : Prop :=
  ∀ s : State,
    (5 < s.zn.toNat →
      exec .zClip s = .next { s with fault := true, fcode := 4, fcmd := 0x00000051 } ∧
      exec .zFill s = .next { s with fault := true, fcode := 4, fcmd := 0x00000052 } ∧
      exec .zFillaa s = .next { s with fault := true, fcode := 4, fcmd := 0x00000053 }) ∧
    (s.zn.toNat ≤ 5 → (∃ z ∈ zoidsOf s, ¬(z.y0 ≤ z.y1 ∧ z.xl0 ≤ z.xr0 ∧ z.xl1 ≤ z.xr1)) →
      exec .zClip s = .next { s with fault := true, fcode := 5, fcmd := 0x00000051 } ∧
      exec .zFill s = .next { s with fault := true, fcode := 5, fcmd := 0x00000052 } ∧
      exec .zFillaa s = .next { s with fault := true, fcode := 5, fcmd := 0x00000053 }) ∧
    (s.zn.toNat ≤ 5 → (∀ z ∈ zoidsOf s, z.y0 ≤ z.y1 ∧ z.xl0 ≤ z.xr0 ∧ z.xl1 ≤ z.xr1) →
      (∃ i a b, (zoidsOf s)[i]? = some a ∧ (zoidsOf s)[i + 1]? = some b ∧ a.y1 ≠ b.y0) →
      exec .zClip s = .next { s with fault := true, fcode := 6, fcmd := 0x00000051 })

/-- R121: on a table that passes the check Z.FILL stores pack565(COLOR), entry by entry in table order, rows
in increasing y and pixels in increasing x, at the pixels in the tile whose sample point lies in the half-open
region of the entry; the table is not changed. -/
def Obligations.HardFillStoresSampledPixels : Prop :=
  ∀ s : State, s.zn.toNat ≤ 5 → (∀ z ∈ zoidsOf s, zoidValid z = true) →
    ∃ t, exec .zFill s = .next t ∧ Stores s t (pack565 s.color) ((zoidsOf s).flatMap hardPoints) ∧
      ∀ r, r ∈ (zoidsOf s).flatMap hardPoints ↔ ∃ z ∈ zoidsOf s, Sampled z r

/-- R123, R124: on a table that passes the check Z.FILLAA blends, entry by entry in table order, the plots
of every row touched, the edges of the k-th row being those of the first row plus k times the step; the table is
not changed; every byte outside the plotted pixels is unchanged. -/
def Obligations.AntialiasedFillPlotsRows : Prop :=
  ∀ s : State, s.zn.toNat ≤ 5 → (∀ z ∈ zoidsOf s, zoidValid z = true) →
    ∃ t, exec .zFillaa s = .next t ∧
      Blends s t s.color ((zoidsOf s).flatMap (aaZoidPlots (tileOf s) s.alpha.toNat))

/-- R125, R111: every alpha that LINE.AA, and Z.FILLAA on a table that passes the check, hand to a blend is in
0..255. -/
def Obligations.BlendAlphasAreBytes : Prop :=
  (∀ p q : Point, ∀ r ∈ lineAaPlots p q, 0 ≤ r.a ∧ r.a ≤ 255) ∧
  (∀ s : State, (∀ z ∈ zoidsOf s, zoidValid z = true) →
    ∀ o ∈ (zoidsOf s).flatMap (aaFillOps (tileOf s) s.color (alphaOf s)),
      ∃ x y a, o = .blend x y s.color a ∧ 0 ≤ a ∧ a ≤ 255)

/-- R129 (e): on entries with whole-pixel coordinates and vertical edges, Z.FILLAA with ALPHA = 255 does exactly
what Z.FILL does: the same writes in the same order and no read. -/
def Obligations.WholePixelFillsAgree : Prop :=
  ∀ s : State, s.zn.toNat ≤ 5 → (∀ z ∈ zoidsOf s, zoidValid z = true) → s.alpha = 255 →
    (∀ z ∈ zoidsOf s, z.xl0 = z.xl1 ∧ z.xr0 = z.xr1 ∧ z.xl0 % 256 = 0 ∧ z.xr0 % 256 = 0 ∧ z.y0 % 256 = 0 ∧
      z.y1 % 256 = 0) →
    ∃ t, exec .zFill s = .next t ∧ exec .zFillaa s = .next t

/-- R148: after Z.CLIP without a fault ZN is at most 5 and every entry is valid, of positive height and inside the
tile's rectangle; only the table has changed. -/
def Obligations.ClippedTableLiesInTheTile : Prop :=
  ∀ s t : State, s.fault = false → exec .zClip s = .next t → t.fault = false →
    t.zn.toNat ≤ 5 ∧ OnlyTable s t ∧
    ∀ z ∈ zoidsOf t, zoidValid z = true ∧ z.y0 < z.y1 ∧ ZoidInTile (tileOf s) z

/-- R139, R140, R149: Z.CLIP changes nothing at all on a valid contiguous table of entries of positive height inside
the tile's rectangle (bounds included); of one that crosses the top or bottom bound only it keeps, in order, the
entries with rows in the tile, the one that crosses a bound cut there; and of every table that it clips without a
fault it keeps, in some order, the parts of every entry inside the rectangle, and no other entry. -/
def Obligations.ClipKeepsWhatLiesInside : Prop :=
  (∀ s : State, s.zn.toNat ≤ 5 → contiguous (zoidsOf s) = true →
    (∀ z ∈ zoidsOf s, zoidValid z = true ∧ z.y0 < z.y1) →
    let r := clipRect (tileOf s)
    ((∀ z ∈ zoidsOf s, ZoidInTile (tileOf s) z) → exec .zClip s = .next s) ∧
    ((∀ z ∈ zoidsOf s, (r.xmin ≤ z.xl0 ∧ z.xr0 ≤ r.xmax) ∧ r.xmin ≤ z.xl1 ∧ z.xr1 ≤ r.xmax) →
      ∃ t, exec .zClip s = .next t ∧ OnlyTable s t ∧ zoidsOf t = rowsKept r.ymin r.ymax (zoidsOf s))) ∧
  (∀ s t : State, s.fault = false → exec .zClip s = .next t → t.fault = false →
    (zoidsOf t).Perm (partsInside (clipRect (tileOf s)) (zoidsOf s)))

/-- R143, R145 on a table of one entry between the top and bottom bound of the tile: where it crosses the left
bound only, Z.CLIP leaves what the case of R143 for its mask constructs (0, 1, 3, 4, 5, 7, 12, 13 or 15), and
where it crosses the right bound only, what the case of R145 constructs (0, 2, 3, 8, 10, 11, 12, 14 or 15), from
top to bottom, a piece without height left out. -/
def Obligations.ClipCutsOneEntryAtASide : Prop :=
  ∀ (s : State) (z : Zoid), zoidsOf s = [z] → zoidValid z = true → z.y0 < z.y1 →
    let r := clipRect (tileOf s)
    r.ymin ≤ z.y0 → z.y1 ≤ r.ymax →
    (z.xr0 ≤ r.xmax → z.xr1 ≤ r.xmax →
      ∃ t, exec .zClip s = .next t ∧ OnlyTable s t ∧ zoidsOf t = withHeight (leftCut r.xmin z)) ∧
    (r.xmin ≤ z.xl0 → r.xmin ≤ z.xl1 →
      ∃ t, exec .zClip s = .next t ∧ OnlyTable s t ∧ zoidsOf t = withHeight (rightCut r.xmax z))

/-- R146, R149: Z.CLIP of a table of at most one entry, valid, never faults, wherever the entry lies: it always
completes and changes the table only. -/
def Obligations.ClipOfOneEntryCompletes : Prop :=
  ∀ s : State, s.zn.toNat ≤ 1 → (∀ z ∈ zoidsOf s, zoidValid z = true) →
    ∃ t, exec .zClip s = .next t ∧ OnlyTable s t

/-- R127, R128: TRI.FILL is TRI.SETUP, Z.CLIP and Z.FILL, and TRI.FILLAA is TRI.SETUP, Z.CLIP and Z.FILLAA, as one
command; a fault of the clip would be reported with the whole command's word; the fill never faults. -/
def Obligations.WholeCallsComposeTheirSteps : Prop :=
  ∀ s : State, s.fault = false →
    ∃ t1 t2, exec .triSetup s = .next t1 ∧ exec .zClip t1 = .next t2 ∧
      exec .triFill s = (if t2.fault = true then .next { t2 with fcmd := 0x00000054 } else exec .zFill t2) ∧
      exec .triFillaa s = (if t2.fault = true then .next { t2 with fcmd := 0x00000055 } else exec .zFillaa t2) ∧
      (t2.fault = false →
        (∃ t, exec .zFill t2 = .next t ∧ t.fault = false) ∧ (∃ t, exec .zFillaa t2 = .next t ∧ t.fault = false))

/-- R127, R128 on a triangle whose vertices lie inside the tile's rectangle: TRI.FILL stores pack565(COLOR) at the
sampled pixels of the pieces that are in the tile, TRI.FILLAA blends their rows; both complete without a fault
and leave the pieces in the table. -/
def Obligations.TrianglesInsideTheTileAreFilled : Prop :=
  ∀ (s : State) (a b c : Point), [a, b, c].Perm [point0 s, point1 s, point2 s] → a.y ≤ b.y → b.y ≤ c.y →
    PointInTile (tileOf s) a → PointInTile (tileOf s) b → PointInTile (tileOf s) c →
    ∃ t1 t u, exec .triSetup s = .next t1 ∧ zoidsOf t1 = piecesOf a b c ∧ OnlyTable s t1 ∧
      exec .triFill s = .next t ∧ Stores t1 t (pack565 s.color) ((piecesOf a b c).flatMap hardPoints) ∧
      exec .triFillaa s = .next u ∧
      Blends t1 u s.color ((piecesOf a b c).flatMap (aaZoidPlots (tileOf s) s.alpha.toNat))
end

