-- ==== Sys2Proof/Machine/Assembler.lean ====
section
/-! DEFINITION. The spec's notation for host programs, as lists of events (30_encoding.md R59, R60). -/

namespace Sys2Proof.Machine

/-- `wr REG, value` (R59). -/
def asmWr (r : Reg) (v : Int) : HostEvent := .write .word (regOffset r) (BitVec.ofInt 32 v)

/-- `rd REG` (R59). -/
def asmRd (r : Reg) : HostEvent := .read .word (regOffset r)

/-- `cmd MNEMONIC` (R59). -/
def asmCmd (i : Instr) : HostEvent := .write .word (regOffset .cmd) (encode i)

/-- `tile base, x, y, w, h, stride` (R60). -/
def asmTile (base x y w h stride : Int) : List HostEvent :=
  [asmWr .tileBase base, asmWr .tileX x, asmWr .tileY y, asmWr .tileW w, asmWr .tileH h,
   asmWr .tileStride stride]

/-- `p0 x, y` (R60). -/
def asmP0 (x y : Int) : List HostEvent := [asmWr .x0 x, asmWr .y0 y]

/-- `p1 x, y` (R60). -/
def asmP1 (x y : Int) : List HostEvent := [asmWr .x1 x, asmWr .y1 y]

/-- `p2 x, y` (R60). -/
def asmP2 (x y : Int) : List HostEvent := [asmWr .x2 x, asmWr .y2 y]

/-- `color c` (R60). -/
def asmColor (c : Int) : List HostEvent := [asmWr .color c]

/-- `alpha a` (R60). -/
def asmAlpha (a : Int) : List HostEvent := [asmWr .alpha a]

/-- `zoid i, xl0, xr0, y0, xl1, xr1, y1` (R60). -/
def asmZoid (i : Fin 5) (z : Zoid) : List HostEvent :=
  [asmWr (.z i .xl0) z.xl0, asmWr (.z i .xr0) z.xr0, asmWr (.z i .y0) z.y0,
   asmWr (.z i .xl1) z.xl1, asmWr (.z i .xr1) z.xr1, asmWr (.z i .y1) z.y1]

/-- `srst` (R60). -/
def asmSrst : List HostEvent := [asmWr .ctrl 1]

/-- A coordinate literal, `5c` = 1280 (R59). -/
def coordLit (n : Int) : Int := n * 256

/-- The state with a program of the host placed before what is still to come. -/
def loadProgram (prog : List HostEvent) (s : State) : State := { s with port := prog ++ s.port }

end Sys2Proof.Machine
end

