-- ==== Sys2Proof/Laws/State.lean ====
section
/-! SUPPORT. What every update of the state does to every field: one lemma per field per update. -/

namespace Sys2Proof.Machine

/-! ### portWrite -/

@[simp] theorem portWrite_fault (a : PixAddr) (p : Pixel) (s : State) : (portWrite a p s).fault = s.fault := rfl
@[simp] theorem portWrite_fcode (a : PixAddr) (p : Pixel) (s : State) : (portWrite a p s).fcode = s.fcode := rfl
@[simp] theorem portWrite_fcmd (a : PixAddr) (p : Pixel) (s : State) : (portWrite a p s).fcmd = s.fcmd := rfl
@[simp] theorem portWrite_tileBase (a : PixAddr) (p : Pixel) (s : State) : (portWrite a p s).tileBase = s.tileBase := rfl
@[simp] theorem portWrite_tileX (a : PixAddr) (p : Pixel) (s : State) : (portWrite a p s).tileX = s.tileX := rfl
@[simp] theorem portWrite_tileY (a : PixAddr) (p : Pixel) (s : State) : (portWrite a p s).tileY = s.tileY := rfl
@[simp] theorem portWrite_tileW (a : PixAddr) (p : Pixel) (s : State) : (portWrite a p s).tileW = s.tileW := rfl
@[simp] theorem portWrite_tileH (a : PixAddr) (p : Pixel) (s : State) : (portWrite a p s).tileH = s.tileH := rfl
@[simp] theorem portWrite_tileStride (a : PixAddr) (p : Pixel) (s : State) : (portWrite a p s).tileStride = s.tileStride := rfl
@[simp] theorem portWrite_x0 (a : PixAddr) (p : Pixel) (s : State) : (portWrite a p s).x0 = s.x0 := rfl
@[simp] theorem portWrite_y0 (a : PixAddr) (p : Pixel) (s : State) : (portWrite a p s).y0 = s.y0 := rfl
@[simp] theorem portWrite_x1 (a : PixAddr) (p : Pixel) (s : State) : (portWrite a p s).x1 = s.x1 := rfl
@[simp] theorem portWrite_y1 (a : PixAddr) (p : Pixel) (s : State) : (portWrite a p s).y1 = s.y1 := rfl
@[simp] theorem portWrite_x2 (a : PixAddr) (p : Pixel) (s : State) : (portWrite a p s).x2 = s.x2 := rfl
@[simp] theorem portWrite_y2 (a : PixAddr) (p : Pixel) (s : State) : (portWrite a p s).y2 = s.y2 := rfl
@[simp] theorem portWrite_color (a : PixAddr) (p : Pixel) (s : State) : (portWrite a p s).color = s.color := rfl
@[simp] theorem portWrite_alpha (a : PixAddr) (p : Pixel) (s : State) : (portWrite a p s).alpha = s.alpha := rfl
@[simp] theorem portWrite_dpix (a : PixAddr) (p : Pixel) (s : State) : (portWrite a p s).dpix = s.dpix := rfl
@[simp] theorem portWrite_ca (a : PixAddr) (p : Pixel) (s : State) : (portWrite a p s).ca = s.ca := rfl
@[simp] theorem portWrite_cb (a : PixAddr) (p : Pixel) (s : State) : (portWrite a p s).cb = s.cb := rfl
@[simp] theorem portWrite_res (a : PixAddr) (p : Pixel) (s : State) : (portWrite a p s).res = s.res := rfl
@[simp] theorem portWrite_zn (a : PixAddr) (p : Pixel) (s : State) : (portWrite a p s).zn = s.zn := rfl
@[simp] theorem portWrite_z (a : PixAddr) (p : Pixel) (s : State) : (portWrite a p s).z = s.z := rfl
@[simp] theorem portWrite_mem (a : PixAddr) (p : Pixel) (s : State) : (portWrite a p s).mem = writePixel s.mem a p := rfl
@[simp] theorem portWrite_trace (a : PixAddr) (p : Pixel) (s : State) : (portWrite a p s).trace = .write a p :: s.trace := rfl
@[simp] theorem portWrite_port (a : PixAddr) (p : Pixel) (s : State) : (portWrite a p s).port = s.port := rfl
@[simp] theorem portWrite_output (a : PixAddr) (p : Pixel) (s : State) : (portWrite a p s).output = s.output := rfl
@[simp] theorem portWrite_freeCount (a : PixAddr) (p : Pixel) (s : State) : (portWrite a p s).freeCount = s.freeCount := rfl

/-! ### portRead -/

@[simp] theorem portRead_fault (a : PixAddr) (s : State) : (portRead a s).fault = s.fault := rfl
@[simp] theorem portRead_fcode (a : PixAddr) (s : State) : (portRead a s).fcode = s.fcode := rfl
@[simp] theorem portRead_fcmd (a : PixAddr) (s : State) : (portRead a s).fcmd = s.fcmd := rfl
@[simp] theorem portRead_tileBase (a : PixAddr) (s : State) : (portRead a s).tileBase = s.tileBase := rfl
@[simp] theorem portRead_tileX (a : PixAddr) (s : State) : (portRead a s).tileX = s.tileX := rfl
@[simp] theorem portRead_tileY (a : PixAddr) (s : State) : (portRead a s).tileY = s.tileY := rfl
@[simp] theorem portRead_tileW (a : PixAddr) (s : State) : (portRead a s).tileW = s.tileW := rfl
@[simp] theorem portRead_tileH (a : PixAddr) (s : State) : (portRead a s).tileH = s.tileH := rfl
@[simp] theorem portRead_tileStride (a : PixAddr) (s : State) : (portRead a s).tileStride = s.tileStride := rfl
@[simp] theorem portRead_x0 (a : PixAddr) (s : State) : (portRead a s).x0 = s.x0 := rfl
@[simp] theorem portRead_y0 (a : PixAddr) (s : State) : (portRead a s).y0 = s.y0 := rfl
@[simp] theorem portRead_x1 (a : PixAddr) (s : State) : (portRead a s).x1 = s.x1 := rfl
@[simp] theorem portRead_y1 (a : PixAddr) (s : State) : (portRead a s).y1 = s.y1 := rfl
@[simp] theorem portRead_x2 (a : PixAddr) (s : State) : (portRead a s).x2 = s.x2 := rfl
@[simp] theorem portRead_y2 (a : PixAddr) (s : State) : (portRead a s).y2 = s.y2 := rfl
@[simp] theorem portRead_color (a : PixAddr) (s : State) : (portRead a s).color = s.color := rfl
@[simp] theorem portRead_alpha (a : PixAddr) (s : State) : (portRead a s).alpha = s.alpha := rfl
@[simp] theorem portRead_dpix (a : PixAddr) (s : State) : (portRead a s).dpix = s.dpix := rfl
@[simp] theorem portRead_ca (a : PixAddr) (s : State) : (portRead a s).ca = s.ca := rfl
@[simp] theorem portRead_cb (a : PixAddr) (s : State) : (portRead a s).cb = s.cb := rfl
@[simp] theorem portRead_res (a : PixAddr) (s : State) : (portRead a s).res = s.res := rfl
@[simp] theorem portRead_zn (a : PixAddr) (s : State) : (portRead a s).zn = s.zn := rfl
@[simp] theorem portRead_z (a : PixAddr) (s : State) : (portRead a s).z = s.z := rfl
@[simp] theorem portRead_mem (a : PixAddr) (s : State) : (portRead a s).mem = s.mem := rfl
@[simp] theorem portRead_trace (a : PixAddr) (s : State) : (portRead a s).trace = .read a (readPixel s.mem a) :: s.trace := rfl
@[simp] theorem portRead_port (a : PixAddr) (s : State) : (portRead a s).port = s.port := rfl
@[simp] theorem portRead_output (a : PixAddr) (s : State) : (portRead a s).output = s.output := rfl
@[simp] theorem portRead_freeCount (a : PixAddr) (s : State) : (portRead a s).freeCount = s.freeCount := rfl

/-! ### raiseFault -/

@[simp] theorem raiseFault_fault (c : Cause) (w : Word) (s : State) : (raiseFault c w s).fault = true := rfl
@[simp] theorem raiseFault_fcode (c : Cause) (w : Word) (s : State) : (raiseFault c w s).fcode = causeCode c := rfl
@[simp] theorem raiseFault_fcmd (c : Cause) (w : Word) (s : State) : (raiseFault c w s).fcmd = w := rfl
@[simp] theorem raiseFault_tileBase (c : Cause) (w : Word) (s : State) : (raiseFault c w s).tileBase = s.tileBase := rfl
@[simp] theorem raiseFault_tileX (c : Cause) (w : Word) (s : State) : (raiseFault c w s).tileX = s.tileX := rfl
@[simp] theorem raiseFault_tileY (c : Cause) (w : Word) (s : State) : (raiseFault c w s).tileY = s.tileY := rfl
@[simp] theorem raiseFault_tileW (c : Cause) (w : Word) (s : State) : (raiseFault c w s).tileW = s.tileW := rfl
@[simp] theorem raiseFault_tileH (c : Cause) (w : Word) (s : State) : (raiseFault c w s).tileH = s.tileH := rfl
@[simp] theorem raiseFault_tileStride (c : Cause) (w : Word) (s : State) : (raiseFault c w s).tileStride = s.tileStride := rfl
@[simp] theorem raiseFault_x0 (c : Cause) (w : Word) (s : State) : (raiseFault c w s).x0 = s.x0 := rfl
@[simp] theorem raiseFault_y0 (c : Cause) (w : Word) (s : State) : (raiseFault c w s).y0 = s.y0 := rfl
@[simp] theorem raiseFault_x1 (c : Cause) (w : Word) (s : State) : (raiseFault c w s).x1 = s.x1 := rfl
@[simp] theorem raiseFault_y1 (c : Cause) (w : Word) (s : State) : (raiseFault c w s).y1 = s.y1 := rfl
@[simp] theorem raiseFault_x2 (c : Cause) (w : Word) (s : State) : (raiseFault c w s).x2 = s.x2 := rfl
@[simp] theorem raiseFault_y2 (c : Cause) (w : Word) (s : State) : (raiseFault c w s).y2 = s.y2 := rfl
@[simp] theorem raiseFault_color (c : Cause) (w : Word) (s : State) : (raiseFault c w s).color = s.color := rfl
@[simp] theorem raiseFault_alpha (c : Cause) (w : Word) (s : State) : (raiseFault c w s).alpha = s.alpha := rfl
@[simp] theorem raiseFault_dpix (c : Cause) (w : Word) (s : State) : (raiseFault c w s).dpix = s.dpix := rfl
@[simp] theorem raiseFault_ca (c : Cause) (w : Word) (s : State) : (raiseFault c w s).ca = s.ca := rfl
@[simp] theorem raiseFault_cb (c : Cause) (w : Word) (s : State) : (raiseFault c w s).cb = s.cb := rfl
@[simp] theorem raiseFault_res (c : Cause) (w : Word) (s : State) : (raiseFault c w s).res = s.res := rfl
@[simp] theorem raiseFault_zn (c : Cause) (w : Word) (s : State) : (raiseFault c w s).zn = s.zn := rfl
@[simp] theorem raiseFault_z (c : Cause) (w : Word) (s : State) : (raiseFault c w s).z = s.z := rfl
@[simp] theorem raiseFault_mem (c : Cause) (w : Word) (s : State) : (raiseFault c w s).mem = s.mem := rfl
@[simp] theorem raiseFault_trace (c : Cause) (w : Word) (s : State) : (raiseFault c w s).trace = s.trace := rfl
@[simp] theorem raiseFault_port (c : Cause) (w : Word) (s : State) : (raiseFault c w s).port = s.port := rfl
@[simp] theorem raiseFault_output (c : Cause) (w : Word) (s : State) : (raiseFault c w s).output = s.output := rfl
@[simp] theorem raiseFault_freeCount (c : Cause) (w : Word) (s : State) : (raiseFault c w s).freeCount = s.freeCount := rfl

/-! ### softReset -/

@[simp] theorem softReset_fault (s : State) : (softReset s).fault = false := rfl
@[simp] theorem softReset_fcode (s : State) : (softReset s).fcode = 0 := rfl
@[simp] theorem softReset_fcmd (s : State) : (softReset s).fcmd = 0 := rfl
@[simp] theorem softReset_tileBase (s : State) : (softReset s).tileBase = s.tileBase := rfl
@[simp] theorem softReset_tileX (s : State) : (softReset s).tileX = s.tileX := rfl
@[simp] theorem softReset_tileY (s : State) : (softReset s).tileY = s.tileY := rfl
@[simp] theorem softReset_tileW (s : State) : (softReset s).tileW = s.tileW := rfl
@[simp] theorem softReset_tileH (s : State) : (softReset s).tileH = s.tileH := rfl
@[simp] theorem softReset_tileStride (s : State) : (softReset s).tileStride = s.tileStride := rfl
@[simp] theorem softReset_x0 (s : State) : (softReset s).x0 = s.x0 := rfl
@[simp] theorem softReset_y0 (s : State) : (softReset s).y0 = s.y0 := rfl
@[simp] theorem softReset_x1 (s : State) : (softReset s).x1 = s.x1 := rfl
@[simp] theorem softReset_y1 (s : State) : (softReset s).y1 = s.y1 := rfl
@[simp] theorem softReset_x2 (s : State) : (softReset s).x2 = s.x2 := rfl
@[simp] theorem softReset_y2 (s : State) : (softReset s).y2 = s.y2 := rfl
@[simp] theorem softReset_color (s : State) : (softReset s).color = s.color := rfl
@[simp] theorem softReset_alpha (s : State) : (softReset s).alpha = s.alpha := rfl
@[simp] theorem softReset_dpix (s : State) : (softReset s).dpix = s.dpix := rfl
@[simp] theorem softReset_ca (s : State) : (softReset s).ca = s.ca := rfl
@[simp] theorem softReset_cb (s : State) : (softReset s).cb = s.cb := rfl
@[simp] theorem softReset_res (s : State) : (softReset s).res = s.res := rfl
@[simp] theorem softReset_zn (s : State) : (softReset s).zn = 0 := rfl
@[simp] theorem softReset_z (s : State) : (softReset s).z = s.z := rfl
@[simp] theorem softReset_mem (s : State) : (softReset s).mem = s.mem := rfl
@[simp] theorem softReset_trace (s : State) : (softReset s).trace = s.trace := rfl
@[simp] theorem softReset_port (s : State) : (softReset s).port = s.port := rfl
@[simp] theorem softReset_output (s : State) : (softReset s).output = s.output := rfl
@[simp] theorem softReset_freeCount (s : State) : (softReset s).freeCount = s.freeCount := rfl

/-! ### setRes -/

@[simp] theorem setRes_fault (r : Word) (s : State) : (setRes r s).fault = s.fault := rfl
@[simp] theorem setRes_fcode (r : Word) (s : State) : (setRes r s).fcode = s.fcode := rfl
@[simp] theorem setRes_fcmd (r : Word) (s : State) : (setRes r s).fcmd = s.fcmd := rfl
@[simp] theorem setRes_tileBase (r : Word) (s : State) : (setRes r s).tileBase = s.tileBase := rfl
@[simp] theorem setRes_tileX (r : Word) (s : State) : (setRes r s).tileX = s.tileX := rfl
@[simp] theorem setRes_tileY (r : Word) (s : State) : (setRes r s).tileY = s.tileY := rfl
@[simp] theorem setRes_tileW (r : Word) (s : State) : (setRes r s).tileW = s.tileW := rfl
@[simp] theorem setRes_tileH (r : Word) (s : State) : (setRes r s).tileH = s.tileH := rfl
@[simp] theorem setRes_tileStride (r : Word) (s : State) : (setRes r s).tileStride = s.tileStride := rfl
@[simp] theorem setRes_x0 (r : Word) (s : State) : (setRes r s).x0 = s.x0 := rfl
@[simp] theorem setRes_y0 (r : Word) (s : State) : (setRes r s).y0 = s.y0 := rfl
@[simp] theorem setRes_x1 (r : Word) (s : State) : (setRes r s).x1 = s.x1 := rfl
@[simp] theorem setRes_y1 (r : Word) (s : State) : (setRes r s).y1 = s.y1 := rfl
@[simp] theorem setRes_x2 (r : Word) (s : State) : (setRes r s).x2 = s.x2 := rfl
@[simp] theorem setRes_y2 (r : Word) (s : State) : (setRes r s).y2 = s.y2 := rfl
@[simp] theorem setRes_color (r : Word) (s : State) : (setRes r s).color = s.color := rfl
@[simp] theorem setRes_alpha (r : Word) (s : State) : (setRes r s).alpha = s.alpha := rfl
@[simp] theorem setRes_dpix (r : Word) (s : State) : (setRes r s).dpix = s.dpix := rfl
@[simp] theorem setRes_ca (r : Word) (s : State) : (setRes r s).ca = s.ca := rfl
@[simp] theorem setRes_cb (r : Word) (s : State) : (setRes r s).cb = s.cb := rfl
@[simp] theorem setRes_res (r : Word) (s : State) : (setRes r s).res = r := rfl
@[simp] theorem setRes_zn (r : Word) (s : State) : (setRes r s).zn = s.zn := rfl
@[simp] theorem setRes_z (r : Word) (s : State) : (setRes r s).z = s.z := rfl
@[simp] theorem setRes_mem (r : Word) (s : State) : (setRes r s).mem = s.mem := rfl
@[simp] theorem setRes_trace (r : Word) (s : State) : (setRes r s).trace = s.trace := rfl
@[simp] theorem setRes_port (r : Word) (s : State) : (setRes r s).port = s.port := rfl
@[simp] theorem setRes_output (r : Word) (s : State) : (setRes r s).output = s.output := rfl
@[simp] theorem setRes_freeCount (r : Word) (s : State) : (setRes r s).freeCount = s.freeCount := rfl

/-! ### setTable -/

@[simp] theorem setTable_fault (zs : List Zoid) (s : State) : (setTable zs s).fault = s.fault := rfl
@[simp] theorem setTable_fcode (zs : List Zoid) (s : State) : (setTable zs s).fcode = s.fcode := rfl
@[simp] theorem setTable_fcmd (zs : List Zoid) (s : State) : (setTable zs s).fcmd = s.fcmd := rfl
@[simp] theorem setTable_tileBase (zs : List Zoid) (s : State) : (setTable zs s).tileBase = s.tileBase := rfl
@[simp] theorem setTable_tileX (zs : List Zoid) (s : State) : (setTable zs s).tileX = s.tileX := rfl
@[simp] theorem setTable_tileY (zs : List Zoid) (s : State) : (setTable zs s).tileY = s.tileY := rfl
@[simp] theorem setTable_tileW (zs : List Zoid) (s : State) : (setTable zs s).tileW = s.tileW := rfl
@[simp] theorem setTable_tileH (zs : List Zoid) (s : State) : (setTable zs s).tileH = s.tileH := rfl
@[simp] theorem setTable_tileStride (zs : List Zoid) (s : State) : (setTable zs s).tileStride = s.tileStride := rfl
@[simp] theorem setTable_x0 (zs : List Zoid) (s : State) : (setTable zs s).x0 = s.x0 := rfl
@[simp] theorem setTable_y0 (zs : List Zoid) (s : State) : (setTable zs s).y0 = s.y0 := rfl
@[simp] theorem setTable_x1 (zs : List Zoid) (s : State) : (setTable zs s).x1 = s.x1 := rfl
@[simp] theorem setTable_y1 (zs : List Zoid) (s : State) : (setTable zs s).y1 = s.y1 := rfl
@[simp] theorem setTable_x2 (zs : List Zoid) (s : State) : (setTable zs s).x2 = s.x2 := rfl
@[simp] theorem setTable_y2 (zs : List Zoid) (s : State) : (setTable zs s).y2 = s.y2 := rfl
@[simp] theorem setTable_color (zs : List Zoid) (s : State) : (setTable zs s).color = s.color := rfl
@[simp] theorem setTable_alpha (zs : List Zoid) (s : State) : (setTable zs s).alpha = s.alpha := rfl
@[simp] theorem setTable_dpix (zs : List Zoid) (s : State) : (setTable zs s).dpix = s.dpix := rfl
@[simp] theorem setTable_ca (zs : List Zoid) (s : State) : (setTable zs s).ca = s.ca := rfl
@[simp] theorem setTable_cb (zs : List Zoid) (s : State) : (setTable zs s).cb = s.cb := rfl
@[simp] theorem setTable_res (zs : List Zoid) (s : State) : (setTable zs s).res = s.res := rfl
@[simp] theorem setTable_zn (zs : List Zoid) (s : State) : (setTable zs s).zn = BitVec.ofNat 3 zs.length := rfl
@[simp] theorem setTable_z (zs : List Zoid) (s : State) : (setTable zs s).z = storedTable zs s.z := rfl
@[simp] theorem setTable_mem (zs : List Zoid) (s : State) : (setTable zs s).mem = s.mem := rfl
@[simp] theorem setTable_trace (zs : List Zoid) (s : State) : (setTable zs s).trace = s.trace := rfl
@[simp] theorem setTable_port (zs : List Zoid) (s : State) : (setTable zs s).port = s.port := rfl
@[simp] theorem setTable_output (zs : List Zoid) (s : State) : (setTable zs s).output = s.output := rfl
@[simp] theorem setTable_freeCount (zs : List Zoid) (s : State) : (setTable zs s).freeCount = s.freeCount := rfl

/-! ### setTableShrunk -/

@[simp] theorem setTableShrunk_fault (zs : List Zoid) (s : State) : (setTableShrunk zs s).fault = s.fault := rfl
@[simp] theorem setTableShrunk_fcode (zs : List Zoid) (s : State) : (setTableShrunk zs s).fcode = s.fcode := rfl
@[simp] theorem setTableShrunk_fcmd (zs : List Zoid) (s : State) : (setTableShrunk zs s).fcmd = s.fcmd := rfl
@[simp] theorem setTableShrunk_tileBase (zs : List Zoid) (s : State) : (setTableShrunk zs s).tileBase = s.tileBase := rfl
@[simp] theorem setTableShrunk_tileX (zs : List Zoid) (s : State) : (setTableShrunk zs s).tileX = s.tileX := rfl
@[simp] theorem setTableShrunk_tileY (zs : List Zoid) (s : State) : (setTableShrunk zs s).tileY = s.tileY := rfl
@[simp] theorem setTableShrunk_tileW (zs : List Zoid) (s : State) : (setTableShrunk zs s).tileW = s.tileW := rfl
@[simp] theorem setTableShrunk_tileH (zs : List Zoid) (s : State) : (setTableShrunk zs s).tileH = s.tileH := rfl
@[simp] theorem setTableShrunk_tileStride (zs : List Zoid) (s : State) : (setTableShrunk zs s).tileStride = s.tileStride := rfl
@[simp] theorem setTableShrunk_x0 (zs : List Zoid) (s : State) : (setTableShrunk zs s).x0 = s.x0 := rfl
@[simp] theorem setTableShrunk_y0 (zs : List Zoid) (s : State) : (setTableShrunk zs s).y0 = s.y0 := rfl
@[simp] theorem setTableShrunk_x1 (zs : List Zoid) (s : State) : (setTableShrunk zs s).x1 = s.x1 := rfl
@[simp] theorem setTableShrunk_y1 (zs : List Zoid) (s : State) : (setTableShrunk zs s).y1 = s.y1 := rfl
@[simp] theorem setTableShrunk_x2 (zs : List Zoid) (s : State) : (setTableShrunk zs s).x2 = s.x2 := rfl
@[simp] theorem setTableShrunk_y2 (zs : List Zoid) (s : State) : (setTableShrunk zs s).y2 = s.y2 := rfl
@[simp] theorem setTableShrunk_color (zs : List Zoid) (s : State) : (setTableShrunk zs s).color = s.color := rfl
@[simp] theorem setTableShrunk_alpha (zs : List Zoid) (s : State) : (setTableShrunk zs s).alpha = s.alpha := rfl
@[simp] theorem setTableShrunk_dpix (zs : List Zoid) (s : State) : (setTableShrunk zs s).dpix = s.dpix := rfl
@[simp] theorem setTableShrunk_ca (zs : List Zoid) (s : State) : (setTableShrunk zs s).ca = s.ca := rfl
@[simp] theorem setTableShrunk_cb (zs : List Zoid) (s : State) : (setTableShrunk zs s).cb = s.cb := rfl
@[simp] theorem setTableShrunk_res (zs : List Zoid) (s : State) : (setTableShrunk zs s).res = s.res := rfl
@[simp] theorem setTableShrunk_zn (zs : List Zoid) (s : State) : (setTableShrunk zs s).zn = BitVec.ofNat 3 zs.length := rfl
@[simp] theorem setTableShrunk_z (zs : List Zoid) (s : State) : (setTableShrunk zs s).z = storedTable zs (freeTable s.freeCount) := rfl
@[simp] theorem setTableShrunk_mem (zs : List Zoid) (s : State) : (setTableShrunk zs s).mem = s.mem := rfl
@[simp] theorem setTableShrunk_trace (zs : List Zoid) (s : State) : (setTableShrunk zs s).trace = s.trace := rfl
@[simp] theorem setTableShrunk_port (zs : List Zoid) (s : State) : (setTableShrunk zs s).port = s.port := rfl
@[simp] theorem setTableShrunk_output (zs : List Zoid) (s : State) : (setTableShrunk zs s).output = s.output := rfl
@[simp] theorem setTableShrunk_freeCount (zs : List Zoid) (s : State) : (setTableShrunk zs s).freeCount = s.freeCount + 30 := rfl

/-! ### loseTable -/

@[simp] theorem loseTable_fault (s : State) : (loseTable s).fault = s.fault := rfl
@[simp] theorem loseTable_fcode (s : State) : (loseTable s).fcode = s.fcode := rfl
@[simp] theorem loseTable_fcmd (s : State) : (loseTable s).fcmd = s.fcmd := rfl
@[simp] theorem loseTable_tileBase (s : State) : (loseTable s).tileBase = s.tileBase := rfl
@[simp] theorem loseTable_tileX (s : State) : (loseTable s).tileX = s.tileX := rfl
@[simp] theorem loseTable_tileY (s : State) : (loseTable s).tileY = s.tileY := rfl
@[simp] theorem loseTable_tileW (s : State) : (loseTable s).tileW = s.tileW := rfl
@[simp] theorem loseTable_tileH (s : State) : (loseTable s).tileH = s.tileH := rfl
@[simp] theorem loseTable_tileStride (s : State) : (loseTable s).tileStride = s.tileStride := rfl
@[simp] theorem loseTable_x0 (s : State) : (loseTable s).x0 = s.x0 := rfl
@[simp] theorem loseTable_y0 (s : State) : (loseTable s).y0 = s.y0 := rfl
@[simp] theorem loseTable_x1 (s : State) : (loseTable s).x1 = s.x1 := rfl
@[simp] theorem loseTable_y1 (s : State) : (loseTable s).y1 = s.y1 := rfl
@[simp] theorem loseTable_x2 (s : State) : (loseTable s).x2 = s.x2 := rfl
@[simp] theorem loseTable_y2 (s : State) : (loseTable s).y2 = s.y2 := rfl
@[simp] theorem loseTable_color (s : State) : (loseTable s).color = s.color := rfl
@[simp] theorem loseTable_alpha (s : State) : (loseTable s).alpha = s.alpha := rfl
@[simp] theorem loseTable_dpix (s : State) : (loseTable s).dpix = s.dpix := rfl
@[simp] theorem loseTable_ca (s : State) : (loseTable s).ca = s.ca := rfl
@[simp] theorem loseTable_cb (s : State) : (loseTable s).cb = s.cb := rfl
@[simp] theorem loseTable_res (s : State) : (loseTable s).res = s.res := rfl
@[simp] theorem loseTable_zn (s : State) : (loseTable s).zn = (Config.freeWord (s.freeCount + 30)).setWidth 3 := rfl
@[simp] theorem loseTable_z (s : State) : (loseTable s).z = freeTable s.freeCount := rfl
@[simp] theorem loseTable_mem (s : State) : (loseTable s).mem = s.mem := rfl
@[simp] theorem loseTable_trace (s : State) : (loseTable s).trace = s.trace := rfl
@[simp] theorem loseTable_port (s : State) : (loseTable s).port = s.port := rfl
@[simp] theorem loseTable_output (s : State) : (loseTable s).output = s.output := rfl
@[simp] theorem loseTable_freeCount (s : State) : (loseTable s).freeCount = s.freeCount + 31 := rfl

/-! ### emit -/

@[simp] theorem emit_fault (v : Word) (s : State) : (emit v s).fault = s.fault := rfl
@[simp] theorem emit_fcode (v : Word) (s : State) : (emit v s).fcode = s.fcode := rfl
@[simp] theorem emit_fcmd (v : Word) (s : State) : (emit v s).fcmd = s.fcmd := rfl
@[simp] theorem emit_tileBase (v : Word) (s : State) : (emit v s).tileBase = s.tileBase := rfl
@[simp] theorem emit_tileX (v : Word) (s : State) : (emit v s).tileX = s.tileX := rfl
@[simp] theorem emit_tileY (v : Word) (s : State) : (emit v s).tileY = s.tileY := rfl
@[simp] theorem emit_tileW (v : Word) (s : State) : (emit v s).tileW = s.tileW := rfl
@[simp] theorem emit_tileH (v : Word) (s : State) : (emit v s).tileH = s.tileH := rfl
@[simp] theorem emit_tileStride (v : Word) (s : State) : (emit v s).tileStride = s.tileStride := rfl
@[simp] theorem emit_x0 (v : Word) (s : State) : (emit v s).x0 = s.x0 := rfl
@[simp] theorem emit_y0 (v : Word) (s : State) : (emit v s).y0 = s.y0 := rfl
@[simp] theorem emit_x1 (v : Word) (s : State) : (emit v s).x1 = s.x1 := rfl
@[simp] theorem emit_y1 (v : Word) (s : State) : (emit v s).y1 = s.y1 := rfl
@[simp] theorem emit_x2 (v : Word) (s : State) : (emit v s).x2 = s.x2 := rfl
@[simp] theorem emit_y2 (v : Word) (s : State) : (emit v s).y2 = s.y2 := rfl
@[simp] theorem emit_color (v : Word) (s : State) : (emit v s).color = s.color := rfl
@[simp] theorem emit_alpha (v : Word) (s : State) : (emit v s).alpha = s.alpha := rfl
@[simp] theorem emit_dpix (v : Word) (s : State) : (emit v s).dpix = s.dpix := rfl
@[simp] theorem emit_ca (v : Word) (s : State) : (emit v s).ca = s.ca := rfl
@[simp] theorem emit_cb (v : Word) (s : State) : (emit v s).cb = s.cb := rfl
@[simp] theorem emit_res (v : Word) (s : State) : (emit v s).res = s.res := rfl
@[simp] theorem emit_zn (v : Word) (s : State) : (emit v s).zn = s.zn := rfl
@[simp] theorem emit_z (v : Word) (s : State) : (emit v s).z = s.z := rfl
@[simp] theorem emit_mem (v : Word) (s : State) : (emit v s).mem = s.mem := rfl
@[simp] theorem emit_trace (v : Word) (s : State) : (emit v s).trace = s.trace := rfl
@[simp] theorem emit_port (v : Word) (s : State) : (emit v s).port = s.port := rfl
@[simp] theorem emit_output (v : Word) (s : State) : (emit v s).output = v :: s.output := rfl
@[simp] theorem emit_freeCount (v : Word) (s : State) : (emit v s).freeCount = s.freeCount := rfl

/-! ### loadProgram -/

@[simp] theorem loadProgram_fault (es : List HostEvent) (s : State) : (loadProgram es s).fault = s.fault := rfl
@[simp] theorem loadProgram_fcode (es : List HostEvent) (s : State) : (loadProgram es s).fcode = s.fcode := rfl
@[simp] theorem loadProgram_fcmd (es : List HostEvent) (s : State) : (loadProgram es s).fcmd = s.fcmd := rfl
@[simp] theorem loadProgram_tileBase (es : List HostEvent) (s : State) : (loadProgram es s).tileBase = s.tileBase := rfl
@[simp] theorem loadProgram_tileX (es : List HostEvent) (s : State) : (loadProgram es s).tileX = s.tileX := rfl
@[simp] theorem loadProgram_tileY (es : List HostEvent) (s : State) : (loadProgram es s).tileY = s.tileY := rfl
@[simp] theorem loadProgram_tileW (es : List HostEvent) (s : State) : (loadProgram es s).tileW = s.tileW := rfl
@[simp] theorem loadProgram_tileH (es : List HostEvent) (s : State) : (loadProgram es s).tileH = s.tileH := rfl
@[simp] theorem loadProgram_tileStride (es : List HostEvent) (s : State) : (loadProgram es s).tileStride = s.tileStride := rfl
@[simp] theorem loadProgram_x0 (es : List HostEvent) (s : State) : (loadProgram es s).x0 = s.x0 := rfl
@[simp] theorem loadProgram_y0 (es : List HostEvent) (s : State) : (loadProgram es s).y0 = s.y0 := rfl
@[simp] theorem loadProgram_x1 (es : List HostEvent) (s : State) : (loadProgram es s).x1 = s.x1 := rfl
@[simp] theorem loadProgram_y1 (es : List HostEvent) (s : State) : (loadProgram es s).y1 = s.y1 := rfl
@[simp] theorem loadProgram_x2 (es : List HostEvent) (s : State) : (loadProgram es s).x2 = s.x2 := rfl
@[simp] theorem loadProgram_y2 (es : List HostEvent) (s : State) : (loadProgram es s).y2 = s.y2 := rfl
@[simp] theorem loadProgram_color (es : List HostEvent) (s : State) : (loadProgram es s).color = s.color := rfl
@[simp] theorem loadProgram_alpha (es : List HostEvent) (s : State) : (loadProgram es s).alpha = s.alpha := rfl
@[simp] theorem loadProgram_dpix (es : List HostEvent) (s : State) : (loadProgram es s).dpix = s.dpix := rfl
@[simp] theorem loadProgram_ca (es : List HostEvent) (s : State) : (loadProgram es s).ca = s.ca := rfl
@[simp] theorem loadProgram_cb (es : List HostEvent) (s : State) : (loadProgram es s).cb = s.cb := rfl
@[simp] theorem loadProgram_res (es : List HostEvent) (s : State) : (loadProgram es s).res = s.res := rfl
@[simp] theorem loadProgram_zn (es : List HostEvent) (s : State) : (loadProgram es s).zn = s.zn := rfl
@[simp] theorem loadProgram_z (es : List HostEvent) (s : State) : (loadProgram es s).z = s.z := rfl
@[simp] theorem loadProgram_mem (es : List HostEvent) (s : State) : (loadProgram es s).mem = s.mem := rfl
@[simp] theorem loadProgram_trace (es : List HostEvent) (s : State) : (loadProgram es s).trace = s.trace := rfl
@[simp] theorem loadProgram_port (es : List HostEvent) (s : State) : (loadProgram es s).port = es ++ s.port := rfl
@[simp] theorem loadProgram_output (es : List HostEvent) (s : State) : (loadProgram es s).output = s.output := rfl
@[simp] theorem loadProgram_freeCount (es : List HostEvent) (s : State) : (loadProgram es s).freeCount = s.freeCount := rfl

/-! ### hardReset -/

@[simp] theorem hardReset_fault (s : State) : (hardReset s).fault = false := rfl
@[simp] theorem hardReset_fcode (s : State) : (hardReset s).fcode = 0 := rfl
@[simp] theorem hardReset_fcmd (s : State) : (hardReset s).fcmd = 0 := rfl
@[simp] theorem hardReset_zn (s : State) : (hardReset s).zn = 0 := rfl
@[simp] theorem hardReset_z (s : State) : (hardReset s).z = freeTable s.freeCount := rfl
@[simp] theorem hardReset_mem (s : State) : (hardReset s).mem = s.mem := rfl
@[simp] theorem hardReset_trace (s : State) : (hardReset s).trace = s.trace := rfl
@[simp] theorem hardReset_port (s : State) : (hardReset s).port = s.port := rfl
@[simp] theorem hardReset_output (s : State) : (hardReset s).output = s.output := rfl
@[simp] theorem hardReset_freeCount (s : State) : (hardReset s).freeCount = s.freeCount + 48 := rfl

/-! ### withFetchWord -/

@[simp] theorem withFetchWord_fault (s : State) (k w : Nat) : (s.withFetchWord k w).fault = s.fault := rfl
@[simp] theorem withFetchWord_fcode (s : State) (k w : Nat) : (s.withFetchWord k w).fcode = s.fcode := rfl
@[simp] theorem withFetchWord_fcmd (s : State) (k w : Nat) : (s.withFetchWord k w).fcmd = s.fcmd := rfl
@[simp] theorem withFetchWord_tileBase (s : State) (k w : Nat) : (s.withFetchWord k w).tileBase = s.tileBase := rfl
@[simp] theorem withFetchWord_tileX (s : State) (k w : Nat) : (s.withFetchWord k w).tileX = s.tileX := rfl
@[simp] theorem withFetchWord_tileY (s : State) (k w : Nat) : (s.withFetchWord k w).tileY = s.tileY := rfl
@[simp] theorem withFetchWord_tileW (s : State) (k w : Nat) : (s.withFetchWord k w).tileW = s.tileW := rfl
@[simp] theorem withFetchWord_tileH (s : State) (k w : Nat) : (s.withFetchWord k w).tileH = s.tileH := rfl
@[simp] theorem withFetchWord_tileStride (s : State) (k w : Nat) : (s.withFetchWord k w).tileStride = s.tileStride := rfl
@[simp] theorem withFetchWord_x0 (s : State) (k w : Nat) : (s.withFetchWord k w).x0 = s.x0 := rfl
@[simp] theorem withFetchWord_y0 (s : State) (k w : Nat) : (s.withFetchWord k w).y0 = s.y0 := rfl
@[simp] theorem withFetchWord_x1 (s : State) (k w : Nat) : (s.withFetchWord k w).x1 = s.x1 := rfl
@[simp] theorem withFetchWord_y1 (s : State) (k w : Nat) : (s.withFetchWord k w).y1 = s.y1 := rfl
@[simp] theorem withFetchWord_x2 (s : State) (k w : Nat) : (s.withFetchWord k w).x2 = s.x2 := rfl
@[simp] theorem withFetchWord_y2 (s : State) (k w : Nat) : (s.withFetchWord k w).y2 = s.y2 := rfl
@[simp] theorem withFetchWord_color (s : State) (k w : Nat) : (s.withFetchWord k w).color = s.color := rfl
@[simp] theorem withFetchWord_alpha (s : State) (k w : Nat) : (s.withFetchWord k w).alpha = s.alpha := rfl
@[simp] theorem withFetchWord_dpix (s : State) (k w : Nat) : (s.withFetchWord k w).dpix = s.dpix := rfl
@[simp] theorem withFetchWord_ca (s : State) (k w : Nat) : (s.withFetchWord k w).ca = s.ca := rfl
@[simp] theorem withFetchWord_cb (s : State) (k w : Nat) : (s.withFetchWord k w).cb = s.cb := rfl
@[simp] theorem withFetchWord_res (s : State) (k w : Nat) : (s.withFetchWord k w).res = s.res := rfl
@[simp] theorem withFetchWord_zn (s : State) (k w : Nat) : (s.withFetchWord k w).zn = s.zn := rfl
@[simp] theorem withFetchWord_z (s : State) (k w : Nat) : (s.withFetchWord k w).z = s.z := rfl
@[simp] theorem withFetchWord_mem (s : State) (k w : Nat) : (s.withFetchWord k w).mem = s.mem := rfl
@[simp] theorem withFetchWord_trace (s : State) (k w : Nat) : (s.withFetchWord k w).trace = s.trace := rfl
@[simp] theorem withFetchWord_port (s : State) (k w : Nat) :
    (s.withFetchWord k w).port = .write .word 0 (BitVec.ofNat 32 (w % 2 ^ k)) :: s.port := rfl
@[simp] theorem withFetchWord_output (s : State) (k w : Nat) : (s.withFetchWord k w).output = s.output := rfl
@[simp] theorem withFetchWord_freeCount (s : State) (k w : Nat) : (s.withFetchWord k w).freeCount = s.freeCount := rfl

end Sys2Proof.Machine
end

