-- ==== Sys2Proof/Laws/Arith.lean ====
section
/-! SUPPORT. The helpers of 00_scope.md R8 in the terms `omega` knows. -/

namespace Sys2Proof.Machine

theorem fdiv_eq (a b : Int) : fdiv a b = a / b := rfl

theorem asr8_eq (a : Int) : asr a 8 = a / 256 := by simp [asr, fdiv]

theorem asr16_eq (a : Int) : asr a 16 = a / 65536 := by simp [asr, fdiv]

theorem shl8_eq (a : Int) : shl a 8 = a * 256 := by simp [shl]

theorem shl16_eq (a : Int) : shl a 16 = a * 65536 := by simp [shl]

theorem ifloor_eq (c : Int) : ifloor c = c / 256 := asr8_eq c

theorem iround_eq (c : Int) : iround c = (c + 128) / 256 := asr8_eq _

theorem iceil_eq (c : Int) : iceil c = (c + 255) / 256 := asr8_eq _

theorem low8_eq (a : Int) : low8 a = a % 256 := rfl

theorem low8_nonneg (a : Int) : 0 ≤ low8 a := by rw [low8_eq]; omega

theorem low8_le (a : Int) : low8 a ≤ 255 := by rw [low8_eq]; omega

/-- `iceil` and the sampling rule: column p is at or right of c exactly from `iceil c` on. -/
theorem iceil_le_iff (c p : Int) : iceil c ≤ p ↔ c ≤ 256 * p := by rw [iceil_eq]; omega

/-- `iround` is monotone. -/
theorem iround_mono {a b : Int} (h : a ≤ b) : iround a ≤ iround b := by rw [iround_eq, iround_eq]; omega

theorem clamp255_of_mem {v : Int} (h0 : 0 ≤ v) (h1 : v ≤ 255) : clamp255 v = v := by
  unfold clamp255; split <;> [omega; split <;> omega]

theorem clamp255_nonneg (v : Int) : 0 ≤ clamp255 v := by unfold clamp255; split <;> [omega; split <;> omega]

theorem clamp255_le (v : Int) : clamp255 v ≤ 255 := by unfold clamp255; split <;> [omega; split <;> omega]

theorem inRange32_iff (r : Int) : inRange32 r = true ↔ -2147483648 ≤ r ∧ r ≤ 2147483647 := by
  simp [inRange32]

/-- A value in range is what its register reads back. -/
theorem toInt_ofInt_of_inRange {r : Int} (h : inRange32 r = true) : (BitVec.ofInt 32 r).toInt = r := by
  rw [inRange32_iff] at h
  rw [BitVec.toInt_ofInt]
  exact Int.bmod_eq_of_le (by omega) (by omega)

theorem toInt_inRange (w : Word) : inRange32 w.toInt = true := by
  rw [inRange32_iff]
  have h1 := BitVec.le_toInt w
  have h2 := BitVec.toInt_lt (x := w)
  omega

/-- What is in a range. -/
theorem mem_intRange {a b x : Int} : x ∈ intRange a b ↔ a ≤ x ∧ x ≤ b := by
  simp only [intRange, List.mem_map, List.mem_range]
  constructor
  · rintro ⟨k, hk, rfl⟩; omega
  · rintro ⟨h1, h2⟩; exact ⟨(x - a).toNat, by omega, by omega⟩

/-- A range rises. -/
theorem intRange_rising (a b : Int) : (intRange a b).Pairwise (· < ·) := by
  rw [intRange, List.pairwise_map]
  exact List.pairwise_lt_range.imp fun h => by omega

/-- A range with no element. -/
theorem intRange_eq_nil {a b : Int} (h : b < a) : intRange a b = [] := by
  simp [intRange, show (b - a + 1).toNat = 0 by omega]

/-- A range by its first element. -/
theorem intRange_eq_cons {a b : Int} (h : a ≤ b) : intRange a b = a :: intRange (a + 1) b := by
  simp only [intRange]
  rw [show (b - a + 1).toNat = (b - (a + 1) + 1).toNat + 1 by omega, List.range_succ_eq_map]
  simp only [List.map_cons, List.map_map]
  congr 1
  · simp
  · exact List.map_congr_left fun k _ => by simp; omega

/-- A floor of a quotient of a value between 0 and the divisor's multiple stays between. -/
theorem ediv_between {n d k : Int} (hd : 0 < d) (h0 : 0 ≤ n) (h1 : n ≤ k * d) : 0 ≤ n / d ∧ n / d ≤ k :=
  ⟨Int.ediv_nonneg h0 hd.le, Int.ediv_le_of_le_mul hd h1⟩

/-- Linear interpolation rounded down stays between the two end values. -/
theorem interp_between {x0 x1 dy h : Int} (hh : 0 < h) (h0 : 0 ≤ dy) (h1 : dy ≤ h) :
    min x0 x1 ≤ x0 + (x1 - x0) * dy / h ∧ x0 + (x1 - x0) * dy / h ≤ max x0 x1 := by
  rcases le_total x0 x1 with hx | hx
  · have := ediv_between (n := (x1 - x0) * dy) hh (mul_nonneg (by omega) h0)
      (mul_le_mul_of_nonneg_left h1 (by omega))
    omega
  · have hlow : -(x0 - x1) ≤ (x1 - x0) * dy / h := by
      rw [Int.le_ediv_iff_mul_le hh]
      nlinarith [mul_le_mul_of_nonneg_left h1 (show (0 : Int) ≤ x0 - x1 by omega)]
    have hup : (x1 - x0) * dy / h ≤ 0 :=
      Int.ediv_le_of_le_mul hh (by nlinarith [mul_nonneg (show (0 : Int) ≤ x0 - x1 by omega) h0])
    omega

end Sys2Proof.Machine
end

