-- ==== Sys2Proof/Laws/Memory.lean ====
section
/-! SUPPORT. The laws of memory: read after write, and the canonical form is kept (20_memory.md R41, R46). -/

namespace Sys2Proof.Machine

@[simp] theorem memRead_nil (a : Nat) : memRead [] a = Config.unlistedByte := rfl

theorem memRead_cons (b : Nat) (v : Byte) (m : Memory) (a : Nat) :
    memRead ((b, v) :: m) a = if b = a then v else memRead m a := rfl

theorem memErase_cons (b : Nat) (v : Byte) (m : Memory) (a : Nat) :
    memErase ((b, v) :: m) a = if b = a then memErase m a else (b, v) :: memErase m a := by
  by_cases h : b = a <;> simp [memErase, h]

/-- Reading another address than the erased one. -/
theorem memRead_memErase_ne (m : Memory) {a b : Nat} (h : b ≠ a) :
    memRead (memErase m a) b = memRead m b := by
  induction m with
  | nil => rfl
  | cons c m ih =>
    obtain ⟨k, v⟩ := c
    rw [memErase_cons]
    by_cases hk : k = a
    · have : k ≠ b := fun e => h (e ▸ hk)
      simp [hk, ih, memRead_cons, Ne.symm h]
    · simp [hk, memRead_cons, ih]

/-- An erased address reads as an unlisted one. -/
theorem memRead_memErase_same (m : Memory) (a : Nat) :
    memRead (memErase m a) a = Config.unlistedByte := by
  induction m with
  | nil => rfl
  | cons c m ih =>
    obtain ⟨k, v⟩ := c
    rw [memErase_cons]
    by_cases hk : k = a <;> simp [hk, memRead_cons, ih]

/-- Reading another address than the inserted one. -/
theorem memRead_memInsert_ne (m : Memory) {a b : Nat} (v : Byte) (h : b ≠ a) :
    memRead (memInsert m a v) b = memRead m b := by
  induction m with
  | nil => simp [memInsert, memRead_cons, Ne.symm h]
  | cons c m ih =>
    obtain ⟨k, w⟩ := c
    unfold memInsert
    split <;> simp [memRead_cons, Ne.symm h, ih]

/-- An inserted address reads its value when it was not listed before. -/
theorem memRead_memInsert_same (m : Memory) (a : Nat) (v : Byte) (h : ∀ c ∈ m, c.1 ≠ a) :
    memRead (memInsert m a v) a = v := by
  induction m with
  | nil => simp [memInsert, memRead_cons]
  | cons c m ih =>
    obtain ⟨k, w⟩ := c
    have hk : k ≠ a := h (k, w) (by simp)
    unfold memInsert
    split
    · simp [memRead_cons]
    · simp [memRead_cons, hk, ih fun c hc => h c (by simp [hc])]

theorem fst_ne_of_mem_memErase {m : Memory} {a : Nat} {c : Host.Cell} (h : c ∈ memErase m a) : c.1 ≠ a := by
  simpa using (List.mem_filter.mp h).2

/-- A byte reads the value last written to it. -/
@[simp] theorem memRead_memWrite_same (m : Memory) (a : Nat) (v : Byte) : memRead (memWrite m a v) a = v := by
  unfold memWrite
  split
  · simp [memRead_memErase_same, *]
  · exact memRead_memInsert_same _ _ _ fun c hc => fst_ne_of_mem_memErase hc

/-- A write leaves every other byte alone. -/
theorem memRead_memWrite_ne (m : Memory) {a b : Nat} (v : Byte) (h : b ≠ a) :
    memRead (memWrite m a v) b = memRead m b := by
  unfold memWrite
  split
  · exact memRead_memErase_ne m h
  · rw [memRead_memInsert_ne _ _ h, memRead_memErase_ne m h]

/-! ### The canonical form -/

theorem memRising_iff (m : Memory) : memRising m = true ↔ m.Pairwise fun c d => c.1 < d.1 := by
  induction m with
  | nil => simp [memRising]
  | cons c m ih =>
    cases m with
    | nil => simp [memRising]
    | cons d m =>
      obtain ⟨a, v⟩ := c
      obtain ⟨b, w⟩ := d
      rw [memRising, Bool.and_eq_true, decide_eq_true_eq, ih, List.pairwise_cons (a := (a, v))]
      constructor
      · rintro ⟨hab, hp⟩
        refine ⟨fun e he => ?_, hp⟩
        rcases List.mem_cons.mp he with rfl | he'
        · exact hab
        · exact Nat.lt_trans hab ((List.pairwise_cons.mp hp).1 e he')
      · rintro ⟨h1, hp⟩
        exact ⟨h1 (b, w) (by simp), hp⟩

theorem wf_iff (m : Memory) : Memory.wf m = true ↔
    (m.Pairwise fun c d => c.1 < d.1) ∧ ∀ c ∈ m, c.1 < 2 ^ 33 ∧ c.2 ≠ Config.unlistedByte := by
  simp [Memory.wf, memRising_iff]

theorem memErase_wf {m : Memory} (h : Memory.wf m = true) (a : Nat) : Memory.wf (memErase m a) = true := by
  rw [wf_iff] at h ⊢
  exact ⟨h.1.filter _, fun c hc => h.2 c (List.mem_of_mem_filter hc)⟩

theorem mem_memInsert {m : Memory} {a : Nat} {v : Byte} {c : Host.Cell} (h : c ∈ memInsert m a v) :
    c = (a, v) ∨ c ∈ m := by
  induction m with
  | nil => exact .inl (by simpa [memInsert] using h)
  | cons d m ih =>
    obtain ⟨b, w⟩ := d
    unfold memInsert at h
    split at h
    · simpa using h
    · rcases List.mem_cons.mp h with rfl | h
      · exact .inr (by simp)
      · exact (ih h).imp id fun h => by simp [h]

theorem memInsert_rising {m : Memory} {a : Nat} (v : Byte) (h : m.Pairwise fun c d => c.1 < d.1)
    (ha : ∀ c ∈ m, c.1 ≠ a) : (memInsert m a v).Pairwise fun c d => c.1 < d.1 := by
  induction m with
  | nil => simp [memInsert]
  | cons d m ih =>
    obtain ⟨b, w⟩ := d
    have hd := List.pairwise_cons.mp h
    unfold memInsert
    split
    · rename_i hab
      refine List.pairwise_cons.mpr ⟨fun c hc => ?_, h⟩
      rcases List.mem_cons.mp hc with rfl | hc
      · exact hab
      · exact Nat.lt_trans hab (hd.1 c hc)
    · rename_i hab
      have hba : b ≠ a := ha (b, w) (by simp)
      refine List.pairwise_cons.mpr ⟨fun c hc => ?_, ih hd.2 fun c hc => ha c (by simp [hc])⟩
      rcases mem_memInsert hc with rfl | hc
      · show b < a; omega
      · exact hd.1 c hc

/-- Writing a byte of the address space keeps the canonical form. -/
theorem memWrite_wf {m : Memory} (h : Memory.wf m = true) {a : Nat} (ha : a < 2 ^ 33) (v : Byte) :
    Memory.wf (memWrite m a v) = true := by
  have he := memErase_wf h a
  unfold memWrite
  split
  · exact he
  · rename_i hv
    rw [wf_iff] at he ⊢
    refine ⟨memInsert_rising v he.1 fun c hc => fst_ne_of_mem_memErase hc, fun c hc => ?_⟩
    rcases mem_memInsert hc with rfl | hc
    · exact ⟨ha, hv⟩
    · exact he.2 c hc

/-! ### Pixels -/

theorem pixelLowByte_ne_high (o : ByteOrder) (a b : PixAddr) : pixelLowByte o a ≠ pixelHighByte o b := by
  cases o <;> simp [pixelLowByte, pixelHighByte] <;> omega

theorem pixelLowByte_inj (o : ByteOrder) {a b : PixAddr} (h : pixelLowByte o a = pixelLowByte o b) : a = b := by
  cases o <;> exact BitVec.eq_of_toNat_eq (by simp [pixelLowByte] at h; omega)

theorem pixelHighByte_inj (o : ByteOrder) {a b : PixAddr} (h : pixelHighByte o a = pixelHighByte o b) : a = b := by
  cases o <;> exact BitVec.eq_of_toNat_eq (by simp [pixelHighByte] at h; omega)

theorem pixelLowByte_lt (o : ByteOrder) (a : PixAddr) : pixelLowByte o a < 2 ^ 33 := by
  have := a.isLt
  cases o <;> simp [pixelLowByte] <;> omega

theorem pixelHighByte_lt (o : ByteOrder) (a : PixAddr) : pixelHighByte o a < 2 ^ 33 := by
  have := a.isLt
  cases o <;> simp [pixelHighByte] <;> omega

/-- A pixel write leaves every byte of other pixels alone. -/
theorem memRead_writePixel_of_not (m : Memory) (a : PixAddr) (p : Pixel) {b : Nat} (h : ¬ ByteOfPixel a b) :
    memRead (writePixel m a p) b = memRead m b := by
  unfold ByteOfPixel at h
  rw [not_or] at h
  unfold writePixel
  rw [memRead_memWrite_ne _ _ h.2, memRead_memWrite_ne _ _ h.1]

theorem append_halves (p : Pixel) : p.extractLsb' 8 8 ++ p.extractLsb' 0 8 = p := by
  ext i hi
  simp only [BitVec.getElem_append, BitVec.getElem_extractLsb']
  split
  · simp [← BitVec.getLsbD_eq_getElem]
  · rw [show 8 + (i - 8) = i by omega, BitVec.getLsbD_eq_getElem]

/-- A pixel reads the value last written to it (R41). -/
@[simp] theorem readPixel_writePixel_same (m : Memory) (a : PixAddr) (p : Pixel) :
    readPixel (writePixel m a p) a = p := by
  unfold readPixel writePixel
  rw [memRead_memWrite_same, memRead_memWrite_ne _ _ (pixelLowByte_ne_high _ _ _), memRead_memWrite_same]
  exact append_halves p

/-- A pixel write leaves every other pixel alone (R41). -/
theorem readPixel_writePixel_ne (m : Memory) {a b : PixAddr} (p : Pixel) (h : b ≠ a) :
    readPixel (writePixel m a p) b = readPixel m b := by
  unfold readPixel
  rw [memRead_writePixel_of_not, memRead_writePixel_of_not]
  · rintro (h' | h')
    · exact h (pixelLowByte_inj _ h')
    · exact pixelLowByte_ne_high _ _ _ h'
  · rintro (h' | h')
    · exact pixelLowByte_ne_high _ _ _ h'.symm
    · exact h (pixelHighByte_inj _ h')

/-- What a pixel reads after a write, in one line. -/
theorem readPixel_writePixel (m : Memory) (a b : PixAddr) (p : Pixel) :
    readPixel (writePixel m a p) b = if b = a then p else readPixel m b := by
  split
  · simp [*]
  · exact readPixel_writePixel_ne m p ‹_›

/-- A pixel write keeps the canonical form. -/
theorem writePixel_wf {m : Memory} (h : Memory.wf m = true) (a : PixAddr) (p : Pixel) :
    Memory.wf (writePixel m a p) = true :=
  memWrite_wf (memWrite_wf h (pixelLowByte_lt _ a) _) (pixelHighByte_lt _ a) _

/-- The memory of the reset state is in canonical form. -/
theorem reset_mem_wf : Memory.wf State.reset.mem = true := rfl

end Sys2Proof.Machine
end

