-- ==== Sys2Proof/Laws/Pixel.lean ====
section
/-! SUPPORT. What the pixel primitives and lists of them can do (42_pixel_span.md R86 to R88). -/

namespace Sys2Proof.Machine

theorem rowInside_iff (t : Tile) (y : Int) : rowInside t y = true ↔ t.y ≤ y ∧ y < t.y + t.h := by
  simp [rowInside]

theorem inside_iff (t : Tile) (x y : Int) :
    inside t x y = true ↔ (t.x ≤ x ∧ x < t.x + t.w) ∧ (t.y ≤ y ∧ y < t.y + t.h) := by
  simp [inside, rowInside]

/-! ### Frames of the single operations -/

theorem OnlyPixels.refl (s : State) : OnlyPixels s s := by
  simp [OnlyPixels, SameOperands, SameFault, SameTable, SameOutside]

theorem OnlyPixels.trans {s t u : State} (h : OnlyPixels s t) (k : OnlyPixels t u) : OnlyPixels s u := by
  unfold OnlyPixels SameOperands SameFault SameTable SameOutside at *
  obtain ⟨⟨a1, a2, a3, a4, a5, a6, a7, a8, a9, a10, a11, a12, a13, a14, a15, a16, a17⟩, b, ⟨c1, c2, c3⟩,
    ⟨d1, d2, d3⟩, e1, e2⟩ := h
  obtain ⟨⟨k1, k2, k3, k4, k5, k6, k7, k8, k9, k10, k11, k12, k13, k14, k15, k16, k17⟩, l, ⟨m1, m2, m3⟩,
    ⟨n1, n2, n3⟩, o1, o2⟩ := k
  exact ⟨⟨k1.trans a1, k2.trans a2, k3.trans a3, k4.trans a4, k5.trans a5, k6.trans a6, k7.trans a7, k8.trans a8,
    k9.trans a9, k10.trans a10, k11.trans a11, k12.trans a12, k13.trans a13, k14.trans a14, k15.trans a15,
    k16.trans a16, k17.trans a17⟩, l.trans b, ⟨m1.trans c1, m2.trans c2, m3.trans c3⟩,
    ⟨n1.trans d1, n2.trans d2, n3.trans d3⟩, o1.trans e1, o2.trans e2⟩

theorem portWrite_onlyPixels (a : PixAddr) (p : Pixel) (s : State) : OnlyPixels s (portWrite a p s) := by
  simp [OnlyPixels, SameOperands, SameFault, SameTable, SameOutside]

theorem portRead_onlyPixels (a : PixAddr) (s : State) : OnlyPixels s (portRead a s) := by
  simp [OnlyPixels, SameOperands, SameFault, SameTable, SameOutside]

theorem blendAt_onlyPixels (a : PixAddr) (c : Color) (k : Int) (s : State) : OnlyPixels s (blendAt a c k s) :=
  (portRead_onlyPixels a s).trans (portWrite_onlyPixels _ _ _)

@[simp] theorem blendAt_mem (a : PixAddr) (c : Color) (k : Int) (s : State) :
    (blendAt a c k s).mem = writePixel s.mem a (blend565 (readPixel s.mem a) c k) := rfl

@[simp] theorem blendAt_trace (a : PixAddr) (c : Color) (k : Int) (s : State) :
    (blendAt a c k s).trace =
      .write a (blend565 (readPixel s.mem a) c k) :: .read a (readPixel s.mem a) :: s.trace := rfl

/-- Everything a primitive call can do: nothing; one write inside the tile; or a read and a write of one pixel
inside the tile. -/
theorem runOp_cases (o : PixOp) (s : State) :
    runOp o s = s ∨
    (∃ x y p, inside (tileOf s) x y = true ∧ runOp o s = portWrite (pixAddr (tileOf s) x y) p s) ∨
    (∃ x y c k, inside (tileOf s) x y = true ∧ k ≠ 0 ∧ k ≠ 255 ∧ o = .blend x y c k ∧
      runOp o s = blendAt (pixAddr (tileOf s) x y) c k s) := by
  cases o with
  | set x y p =>
    rw [show runOp (.set x y p) s = pixSet x y p s from rfl]
    unfold pixSet
    split
    · exact .inr (.inl ⟨x, y, p, ‹_›, rfl⟩)
    · exact .inl rfl
  | blend x y c k =>
    rw [show runOp (.blend x y c k) s = pixBlend x y c k s from rfl]
    unfold pixBlend
    split
    · split
      · exact .inl rfl
      · split
        · exact .inr (.inl ⟨x, y, _, ‹_›, rfl⟩)
        · exact .inr (.inr ⟨x, y, c, k, ‹_›, ‹_›, ‹_›, rfl, rfl⟩)
    · exact .inl rfl

theorem runOp_onlyPixels (o : PixOp) (s : State) : OnlyPixels s (runOp o s) := by
  obtain h | ⟨x, y, p, -, h⟩ | ⟨x, y, c, k, -, -, -, -, h⟩ := runOp_cases o s <;> rw [h]
  · exact .refl s
  · exact portWrite_onlyPixels _ _ _
  · exact blendAt_onlyPixels _ _ _ _

/-! ### Lists of primitive calls -/

@[simp] theorem runOps_nil (s : State) : runOps [] s = s := rfl

@[simp] theorem runOps_cons (o : PixOp) (ops : List PixOp) (s : State) :
    runOps (o :: ops) s = runOps ops (runOp o s) := rfl

theorem runOps_append (xs ys : List PixOp) (s : State) : runOps (xs ++ ys) s = runOps ys (runOps xs s) := by
  simp [runOps, List.foldl_append]

/-- Drawing changes pixel memory and the engine's accesses at most. -/
theorem runOps_onlyPixels (ops : List PixOp) (s : State) : OnlyPixels s (runOps ops s) := by
  induction ops generalizing s with
  | nil => exact .refl s
  | cons o ops ih => exact (runOp_onlyPixels o s).trans (ih _)

theorem OnlyPixels.tileOf_eq {s t : State} (h : OnlyPixels s t) : tileOf t = tileOf s := by
  obtain ⟨⟨a1, a2, a3, a4, a5, a6, -⟩, -⟩ := h
  simp [tileOf, a1, a2, a3, a4, a5, a6]

@[simp] theorem tileOf_runOp (o : PixOp) (s : State) : tileOf (runOp o s) = tileOf s :=
  (runOp_onlyPixels o s).tileOf_eq

@[simp] theorem tileOf_runOps (ops : List PixOp) (s : State) : tileOf (runOps ops s) = tileOf s :=
  (runOps_onlyPixels ops s).tileOf_eq

theorem runOp_wf (o : PixOp) {s : State} (h : Memory.wf s.mem = true) : Memory.wf (runOp o s).mem = true := by
  obtain e | ⟨x, y, p, -, e⟩ | ⟨x, y, c, k, -, -, -, -, e⟩ := runOp_cases o s <;> rw [e]
  · exact h
  · exact writePixel_wf h _ _
  · exact writePixel_wf h _ _

/-- Drawing keeps the canonical form of memory. -/
theorem runOps_wf (ops : List PixOp) {s : State} (h : Memory.wf s.mem = true) :
    Memory.wf (runOps ops s).mem = true := by
  induction ops generalizing s with
  | nil => exact h
  | cons o ops ih => exact ih (runOp_wf o h)

/-! ### Lists of stores of one pixel value -/

/-- The calls that store `p` at each of a list of points. -/
def storeOps (p : Pixel) (ps : List Point) : List PixOp := ps.map fun r => .set r.x r.y p

theorem runOps_storeOps_trace (p : Pixel) (ps : List Point) (s : State) :
    (runOps (storeOps p ps) s).trace = (storeAccesses (tileOf s) p ps).reverse ++ s.trace := by
  induction ps generalizing s with
  | nil => rfl
  | cons r ps ih =>
    have h := ih (runOp (.set r.x r.y p) s)
    simp only [storeOps, List.map_cons, runOps_cons] at h ⊢
    rw [h, tileOf_runOp]
    by_cases hr : inside (tileOf s) r.x r.y = true <;> simp [storeAccesses, hr, runOp, pixSet]

/-- A pixel that a list of stores hits holds the stored value. -/
theorem readPixel_storeOps_hit (p : Pixel) (ps : List Point) (s : State) (r : Point) (hr : r ∈ ps)
    (hi : inside (tileOf s) r.x r.y = true) :
    readPixel (runOps (storeOps p ps) s).mem (pixAddr (tileOf s) r.x r.y) = p := by
  suffices H : ∀ (ps : List Point) (s : State) (a : PixAddr),
      (readPixel s.mem a = p ∨ ∃ r ∈ ps, inside (tileOf s) r.x r.y = true ∧ pixAddr (tileOf s) r.x r.y = a) →
      readPixel (runOps (storeOps p ps) s).mem a = p from H ps s _ (.inr ⟨r, hr, hi, rfl⟩)
  clear hi hr r s ps
  intro ps
  induction ps with
  | nil => rintro s a (h | ⟨r, hr, -⟩) <;> [exact h; cases hr]
  | cons q ps ih =>
    intro s a h
    refine ih (runOp (.set q.x q.y p) s) a ?_
    rw [tileOf_runOp]
    by_cases hq : inside (tileOf s) q.x q.y = true
    · have hm : (runOp (.set q.x q.y p) s).mem = writePixel s.mem (pixAddr (tileOf s) q.x q.y) p := by
        simp [runOp, pixSet, hq]
      by_cases ha : a = pixAddr (tileOf s) q.x q.y
      · exact .inl (by rw [hm, readPixel_writePixel, if_pos ha])
      · rcases h with h | ⟨r, hr, hi, he⟩
        · exact .inl (by rw [hm, readPixel_writePixel, if_neg ha, h])
        · rcases List.mem_cons.mp hr with rfl | hr
          · exact absurd he.symm ha
          · exact .inr ⟨r, hr, hi, he⟩
    · have hm : runOp (.set q.x q.y p) s = s := by simp [runOp, pixSet, hq]
      rw [hm]
      rcases h with h | ⟨r, hr, hi, he⟩
      · exact .inl h
      · rcases List.mem_cons.mp hr with rfl | hr
        · exact absurd hi hq
        · exact .inr ⟨r, hr, hi, he⟩

/-- A byte of no pixel that a list of stores hits is unchanged. -/
theorem memRead_storeOps_miss (p : Pixel) (ps : List Point) (s : State) (b : Nat)
    (h : ∀ r ∈ ps, inside (tileOf s) r.x r.y = true → ¬ ByteOfPixel (pixAddr (tileOf s) r.x r.y) b) :
    memRead (runOps (storeOps p ps) s).mem b = memRead s.mem b := by
  induction ps generalizing s with
  | nil => rfl
  | cons q ps ih =>
    have hstep : memRead (runOp (.set q.x q.y p) s).mem b = memRead s.mem b := by
      by_cases hq : inside (tileOf s) q.x q.y = true
      · simp only [runOp, pixSet, hq, if_true, portWrite_mem]
        exact memRead_writePixel_of_not _ _ _ (h q (by simp) hq)
      · simp [runOp, pixSet, hq]
    rw [← hstep]
    exact ih _ fun r hr => by rw [tileOf_runOp]; exact h r (by simp [hr])

/-- A list of stores stores. -/
theorem storeOps_stores (p : Pixel) (ps : List Point) (s : State) : Stores s (runOps (storeOps p ps) s) p ps :=
  ⟨runOps_onlyPixels _ _, runOps_storeOps_trace p ps s, fun r hr hi => readPixel_storeOps_hit p ps s r hr hi,
    fun b hb => memRead_storeOps_miss p ps s b fun r hr hi => hb _ ⟨r, hr, hi, rfl⟩⟩

/-- Only the points inside the tile matter. -/
theorem Stores.filter_iff (s t : State) (p : Pixel) (ps : List Point) :
    Stores s t p (ps.filter fun r => inside (tileOf s) r.x r.y) ↔ Stores s t p ps := by
  simp [Stores, storeAccesses, List.filter_filter, and_assoc]

/-! ### Lists of blends -/

/-- A byte of no pixel that a list of blends reaches is unchanged. -/
theorem memRead_blendOps_miss (c : Color) (plots : List (Point × Int)) (s : State) (b : Nat)
    (h : ∀ r ∈ plots, inside (tileOf s) r.1.x r.1.y = true → r.2 ≠ 0 →
      ¬ ByteOfPixel (pixAddr (tileOf s) r.1.x r.1.y) b) :
    memRead (runOps (blendOps c plots) s).mem b = memRead s.mem b := by
  induction plots generalizing s with
  | nil => rfl
  | cons q plots ih =>
    have hstep : memRead (runOp (.blend q.1.x q.1.y c q.2) s).mem b = memRead s.mem b := by
      rw [show runOp (.blend q.1.x q.1.y c q.2) s = pixBlend q.1.x q.1.y c q.2 s from rfl]
      unfold pixBlend
      split
      · rename_i hi
        split
        · rfl
        · rename_i h0
          split <;> exact memRead_writePixel_of_not _ _ _ (h q (by simp) hi h0)
      · rfl
    rw [← hstep]
    exact ih _ fun r hr => by rw [tileOf_runOp]; exact h r (by simp [hr])

/-- A list of blends blends. -/
theorem blendOps_blends (c : Color) (plots : List (Point × Int)) (s : State) :
    Blends s (runOps (blendOps c plots) s) c plots :=
  ⟨rfl, runOps_onlyPixels _ _, fun b hb => memRead_blendOps_miss c plots s b fun r hr hi h0 =>
    hb _ ⟨r, hr, hi, h0, rfl⟩⟩

/-! ### Accesses stay in the footprint -/

/-- Drawing only adds accesses, all of them in the tile's footprint (20_memory.md R43). -/
theorem runOps_trace_footprint (ops : List PixOp) (s : State) :
    ∃ new, (runOps ops s).trace = new ++ s.trace ∧ ∀ x ∈ new, InFootprint (tileOf s) (accessAddr x) := by
  induction ops generalizing s with
  | nil => exact ⟨[], rfl, by simp⟩
  | cons o ops ih =>
    obtain ⟨n1, h1, f1⟩ := ih (runOp o s)
    rw [tileOf_runOp] at f1
    obtain ⟨n0, h0, f0⟩ : ∃ n0, (runOp o s).trace = n0 ++ s.trace ∧
        ∀ x ∈ n0, InFootprint (tileOf s) (accessAddr x) := by
      obtain e | ⟨x, y, p, hi, e⟩ | ⟨x, y, c, k, hi, -, -, -, e⟩ := runOp_cases o s <;> rw [e]
      · exact ⟨[], rfl, by simp⟩
      · exact ⟨[.write _ p], rfl, fun a ha => by
          rw [List.mem_singleton] at ha; subst ha; exact ⟨x, y, hi, rfl⟩⟩
      · refine ⟨[.write _ _, .read _ _], rfl, fun a ha => ?_⟩
        rcases List.mem_pair.mp ha with rfl | rfl <;> exact ⟨x, y, hi, rfl⟩
    refine ⟨n1 ++ n0, by rw [runOps_cons, h1, h0, List.append_assoc], fun x hx => ?_⟩
    rcases List.mem_append.mp hx with h | h
    · exact f1 x h
    · exact f0 x h

/-! ### Spans -/

/-- The columns of a clipped span: those of the run inside the tile (R88). -/
theorem mem_spanColumns (t : Tile) (x0 x1 y x : Int) :
    x ∈ spanColumns t x0 x1 y ↔ x0 ≤ x ∧ x ≤ x1 ∧ inside t x y = true := by
  unfold spanColumns
  split
  · rename_i h
    rw [rowInside_iff] at h
    rw [mem_intRange, inside_iff]
    omega
  · rename_i h
    rw [rowInside_iff] at h
    rw [inside_iff]
    simp only [List.not_mem_nil, false_iff]
    omega

/-- The columns of a span rise. -/
theorem spanColumns_rising (t : Tile) (x0 x1 y : Int) : (spanColumns t x0 x1 y).Pairwise (· < ·) := by
  unfold spanColumns
  split
  · exact intRange_rising _ _
  · exact .nil

theorem spanSetOps_eq (t : Tile) (x0 x1 y : Int) (p : Pixel) :
    spanSetOps t x0 x1 y p = storeOps p ((spanColumns t x0 x1 y).map fun x => ⟨x, y⟩) := by
  simp [spanSetOps, storeOps, Function.comp_def]

/-- The precondition of the unclipped spans: every pixel of the run is inside the tile (R97). -/
theorem runInside_iff (t : Tile) (x0 x1 y : Int) :
    runInside t x0 x1 y = true ↔ ∀ x, x0 ≤ x → x ≤ x1 → inside t x y = true := by
  unfold runInside
  rw [Bool.or_eq_true, Bool.and_eq_true, decide_eq_true_eq]
  constructor
  · rintro (h | ⟨h0, h1⟩) x hx0 hx1
    · omega
    · rw [inside_iff] at h0 h1 ⊢; omega
  · intro h
    by_cases hx : x1 < x0
    · exact .inl hx
    · exact .inr ⟨h x0 (by omega) (by omega), h x1 (by omega) (by omega)⟩

end Sys2Proof.Machine
end

