-- ==== Sys2Proof/Laws/Ops.lean ====
section
/-! SUPPORT. What the shared operations of the commands can do: RES, faults, the table, stages. -/

namespace Sys2Proof.Machine

/-! ### Frames -/

theorem setRes_onlyRes (r : Word) (s : State) : OnlyRes s (setRes r s) := by
  simp [OnlyRes, SameOperands, SameFault, SameTable, SamePixels, SameOutside]

theorem raiseFault_onlyFault (c : Cause) (w : Word) (s : State) : OnlyFault s (raiseFault c w s) := by
  simp [OnlyFault, SameOperands, SameTable, SamePixels, SameOutside]

theorem setTable_onlyTable (zs : List Zoid) (s : State) : OnlyTable s (setTable zs s) := by
  simp [OnlyTable, SameOperands, SameFault, SamePixels, SameOutside]

theorem setTableShrunk_onlyTable (zs : List Zoid) (s : State) : OnlyTable s (setTableShrunk zs s) := by
  simp [OnlyTable, SameOperands, SameFault, SamePixels, SameOutside]

theorem loseTable_onlyTable (s : State) : OnlyTable s (loseTable s) := by
  simp [OnlyTable, SameOperands, SameFault, SamePixels, SameOutside]

theorem storeClipped_onlyTable (w : ClipWork) (s : State) : OnlyTable s (storeClipped w s) := by
  unfold storeClipped
  split
  · exact setTableShrunk_onlyTable _ _
  · exact setTable_onlyTable _ _

theorem OnlyTable.tileOf_eq {s t : State} (h : OnlyTable s t) : tileOf t = tileOf s := by
  obtain ⟨⟨a1, a2, a3, a4, a5, a6, -⟩, -⟩ := h
  simp [tileOf, a1, a2, a3, a4, a5, a6]

/-- The codes of the causes are 1 to 9 (60_exceptions.md R152). -/
theorem causeCode_mem (c : Cause) : 1 ≤ (causeCode c).toNat ∧ (causeCode c).toNat ≤ 9 := by
  cases c <;> decide

/-! ### The coordinate ALU -/

/-- A C command in range writes RES (R69). -/
theorem finishInRange_ok (w : Word) {r : Int} (s : State) (h : inRange32 r = true) :
    finishInRange w r s = setRes (BitVec.ofInt 32 r) s := by simp [finishInRange, h]

/-- A C command out of range faults (R69). -/
theorem finishInRange_fault (w : Word) {r : Int} (s : State) (h : ¬ inRange32 r = true) :
    finishInRange w r s = raiseFault .range w s := by simp [finishInRange, h]

/-! ### The table's registers -/

theorem zoidValid_iff (z : Zoid) : zoidValid z = true ↔ z.y0 ≤ z.y1 ∧ z.xl0 ≤ z.xr0 ∧ z.xl1 ≤ z.xr1 := by
  simp [zoidValid, and_assoc]

/-- All six values of a trapezoid are 32-bit coordinates. -/
def ZoidFits (z : Zoid) : Prop :=
  inRange32 z.xl0 = true ∧ inRange32 z.xr0 = true ∧ inRange32 z.y0 = true ∧
  inRange32 z.xl1 = true ∧ inRange32 z.xr1 = true ∧ inRange32 z.y1 = true

/-- A trapezoid of coordinates reads back from its registers. -/
theorem zoidOf_entryOf {z : Zoid} (h : ZoidFits z) : zoidOf (entryOf z) = z := by
  obtain ⟨h1, h2, h3, h4, h5, h6⟩ := h
  simp only [zoidOf, entryOf, toInt_ofInt_of_inRange h1, toInt_ofInt_of_inRange h2, toInt_ofInt_of_inRange h3,
    toInt_ofInt_of_inRange h4, toInt_ofInt_of_inRange h5, toInt_ofInt_of_inRange h6]

/-- The registers of an entry are those of the trapezoid it holds. -/
@[simp] theorem entryOf_zoidOf (e : ZEntry) : entryOf (zoidOf e) = e := by
  simp [zoidOf, entryOf]

/-- The trapezoids of a table are coordinates. -/
theorem zoidOf_fits (e : ZEntry) : ZoidFits (zoidOf e) := by
  simp [ZoidFits, zoidOf, toInt_inRange]

/-- The valid part of a table after trapezoids have been stored from entry 0 on. -/
theorem take_storedTable (zs : List Zoid) (rest : ZTable) (h : zs.length ≤ 5) :
    (zEntries (storedTable zs rest)).take zs.length = zs.map entryOf := by
  rcases zs with _ | ⟨a, _ | ⟨b, _ | ⟨c, _ | ⟨d, _ | ⟨e, _ | ⟨f, zs⟩⟩⟩⟩⟩⟩ <;>
    first
    | rfl
    | (simp only [List.length_cons] at h; omega)

theorem toNat_count (n : Nat) (h : n ≤ 5) : (BitVec.ofNat 3 n).toNat = n := by
  simp only [BitVec.toNat_ofNat]; omega

theorem map_zoidOf_entryOf {zs : List Zoid} (h : ∀ z ∈ zs, ZoidFits z) :
    (zs.map entryOf).map zoidOf = zs := by
  rw [List.map_map]
  conv_rhs => rw [← List.map_id zs]
  exact List.map_congr_left fun z hz => zoidOf_entryOf (h z hz)

/-- The stored trapezoids are what the commands read afterwards. -/
theorem zoidsOf_setTable {zs : List Zoid} (s : State) (hl : zs.length ≤ 5) (h : ∀ z ∈ zs, ZoidFits z) :
    zoidsOf (setTable zs s) = zs := by
  simp only [zoidsOf, setTable_zn, setTable_z, toNat_count _ hl, take_storedTable _ _ hl]
  exact map_zoidOf_entryOf h

/-- The stored trapezoids are what the commands read afterwards. -/
theorem zoidsOf_setTableShrunk {zs : List Zoid} (s : State) (hl : zs.length ≤ 5) (h : ∀ z ∈ zs, ZoidFits z) :
    zoidsOf (setTableShrunk zs s) = zs := by
  simp only [zoidsOf, setTableShrunk_zn, setTableShrunk_z, toNat_count _ hl, take_storedTable _ _ hl]
  exact map_zoidOf_entryOf h

theorem zoidsOf_storeClipped {w : ClipWork} (s : State) (hl : w.zs.length ≤ 5) (h : ∀ z ∈ w.zs, ZoidFits z) :
    zoidsOf (storeClipped w s) = w.zs := by
  unfold storeClipped
  split
  · exact zoidsOf_setTableShrunk s hl h
  · exact zoidsOf_setTable s hl h

/-- The number of valid entries is ZN when ZN is at most 5. -/
theorem length_zoidsOf (s : State) (h : s.zn.toNat ≤ 5) : (zoidsOf s).length = s.zn.toNat := by
  simp only [zoidsOf, zEntries, List.length_map, List.length_take, List.length_cons, List.length_nil]
  omega

theorem mem_zoidsOf_fits {s : State} {z : Zoid} (h : z ∈ zoidsOf s) : ZoidFits z := by
  obtain ⟨e, -, rfl⟩ := List.mem_map.mp h
  exact zoidOf_fits e

theorem storedEntry_of_some {zs : List Zoid} {i : Nat} {z : Zoid} (h : zs[i]? = some z) (r : ZEntry) :
    storedEntry zs i r = entryOf z := by simp [storedEntry, h]

theorem storedEntry_of_none {zs : List Zoid} {i : Nat} (h : zs[i]? = none) (r : ZEntry) :
    storedEntry zs i r = r := by simp [storedEntry, h]

/-- Storing the valid part of a table changes nothing. -/
theorem setTable_zoidsOf (s : State) (h : s.zn.toNat ≤ 5) : setTable (zoidsOf s) s = s := by
  have hn : BitVec.ofNat 3 (zoidsOf s).length = s.zn := by
    rw [length_zoidsOf s h]; simp
  have hz : storedTable (zoidsOf s) s.z = s.z := by
    have key : ∀ i (r : ZEntry), (zEntries s.z)[i]? = some r → storedEntry (zoidsOf s) i r = r := by
      intro i r hr
      by_cases hi : i < s.zn.toNat
      · rw [storedEntry_of_some (z := zoidOf r)]
        · exact entryOf_zoidOf r
        · simp [zoidsOf, hi, hr]
      · rw [storedEntry_of_none]
        simp [zoidsOf, hi]
    simp only [storedTable]
    rw [key 0 s.z.e0 rfl, key 1 s.z.e1 rfl, key 2 s.z.e2 rfl, key 3 s.z.e3 rfl, key 4 s.z.e4 rfl]
  unfold setTable
  rw [hn, hz]

/-! ### The checks of the table -/

/-- `check_table` passes exactly on at most five valid entries (R120). -/
theorem checkTable_none_iff (s : State) :
    checkTable s = none ↔ s.zn.toNat ≤ 5 ∧ ∀ z ∈ zoidsOf s, zoidValid z = true := by
  unfold checkTable
  split
  · rename_i h; simp [Config.zMax] at h; simp; omega
  · rename_i h; simp [Config.zMax] at h
    split <;> simp_all

/-- `check_table` reports the count first, then validity (R120). -/
theorem checkTable_some_iff (s : State) (c : Cause) :
    checkTable s = some c ↔
      (5 < s.zn.toNat ∧ c = .zoidCount) ∨
      (s.zn.toNat ≤ 5 ∧ (∃ z ∈ zoidsOf s, ¬ zoidValid z = true) ∧ c = .zoidInvalid) := by
  unfold checkTable
  split
  · rename_i h
    have h5 : 5 < s.zn.toNat := h
    simp only [Option.some.injEq, h5, true_and, show ¬ s.zn.toNat ≤ 5 by omega, false_and, or_false]
    exact eq_comm
  · rename_i h
    have h5 : ¬ 5 < s.zn.toNat := h
    split
    · rename_i hv
      rw [List.all_eq_true] at hv
      simp only [reduceCtorEq, h5, false_and, false_or, false_iff, not_and]
      rintro - ⟨z, hz, hn⟩
      exact absurd (hv z hz) hn
    · rename_i hv
      have hx : ∃ z ∈ zoidsOf s, ¬ zoidValid z = true := by
        rw [List.all_eq_true] at hv
        by_contra hc
        exact hv fun z hz => by_contra fun hn => hc ⟨z, hz, hn⟩
      simp only [Option.some.injEq, h5, false_and, false_or, show s.zn.toNat ≤ 5 by omega, true_and, hx]
      exact eq_comm

/-- The entry checks of Z.CLIP pass exactly on at most five valid, contiguous entries (R136). -/
theorem clipEntryCheck_none_iff (s : State) :
    clipEntryCheck s = none ↔
      s.zn.toNat ≤ 5 ∧ (∀ z ∈ zoidsOf s, zoidValid z = true) ∧ contiguous (zoidsOf s) = true := by
  rw [← and_assoc, ← checkTable_none_iff]
  unfold clipEntryCheck
  split <;> simp_all

/-! ### Stages -/

@[simp] theorem finishStage_ok (w : Word) (s : State) : finishStage w (.ok s) = .next s := rfl

@[simp] theorem finishStage_error (w : Word) (c : Cause) (s : State) :
    finishStage w (.error (c, s)) = .next (raiseFault c w s) := rfl

@[simp] theorem andThen_ok (s : State) (f : State → Stage) : andThen (.ok s) f = f s := rfl

@[simp] theorem andThen_error (e : Cause × State) (f : State → Stage) : andThen (.error e) f = .error e := rfl

/-- A command made of stages always answers a next state. -/
theorem finishStage_next (w : Word) (r : Stage) : ∃ t, finishStage w r = .next t := by
  rcases r with ⟨c, s⟩ | s <;> exact ⟨_, rfl⟩

/-- Everything the clip stage can do: an entry fault with the table unchanged, a fault inside the passes with
the table lost, or the clipped table stored. -/
theorem clipStage_cases (s : State) :
    (∃ c, clipEntryCheck s = some c ∧ clipStage s = .error (c, s)) ∨
    (∃ c, clipEntryCheck s = none ∧ clipPasses (clipRect (tileOf s)) (zoidsOf s) = .error c ∧
      clipStage s = .error (c, loseTable s)) ∨
    (∃ w, clipEntryCheck s = none ∧ clipPasses (clipRect (tileOf s)) (zoidsOf s) = .ok w ∧
      clipStage s = .ok (storeClipped w s)) := by
  unfold clipStage
  split
  · exact .inl ⟨_, ‹_›, rfl⟩
  · split
    · exact .inr (.inl ⟨_, ‹_›, ‹_›, rfl⟩)
    · exact .inr (.inr ⟨_, ‹_›, ‹_›, rfl⟩)

/-- A fill stage on a table that passes the check draws its entries. -/
theorem fillStage_ok {s : State} (h : checkTable s = none) :
    fillStage s = .ok (runOps ((zoidsOf s).flatMap (hardFillOps (tileOf s) (pack565 s.color))) s) := by
  simp [fillStage, h]

theorem fillAaStage_ok {s : State} (h : checkTable s = none) :
    fillAaStage s = .ok (runOps ((zoidsOf s).flatMap (aaFillOps (tileOf s) s.color (alphaOf s))) s) := by
  simp [fillAaStage, h]

/-- A fill stage on a table that fails the check faults in the state as it was. -/
theorem fillStage_error {s : State} {c : Cause} (h : checkTable s = some c) : fillStage s = .error (c, s) := by
  simp [fillStage, h]

theorem fillAaStage_error {s : State} {c : Cause} (h : checkTable s = some c) :
    fillAaStage s = .error (c, s) := by
  simp [fillAaStage, h]

end Sys2Proof.Machine
end

