-- ==== Sys2Proof/Laws/Clip.lean ====
section
/-! SUPPORT. What the pieces of the clipper can do (45_zoid_clip.md R138, R141, R146, R147). -/

namespace Sys2Proof.Machine

/-! ### Intersections -/

/-- The quotient of the helpers is the floor of the exact quotient, for either sign of the divisor. -/
theorem isectQuot_of_pos {num den : Int} (h : 0 < den) : isectQuot num den = num / den := by
  simp [isectQuot, fdiv, show ¬ den < 0 by omega]

theorem isectQuot_of_neg {num den : Int} (h : den < 0) : isectQuot num den = -num / -den := by
  simp [isectQuot, fdiv, h]

/-- The quotient lies between 0 and the exact factor `k`, when the numerator does on the divisor's scale. -/
theorem isectQuot_mul_between {d den k : Int} (hden : den ≠ 0) (h : (0 ≤ k ∧ k ≤ den) ∨ (den ≤ k ∧ k ≤ 0)) :
    min 0 d ≤ isectQuot (d * k) den ∧ isectQuot (d * k) den ≤ max 0 d := by
  rcases lt_or_gt_of_ne hden with hn | hp
  · have hk : 0 ≤ -k ∧ -k ≤ -den := by omega
    have := interp_between (x0 := 0) (x1 := d) (dy := -k) (h := -den) (by omega) hk.1 hk.2
    rw [isectQuot_of_neg hn, show -(d * k) = d * -k by ring]
    simpa using this
  · have hk : 0 ≤ k ∧ k ≤ den := by omega
    have := interp_between (x0 := 0) (x1 := d) (dy := k) (h := den) hp hk.1 hk.2
    rw [isectQuot_of_pos hp]
    simpa using this

/-- `x_at_y` on an edge of positive height, at a height between its ends, gives an x between its ends (R138). -/
theorem xAtY_between {xa ya xb yb yc : Int} (h : ya < yb) (h0 : ya ≤ yc) (h1 : yc ≤ yb) :
    ∃ x, xAtY xa ya xb yb yc = .ok x ∧ min xa xb ≤ x ∧ x ≤ max xa xb := by
  refine ⟨xa + isectQuot ((xb - xa) * (yc - ya)) (yb - ya), by simp [xAtY, show ya ≠ yb by omega], ?_⟩
  have := isectQuot_mul_between (d := xb - xa) (den := yb - ya) (k := yc - ya) (by omega) (.inl (by omega))
  omega

/-- `y_at_x` on an edge that is not vertical, at a column between its ends, gives a height between its ends
(R138). -/
theorem yAtX_between {xa ya xb yb xc : Int} (h : (xa ≤ xc ∧ xc ≤ xb ∧ xa < xb) ∨ (xb ≤ xc ∧ xc ≤ xa ∧ xb < xa)) :
    ∃ y, yAtX xa ya xb yb xc = .ok y ∧ min ya yb ≤ y ∧ y ≤ max ya yb := by
  refine ⟨ya + isectQuot ((yb - ya) * (xc - xa)) (xb - xa), by simp [yAtX, show xa ≠ xb by omega], ?_⟩
  have := isectQuot_mul_between (d := yb - ya) (den := xb - xa) (k := xc - xa) (by omega) (by omega)
  omega

/-- The helpers fault exactly on an edge they cannot solve (R138). -/
theorem xAtY_error_iff (xa ya xb yb yc : Int) (c : Cause) :
    xAtY xa ya xb yb yc = .error c ↔ ya = yb ∧ c = .degenerateEdge := by
  unfold xAtY
  split <;> simp_all [eq_comm]

theorem yAtX_error_iff (xa ya xb yb xc : Int) (c : Cause) :
    yAtX xa ya xb yb xc = .error c ↔ xa = xb ∧ c = .degenerateEdge := by
  unfold yAtX
  split <;> simp_all [eq_comm]

/-! ### Discard and append -/

/-- A discard leaves entries of the table only, one fewer. -/
theorem discardAt_spec {w : ClipWork} {i : Nat} (h : i < w.zs.length) :
    (discardAt w i).shrunk = true ∧ (discardAt w i).zs.length = w.zs.length - 1 ∧
      ∀ z ∈ (discardAt w i).zs, z ∈ w.zs := by
  have hne : w.zs ≠ [] := by rintro e; simp [e] at h
  unfold discardAt
  rw [List.getLast?_eq_getLast_of_ne_nil hne]
  refine ⟨rfl, by simp, fun z hz => ?_⟩
  rcases List.mem_or_eq_of_mem_set (List.mem_of_mem_dropLast hz) with h | h
  · exact h
  · exact h ▸ List.getLast_mem hne

/-- A split rewrites entry i and appends one, or faults on a full table (R146). -/
theorem splitAt_cases (w : ClipWork) (i : Nat) (z low : Zoid) :
    (5 ≤ w.zs.length ∧ splitAt w i z low = .error .zoidOverflow) ∨
    (w.zs.length < 5 ∧ splitAt w i z low = .ok { w with zs := w.zs.set i z ++ [low] }) := by
  unfold splitAt
  split
  · exact .inl ⟨‹_›, rfl⟩
  · rename_i h
    exact .inr ⟨by simpa [Config.zMax] using h, rfl⟩

/-! ### One visit of an x pass (R141) -/

section
variable (visit : Zoid → Except Cause (Option ClipAction)) (n i : Nat) (w : ClipWork)

theorem clipX_done (h : w.zs.length ≤ i) : clipX visit (n + 1) i w = .ok w := by
  simp [clipX, List.getElem?_eq_none h]

variable {visit i w} {z : Zoid} (hz : w.zs[i]? = some z)
include hz

theorem clipX_error {c : Cause} (h : visit z = .error c) : clipX visit (n + 1) i w = .error c := by
  simp [clipX, hz, h]

theorem clipX_advance (h : visit z = .ok none) : clipX visit (n + 1) i w = clipX visit n (i + 1) w := by
  simp [clipX, hz, h]

theorem clipX_discard (h : visit z = .ok (some .discard)) :
    clipX visit (n + 1) i w = clipX visit n i (discardAt w i) := by
  simp [clipX, hz, h]

theorem clipX_rewrite {z' : Zoid} (h : visit z = .ok (some (.rewrite z'))) :
    clipX visit (n + 1) i w = clipX visit n i { w with zs := w.zs.set i z' } := by
  simp [clipX, hz, h]

theorem clipX_split {z' low : Zoid} (h : visit z = .ok (some (.split z' low))) (hl : w.zs.length < 5) :
    clipX visit (n + 1) i w = clipX visit n i { w with zs := w.zs.set i z' ++ [low] } := by
  simp [clipX, hz, h, splitAt, Config.zMax, show ¬ 5 ≤ w.zs.length by omega]

theorem clipX_overflow {z' low : Zoid} (h : visit z = .ok (some (.split z' low))) (hl : 5 ≤ w.zs.length) :
    clipX visit (n + 1) i w = .error .zoidOverflow := by
  simp [clipX, hz, h, splitAt, Config.zMax, hl]

end

/-- An x pass that faults names a cause that a visit gives, or a full table. -/
theorem clipX_cause {visit : Zoid → Except Cause (Option ClipAction)} {n i : Nat} {w : ClipWork} {c : Cause}
    (h : clipX visit n i w = .error c) : c = .zoidOverflow ∨ ∃ z, visit z = .error c := by
  induction n generalizing i w with
  | zero => cases h
  | succ n ih =>
    cases hz : w.zs[i]? with
    | none => rw [clipX, hz] at h; cases h
    | some z =>
      cases hv : visit z with
      | error c' => rw [clipX_error n hz hv] at h; cases h; exact .inr ⟨z, hv⟩
      | ok o =>
        rcases o with _ | ⟨_ | z' | ⟨z', low⟩⟩
        · rw [clipX_advance n hz hv] at h; exact ih h
        · rw [clipX_discard n hz hv] at h; exact ih h
        · rw [clipX_rewrite n hz hv] at h; exact ih h
        · by_cases hl : w.zs.length < 5
          · rw [clipX_split n hz hv hl] at h; exact ih h
          · rw [clipX_overflow n hz hv (by omega)] at h; cases h; exact .inl rfl

end Sys2Proof.Machine
end

