-- ==== Sys2Proof/Laws/ClipPasses.lean ====
section
/-! SUPPORT. What the passes of the clipper can do: every case of an x pass on a valid entry, and the loop
(45_zoid_clip.md R139 to R147). -/

namespace Sys2Proof.Machine

/-! ### One visit -/

/-- A valid entry with its x values in `L` to `H` and its y values in `T` to `B`. -/
def Within (L H T B : Int) (z : Zoid) : Prop :=
  zoidValid z = true ∧ (L ≤ z.xl0 ∧ z.xr0 ≤ H) ∧ (L ≤ z.xl1 ∧ z.xr1 ≤ H) ∧ T ≤ z.y0 ∧ z.y1 ≤ B

theorem Within.mono {L H T B T' B' : Int} {z : Zoid} (h : Within L H T B z) (hT : T' ≤ T) (hB : B ≤ B') :
    Within L H T' B' z := by
  obtain ⟨h0, h1, h2, h3, h4⟩ := h
  exact ⟨h0, h1, h2, by omega, by omega⟩

/-- `x_at_y` on an edge of positive height (R138). -/
theorem xAtY_eq {xa ya xb yb yc : Int} (h : ya < yb) :
    xAtY xa ya xb yb yc = .ok (xa + (xb - xa) * (yc - ya) / (yb - ya)) := by
  rw [xAtY, if_neg (by omega), isectQuot_of_pos (by omega)]

/-- The edges of an entry of positive height, in closed form (R138). -/
theorem leftAt_eq {z : Zoid} (h : z.y0 < z.y1) (yc : Int) : leftAt z yc = .ok (edgeAt z z.xl0 z.xl1 yc) := xAtY_eq h

theorem rightAt_eq {z : Zoid} (h : z.y0 < z.y1) (yc : Int) : rightAt z yc = .ok (edgeAt z z.xr0 z.xr1 yc) := xAtY_eq h

/-- An edge of an entry lies between its ends (R138). -/
theorem edgeAt_between {z : Zoid} {yc : Int} (a0 a1 : Int) (h : z.y0 < z.y1) (h0 : z.y0 ≤ yc) (h1 : yc ≤ z.y1) :
    min a0 a1 ≤ edgeAt z a0 a1 yc ∧ edgeAt z a0 a1 yc ≤ max a0 a1 := by
  have := interp_between (x0 := a0) (x1 := a1) (dy := yc - z.y0) (h := z.y1 - z.y0) (by omega) (by omega) (by omega)
  exact this

/-- The crossing height on an edge that runs to the right, and on one that runs to the left. -/
theorem heightAt_right (z : Zoid) {a0 a1 : Int} (b : Int) (h : a0 < a1) :
    heightAt z a0 a1 b = z.y0 + (z.y1 - z.y0) * (b - a0) / (a1 - a0) := by
  rw [heightAt, Int.sign_eq_one_of_pos (by omega), Int.natAbs_of_nonneg (by omega), mul_one]

theorem heightAt_left (z : Zoid) {a0 a1 : Int} (b : Int) (h : a1 < a0) :
    heightAt z a0 a1 b = z.y0 + (z.y1 - z.y0) * (a0 - b) / (a0 - a1) := by
  rw [heightAt, Int.sign_eq_neg_one_of_neg (by omega), Int.ofNat_natAbs_of_nonpos (by omega)]
  congr 2 <;> ring

/-- `y_at_x` on an edge that is not vertical gives the crossing height (R138). -/
theorem yAtX_eq (z : Zoid) {a0 a1 : Int} (b : Int) (h : a0 ≠ a1) :
    yAtX a0 z.y0 a1 z.y1 b = .ok (heightAt z a0 a1 b) := by
  rw [yAtX, if_neg h]
  rcases lt_or_gt_of_ne h with h | h
  · rw [heightAt_right z b h, isectQuot_of_pos (by omega)]
  · rw [heightAt_left z b h, isectQuot_of_neg (by omega)]
    congr 3 <;> ring

theorem leftReaches_eq {z : Zoid} (h : z.xl0 ≠ z.xl1) (b : Int) :
    leftReaches z b = .ok (heightAt z z.xl0 z.xl1 b) := yAtX_eq z b h

theorem rightReaches_eq {z : Zoid} (h : z.xr0 ≠ z.xr1) (b : Int) :
    rightReaches z b = .ok (heightAt z z.xr0 z.xr1 b) := yAtX_eq z b h

/-- The crossing height lies within the entry's rows when the bound is between the ends of the edge (R138). -/
theorem heightAt_between {z : Zoid} {a0 a1 b : Int} (hy : z.y0 ≤ z.y1) (h : a0 ≠ a1)
    (hb : (a0 ≤ b ∧ b ≤ a1) ∨ (a1 ≤ b ∧ b ≤ a0)) : z.y0 ≤ heightAt z a0 a1 b ∧ heightAt z a0 a1 b ≤ z.y1 := by
  have key : ∀ k d : Int, 0 < d → 0 ≤ k → k ≤ d →
      z.y0 ≤ z.y0 + (z.y1 - z.y0) * k / d ∧ z.y0 + (z.y1 - z.y0) * k / d ≤ z.y1 := fun k d hd h0 h1 => by
    have := interp_between (x0 := z.y0) (x1 := z.y1) hd h0 h1
    omega
  rcases lt_or_gt_of_ne h with h | h
  · rw [heightAt_right z b h]; exact key _ _ (by omega) (by omega) (by omega)
  · rw [heightAt_left z b h]; exact key _ _ (by omega) (by omega) (by omega)

/-- Two crossing heights come in the order of the exact quotients `p/q` and `r/s`. -/
theorem ediv_le_ediv_of_cross {H p q r s : Int} (hH : 0 ≤ H) (hq : 0 < q) (hs : 0 < s) (h : p * s ≤ r * q) :
    H * p / q ≤ H * r / s := by
  rw [Int.le_ediv_iff_mul_le hs]
  have h1 : H * p / q * q ≤ H * p := Int.ediv_mul_le _ (by omega)
  have h2 : (H * p / q * s) * q ≤ (H * r) * q := by
    calc (H * p / q * s) * q = (H * p / q * q) * s := by ring
      _ ≤ (H * p) * s := mul_le_mul_of_nonneg_right h1 hs.le
      _ = H * (p * s) := by ring
      _ ≤ H * (r * q) := mul_le_mul_of_nonneg_left h hH
      _ = (H * r) * q := by ring
  exact le_of_mul_le_mul_right h2 hq

/-- Of two edges that cross the bound to the right, the one further right crosses first (R143, mask 3; R145,
mask 12). -/
theorem heightAt_cross_right {z : Zoid} {a0 a1 c0 c1 b : Int} (hy : z.y0 ≤ z.y1) (h0 : a0 ≤ c0) (h1 : a1 ≤ c1)
    (hc0 : c0 ≤ b) (ha1 : b ≤ a1) (ha : a0 < a1) (hc : c0 < c1) : heightAt z c0 c1 b ≤ heightAt z a0 a1 b := by
  rw [heightAt_right z b ha, heightAt_right z b hc]
  have := ediv_le_ediv_of_cross (H := z.y1 - z.y0) (p := b - c0) (q := c1 - c0) (r := b - a0) (s := a1 - a0)
    (by omega) (by omega) (by omega) (by nlinarith)
  omega

/-- Of two edges that cross the bound to the left, the one further left crosses first (R143, mask 12; R145,
mask 3). -/
theorem heightAt_cross_left {z : Zoid} {a0 a1 c0 c1 b : Int} (hy : z.y0 ≤ z.y1) (h0 : a0 ≤ c0) (h1 : a1 ≤ c1)
    (ha0 : b ≤ a0) (hc1 : c1 ≤ b) (ha : a1 < a0) (hc : c1 < c0) : heightAt z a0 a1 b ≤ heightAt z c0 c1 b := by
  rw [heightAt_left z b ha, heightAt_left z b hc]
  have := ediv_le_ediv_of_cross (H := z.y1 - z.y0) (p := a0 - b) (q := a0 - a1) (r := c0 - b) (s := c0 - c1)
    (by omega) (by omega) (by omega) (by nlinarith)
  omega

/-- What a case of the min-x pass on a valid entry of positive height gives (R142, R143): the mask is realizable, no
helper faults, the result is what `leftCut` says, and each entry of it is valid, right of the bound, below `H`
and within the entry's rows. -/
theorem minXCase_spec {b H : Int} {z : Zoid} (hv : zoidValid z = true) (hy : z.y0 < z.y1) (hb : b ≤ H)
    (h0 : z.xr0 ≤ H) (h1 : z.xr1 ≤ H) (hm : minXMask b z ≠ 0) :
    (minXCase b (minXMask b z) z = .ok .discard ∧ leftCut b z = []) ∨
    (∃ z', minXCase b (minXMask b z) z = .ok (.rewrite z') ∧ leftCut b z = [z'] ∧ Within b H z.y0 z.y1 z') ∨
    (∃ z' low, minXCase b (minXMask b z) z = .ok (.split z' low) ∧ leftCut b z = [z', low] ∧ Within b H z.y0 z.y1 z' ∧
      Within b H z.y0 z.y1 low) := by
  obtain ⟨hy', hx0, hx1⟩ := (zoidValid_iff z).1 hv
  have he : ∀ yc, z.y0 ≤ yc → yc ≤ z.y1 → _ := fun yc => edgeAt_between z.xr0 z.xr1 hy (yc := yc)
  by_cases a0 : z.xl0 < b <;> by_cases a1 : z.xr0 < b <;> by_cases a2 : z.xl1 < b <;> by_cases a3 : z.xr1 < b <;>
    first | (exfalso; omega) | skip
  all_goals
    simp only [minXMask, mask4, leftCut, ← not_lt, a0, a1, a2, a3, decide_true, decide_false, Bool.toNat_true,
      Bool.toNat_false, Nat.reduceMul, Nat.reduceAdd, not_true_eq_false, not_false_eq_true, and_self, and_true,
      and_false, if_true, if_false] at hm ⊢
  -- 15
  · exact .inl rfl
  -- 7
  · have k := heightAt_between (z := z) (a0 := z.xr0) (a1 := z.xr1) (b := b) hy' (by omega) (by omega)
    refine .inr (.inl ⟨_, by simp only [minXCase, rightReaches_eq (show z.xr0 ≠ z.xr1 by omega)]; rfl, rfl, ?_⟩)
    simp only [Within, zoidValid_iff]
    omega
  -- 3
  · have kr := heightAt_between (z := z) (a0 := z.xr0) (a1 := z.xr1) (b := b) hy' (by omega) (by omega)
    have kl := heightAt_between (z := z) (a0 := z.xl0) (a1 := z.xl1) (b := b) hy' (by omega) (by omega)
    have hc := heightAt_cross_right (z := z) (b := b) hy' hx0 hx1 (by omega) (by omega) (by omega) (by omega)
    have := he _ kl.1 kl.2
    refine .inr (.inr ⟨_, _, by
      simp only [minXCase, leftReaches_eq (show z.xl0 ≠ z.xl1 by omega), rightReaches_eq (show z.xr0 ≠ z.xr1 by omega),
        rightAt_eq hy, bind, Except.bind], rfl, ?_, ?_⟩) <;>
    · simp only [Within, zoidValid_iff]
      omega
  -- 13
  · have k := heightAt_between (z := z) (a0 := z.xr0) (a1 := z.xr1) (b := b) hy' (by omega) (by omega)
    refine .inr (.inl ⟨_, by simp only [minXCase, rightReaches_eq (show z.xr0 ≠ z.xr1 by omega)]; rfl, rfl, ?_⟩)
    simp only [Within, zoidValid_iff]
    omega
  -- 5
  · refine .inr (.inl ⟨_, rfl, rfl, ?_⟩)
    simp only [Within, zoidValid_iff]
    omega
  -- 1
  · have k := heightAt_between (z := z) (a0 := z.xl0) (a1 := z.xl1) (b := b) hy' (by omega) (by omega)
    have := he _ k.1 k.2
    refine .inr (.inr ⟨_, _, by
      simp only [minXCase, leftReaches_eq (show z.xl0 ≠ z.xl1 by omega), rightAt_eq hy, bind, Except.bind], rfl, ?_, ?_⟩) <;>
    · simp only [Within, zoidValid_iff]
      omega
  -- 12
  · have kr := heightAt_between (z := z) (a0 := z.xr0) (a1 := z.xr1) (b := b) hy' (by omega) (by omega)
    have kl := heightAt_between (z := z) (a0 := z.xl0) (a1 := z.xl1) (b := b) hy' (by omega) (by omega)
    have hc := heightAt_cross_left (z := z) (b := b) hy' hx0 hx1 (by omega) (by omega) (by omega) (by omega)
    have := he _ kl.1 kl.2
    refine .inr (.inr ⟨_, _, by
      simp only [minXCase, leftReaches_eq (show z.xl0 ≠ z.xl1 by omega), rightReaches_eq (show z.xr0 ≠ z.xr1 by omega),
        rightAt_eq hy, bind, Except.bind], rfl, ?_, ?_⟩) <;>
    · simp only [Within, zoidValid_iff]
      omega
  -- 4
  · have k := heightAt_between (z := z) (a0 := z.xl0) (a1 := z.xl1) (b := b) hy' (by omega) (by omega)
    have := he _ k.1 k.2
    refine .inr (.inr ⟨_, _, by
      simp only [minXCase, leftReaches_eq (show z.xl0 ≠ z.xl1 by omega), rightAt_eq hy, bind, Except.bind], rfl, ?_, ?_⟩) <;>
    · simp only [Within, zoidValid_iff]
      omega
  -- 0
  · exact absurd rfl hm

/-- The mirror image for the max-x pass (R144, R145). -/
theorem maxXCase_spec {b L : Int} {z : Zoid} (hv : zoidValid z = true) (hy : z.y0 < z.y1) (hb : L ≤ b)
    (h0 : L ≤ z.xl0) (h1 : L ≤ z.xl1) (hm : maxXMask b z ≠ 0) :
    (maxXCase b (maxXMask b z) z = .ok .discard ∧ rightCut b z = []) ∨
    (∃ z', maxXCase b (maxXMask b z) z = .ok (.rewrite z') ∧ rightCut b z = [z'] ∧ Within L b z.y0 z.y1 z') ∨
    (∃ z' low, maxXCase b (maxXMask b z) z = .ok (.split z' low) ∧ rightCut b z = [z', low] ∧ Within L b z.y0 z.y1 z' ∧
      Within L b z.y0 z.y1 low) := by
  obtain ⟨hy', hx0, hx1⟩ := (zoidValid_iff z).1 hv
  have he : ∀ yc, z.y0 ≤ yc → yc ≤ z.y1 → _ := fun yc => edgeAt_between z.xl0 z.xl1 hy (yc := yc)
  by_cases a0 : b < z.xl0 <;> by_cases a1 : b < z.xr0 <;> by_cases a2 : b < z.xl1 <;> by_cases a3 : b < z.xr1 <;>
    first | (exfalso; omega) | skip
  all_goals
    simp only [maxXMask, mask4, rightCut, ← not_lt, a0, a1, a2, a3, decide_true, decide_false, Bool.toNat_true,
      Bool.toNat_false, Nat.reduceMul, Nat.reduceAdd, not_true_eq_false, not_false_eq_true, and_self, and_true,
      and_false, if_true, if_false] at hm ⊢
  -- 15
  · exact .inl rfl
  -- 11
  · have k := heightAt_between (z := z) (a0 := z.xl0) (a1 := z.xl1) (b := b) hy' (by omega) (by omega)
    refine .inr (.inl ⟨_, by simp only [maxXCase, leftReaches_eq (show z.xl0 ≠ z.xl1 by omega)]; rfl, rfl, ?_⟩)
    simp only [Within, zoidValid_iff]
    omega
  -- 3
  · have kr := heightAt_between (z := z) (a0 := z.xr0) (a1 := z.xr1) (b := b) hy' (by omega) (by omega)
    have kl := heightAt_between (z := z) (a0 := z.xl0) (a1 := z.xl1) (b := b) hy' (by omega) (by omega)
    have hc := heightAt_cross_left (z := z) (b := b) hy' hx0 hx1 (by omega) (by omega) (by omega) (by omega)
    have := he _ kr.1 kr.2
    refine .inr (.inr ⟨_, _, by
      simp only [maxXCase, leftReaches_eq (show z.xl0 ≠ z.xl1 by omega), rightReaches_eq (show z.xr0 ≠ z.xr1 by omega),
        leftAt_eq hy, bind, Except.bind], rfl, ?_, ?_⟩) <;>
    · simp only [Within, zoidValid_iff]
      omega
  -- 14
  · have k := heightAt_between (z := z) (a0 := z.xl0) (a1 := z.xl1) (b := b) hy' (by omega) (by omega)
    refine .inr (.inl ⟨_, by simp only [maxXCase, leftReaches_eq (show z.xl0 ≠ z.xl1 by omega)]; rfl, rfl, ?_⟩)
    simp only [Within, zoidValid_iff]
    omega
  -- 10
  · refine .inr (.inl ⟨_, rfl, rfl, ?_⟩)
    simp only [Within, zoidValid_iff]
    omega
  -- 2
  · have k := heightAt_between (z := z) (a0 := z.xr0) (a1 := z.xr1) (b := b) hy' (by omega) (by omega)
    have := he _ k.1 k.2
    refine .inr (.inr ⟨_, _, by
      simp only [maxXCase, rightReaches_eq (show z.xr0 ≠ z.xr1 by omega), leftAt_eq hy, bind, Except.bind], rfl, ?_, ?_⟩) <;>
    · simp only [Within, zoidValid_iff]
      omega
  -- 12
  · have kr := heightAt_between (z := z) (a0 := z.xr0) (a1 := z.xr1) (b := b) hy' (by omega) (by omega)
    have kl := heightAt_between (z := z) (a0 := z.xl0) (a1 := z.xl1) (b := b) hy' (by omega) (by omega)
    have hc := heightAt_cross_right (z := z) (b := b) hy' hx0 hx1 (by omega) (by omega) (by omega) (by omega)
    have := he _ kr.1 kr.2
    refine .inr (.inr ⟨_, _, by
      simp only [maxXCase, leftReaches_eq (show z.xl0 ≠ z.xl1 by omega), rightReaches_eq (show z.xr0 ≠ z.xr1 by omega),
        leftAt_eq hy, bind, Except.bind], rfl, ?_, ?_⟩) <;>
    · simp only [Within, zoidValid_iff]
      omega
  -- 8
  · have k := heightAt_between (z := z) (a0 := z.xr0) (a1 := z.xr1) (b := b) hy' (by omega) (by omega)
    have := he _ k.1 k.2
    refine .inr (.inr ⟨_, _, by
      simp only [maxXCase, rightReaches_eq (show z.xr0 ≠ z.xr1 by omega), leftAt_eq hy, bind, Except.bind], rfl, ?_, ?_⟩) <;>
    · simp only [Within, zoidValid_iff]
      omega
  -- 0
  · exact absurd rfl hm

/-! ### One visit, with the entries of zero height -/

/-- An entry that the min-x pass leaves alone but for a zero height. -/
def settledMin (b : Int) (z : Zoid) : Bool := decide (b ≤ z.xl0) && decide (b ≤ z.xl1)

/-- An entry that the max-x pass leaves alone but for a zero height. -/
def settledMax (b : Int) (z : Zoid) : Bool := decide (z.xr0 ≤ b) && decide (z.xr1 ≤ b)

/-- What a visit can do, for entries that satisfy `P`, results that satisfy `R`, entries that need no further
change but a discard, `settled`, and what is left of an entry when its visits are done, `parts`. -/
def VisitKeeps (visit : Zoid → Except Cause (Option ClipAction)) (P R : Zoid → Prop) (settled : Zoid → Bool)
    (parts : Zoid → List Zoid) : Prop :=
  ∀ z, P z →
    (visit z = .ok none ∧ R z ∧ parts z = [z]) ∨ (visit z = .ok (some .discard) ∧ parts z = []) ∨
    (settled z = false ∧
      ((∃ z', visit z = .ok (some (.rewrite z')) ∧ (P z' ∧ settled z' = true) ∧ parts z = parts z') ∨
        ∃ z' low, visit z = .ok (some (.split z' low)) ∧ (P z' ∧ settled z' = true) ∧ (P low ∧ settled low = true) ∧
          parts z = parts z' ++ parts low))

/-- What an x pass leaves of an entry: what its cut gives, without the entries that have no height. -/
def partsAt (cut : Zoid → List Zoid) (z : Zoid) : List Zoid := withHeight ((withHeight [z]).flatMap cut)

theorem partsAt_flat {cut : Zoid → List Zoid} {z : Zoid} (h : ¬ z.y0 < z.y1) : partsAt cut z = [] := by
  simp [partsAt, withHeight, h]

theorem partsAt_tall {cut : Zoid → List Zoid} {z : Zoid} (h : z.y0 < z.y1) : partsAt cut z = withHeight (cut z) := by
  simp [partsAt, withHeight, h]

theorem partsAt_self {cut : Zoid → List Zoid} {z : Zoid} (h : cut z = [z]) : partsAt cut z = withHeight [z] := by
  by_cases hz : z.y0 < z.y1
  · rw [partsAt_tall hz, h]
  · rw [partsAt_flat hz]; simp [withHeight, hz]

theorem minXVisit_keeps {b L H T B : Int} (hb : b ≤ H) (hL : L ≤ b) :
    VisitKeeps (minXVisit b) (Within L H T B) (fun z => Within b H T B z ∧ z.y0 < z.y1) (settledMin b)
      (partsAt (leftCut b)) := by
  rintro z ⟨hv, h0, h1, hT, hB⟩
  obtain ⟨hy, hx0, hx1⟩ := (zoidValid_iff z).1 hv
  by_cases he : z.y0 = z.y1
  · exact .inr (.inl ⟨by simp [minXVisit, he], partsAt_flat (by omega)⟩)
  have tall : z.y0 < z.y1 := by omega
  have up : ∀ z', Within b H z.y0 z.y1 z' →
      (Within L H T B z' ∧ settledMin b z' = true) ∧ partsAt (leftCut b) z' = withHeight [z'] := by
    rintro z' ⟨k0, k1, k2, k3, k4⟩
    obtain ⟨-, j0, j1⟩ := (zoidValid_iff z').1 k0
    refine ⟨⟨⟨k0, by omega, by omega, by omega, by omega⟩, ?_⟩, partsAt_self (if_pos (by omega))⟩
    simp only [settledMin, Bool.and_eq_true, decide_eq_true_eq]; omega
  by_cases hm : minXMask b z = 0
  · have hin : b ≤ z.xl0 ∧ b ≤ z.xl1 := by
      by_cases a0 : z.xl0 < b <;> by_cases a2 : z.xl1 < b <;>
        first | omega | simp [minXMask, mask4, a0, a2] at hm
    refine .inl ⟨by simp [minXVisit, he, hm], ⟨⟨hv, by omega, by omega, hT, hB⟩, tall⟩, ?_⟩
    rw [partsAt_self (if_pos hin)]; simp [withHeight, tall]
  · have hvis : minXVisit b z = (minXCase b (minXMask b z) z).map some := by simp [minXVisit, he, hm]
    have hs : settledMin b z = false := by
      by_contra h
      simp only [settledMin, Bool.not_eq_false, Bool.and_eq_true, decide_eq_true_eq] at h
      exact hm (by simp [minXMask, mask4, show ¬ z.xl0 < b by omega, show ¬ z.xl1 < b by omega,
        show ¬ z.xr0 < b by omega, show ¬ z.xr1 < b by omega])
    rcases minXCase_spec (H := H) hv (by omega) hb h0.2 h1.2 hm with ⟨h, hc⟩ | ⟨z', h, hc, hz⟩ | ⟨z', low, h, hc, hz, hl⟩
    · exact .inr (.inl ⟨by rw [hvis, h]; rfl, by rw [partsAt_tall tall, hc]; rfl⟩)
    · exact .inr (.inr ⟨hs, .inl ⟨z', by rw [hvis, h]; rfl, (up z' hz).1, by
        rw [partsAt_tall tall, hc, (up z' hz).2]⟩⟩)
    · exact .inr (.inr ⟨hs, .inr ⟨z', low, by rw [hvis, h]; rfl, (up z' hz).1, (up low hl).1, by
        rw [partsAt_tall tall, hc, (up z' hz).2, (up low hl).2]; exact List.filter_append [z'] [low]⟩⟩)

theorem maxXVisit_keeps {b L H T B : Int} (hb : L ≤ b) (hH : b ≤ H) :
    VisitKeeps (maxXVisit b) (Within L H T B) (fun z => Within L b T B z ∧ z.y0 < z.y1) (settledMax b)
      (partsAt (rightCut b)) := by
  rintro z ⟨hv, h0, h1, hT, hB⟩
  obtain ⟨hy, hx0, hx1⟩ := (zoidValid_iff z).1 hv
  by_cases he : z.y0 = z.y1
  · exact .inr (.inl ⟨by simp [maxXVisit, he], partsAt_flat (by omega)⟩)
  have tall : z.y0 < z.y1 := by omega
  have up : ∀ z', Within L b z.y0 z.y1 z' →
      (Within L H T B z' ∧ settledMax b z' = true) ∧ partsAt (rightCut b) z' = withHeight [z'] := by
    rintro z' ⟨k0, k1, k2, k3, k4⟩
    obtain ⟨-, j0, j1⟩ := (zoidValid_iff z').1 k0
    refine ⟨⟨⟨k0, by omega, by omega, by omega, by omega⟩, ?_⟩, partsAt_self (if_pos (by omega))⟩
    simp only [settledMax, Bool.and_eq_true, decide_eq_true_eq]; omega
  by_cases hm : maxXMask b z = 0
  · have hin : z.xr0 ≤ b ∧ z.xr1 ≤ b := by
      by_cases a0 : b < z.xr0 <;> by_cases a2 : b < z.xr1 <;>
        first | omega | simp [maxXMask, mask4, a0, a2] at hm
    refine .inl ⟨by simp [maxXVisit, he, hm], ⟨⟨hv, by omega, by omega, hT, hB⟩, tall⟩, ?_⟩
    rw [partsAt_self (if_pos hin)]; simp [withHeight, tall]
  · have hvis : maxXVisit b z = (maxXCase b (maxXMask b z) z).map some := by simp [maxXVisit, he, hm]
    have hs : settledMax b z = false := by
      by_contra h
      simp only [settledMax, Bool.not_eq_false, Bool.and_eq_true, decide_eq_true_eq] at h
      exact hm (by simp [maxXMask, mask4, show ¬ b < z.xl0 by omega, show ¬ b < z.xl1 by omega,
        show ¬ b < z.xr0 by omega, show ¬ b < z.xr1 by omega])
    rcases maxXCase_spec (L := L) hv (by omega) hb h0.1 h1.1 hm with ⟨h, hc⟩ | ⟨z', h, hc, hz⟩ | ⟨z', low, h, hc, hz, hl⟩
    · exact .inr (.inl ⟨by rw [hvis, h]; rfl, by rw [partsAt_tall tall, hc]; rfl⟩)
    · exact .inr (.inr ⟨hs, .inl ⟨z', by rw [hvis, h]; rfl, (up z' hz).1, by
        rw [partsAt_tall tall, hc, (up z' hz).2]⟩⟩)
    · exact .inr (.inr ⟨hs, .inr ⟨z', low, by rw [hvis, h]; rfl, (up z' hz).1, (up low hl).1, by
        rw [partsAt_tall tall, hc, (up z' hz).2, (up low hl).2]; exact List.filter_append [z'] [low]⟩⟩)

/-! ### The loop -/

/-- How many visits the entries still need at most: one for a settled entry, three for another. -/
def visitsLeft (settled : Zoid → Bool) (zs : List Zoid) : Nat := (zs.map fun z => if settled z then 1 else 3).sum

/-- How many entries the entries can become at most: one for a settled entry, two for another. -/
def entriesLeft (settled : Zoid → Bool) (zs : List Zoid) : Nat := (zs.map fun z => if settled z then 1 else 2).sum

/-- Discarding entry `i` keeps the entries before it and leaves those after it in some order. -/
theorem discardAt_append (pre rest : List Zoid) (z : Zoid) (sh : Bool) :
    ∃ rest', discardAt ⟨pre ++ z :: rest, sh⟩ pre.length = ⟨pre ++ rest', true⟩ ∧ rest'.Perm rest := by
  rcases List.eq_nil_or_concat rest with rfl | ⟨r, l, rfl⟩
  · exact ⟨[], by simp [discardAt], .nil⟩
  · rw [List.concat_eq_append]
    refine ⟨l :: r, ?_, (List.perm_append_singleton l r).symm⟩
    have : (pre ++ z :: (r ++ [l])).getLast? = some l := by
      rw [show pre ++ z :: (r ++ [l]) = (pre ++ z :: r) ++ [l] by simp, List.getLast?_concat]
    simp only [discardAt, this]
    rw [List.set_append_right _ _ le_rfl]
    simp only [Nat.sub_self, List.set_cons_zero]
    rw [show pre ++ l :: (r ++ [l]) = (pre ++ l :: r) ++ [l] by simp, List.dropLast_concat]

/-- The loop of an x pass: from entries before the index that are done (`R`) and entries from the index on that
satisfy `P`, with enough visits allowed, it ends with entries that are all done, the parts of the given ones in some
order, or finds a full table. -/
theorem clipX_keeps {visit : Zoid → Except Cause (Option ClipAction)} {P R : Zoid → Prop} {settled : Zoid → Bool}
    {parts : Zoid → List Zoid} (hv : VisitKeeps visit P R settled parts) (n : Nat) (pre rest : List Zoid) (sh : Bool)
    (hn : visitsLeft settled rest < n) (hpre : ∀ z ∈ pre, R z) (hrest : ∀ z ∈ rest, P z)
    (hlen : pre.length + rest.length ≤ 5) :
    (∃ w, clipX visit n pre.length ⟨pre ++ rest, sh⟩ = .ok w ∧ (∀ z ∈ w.zs, R z) ∧ w.zs.length ≤ 5 ∧
      w.zs.length ≤ pre.length + entriesLeft settled rest ∧ w.zs.Perm (pre ++ rest.flatMap parts)) ∨
    (clipX visit n pre.length ⟨pre ++ rest, sh⟩ = .error .zoidOverflow ∧
      5 < pre.length + entriesLeft settled rest) := by
  induction n generalizing pre rest sh with
  | zero => omega
  | succ n ih =>
    cases rest with
    | nil =>
      refine .inl ⟨⟨pre, sh⟩, ?_, hpre, by simpa using hlen, by simp, by simp⟩
      rw [List.append_nil, clipX_done _ _ _ _ (by simp)]
    | cons z rest =>
      have hz : (⟨pre ++ z :: rest, sh⟩ : ClipWork).zs[pre.length]? = some z := by simp
      have hP := hrest z (by simp)
      have hrest' : ∀ x ∈ rest, P x := fun x hx => hrest x (by simp [hx])
      simp only [visitsLeft, entriesLeft, List.map_cons, List.sum_cons, List.length_cons] at hn hlen ⊢
      have one_le : 1 ≤ (if settled z then 1 else 3) := by split <;> omega
      have one_le' : 1 ≤ (if settled z then 1 else 2) := by split <;> omega
      rcases hv z hP with ⟨h, hR, hp⟩ | ⟨h, hp⟩ | ⟨hs, ⟨z', h, ⟨hP', hs'⟩, hp⟩ | ⟨z', low, h, ⟨hP', hs'⟩, ⟨hPl, hsl⟩, hp⟩⟩
      · rw [clipX_advance n hz h]
        have := ih (pre ++ [z]) rest sh (by simp only [visitsLeft]; omega)
          (by intro x hx; rcases List.mem_append.1 hx with hx | hx
              · exact hpre x hx
              · simp at hx; exact hx ▸ hR) hrest' (by simp; omega)
        simp only [List.length_append, List.length_cons, List.length_nil, List.append_assoc, List.cons_append,
          List.nil_append, entriesLeft] at this
        rcases this with ⟨w, e, hw, hl, hg, hm⟩ | ⟨e, hg⟩
        · exact .inl ⟨w, e, hw, hl, by omega, by simpa [hp] using hm⟩
        · exact .inr ⟨e, by omega⟩
      · rw [clipX_discard n hz h]
        obtain ⟨rest', e', hq⟩ := discardAt_append pre rest z sh
        rw [e']
        have h3 : visitsLeft settled rest' = visitsLeft settled rest := (hq.map _).sum_eq
        have h2 : entriesLeft settled rest' = entriesLeft settled rest := (hq.map _).sum_eq
        have := ih pre rest' true (by rw [h3]; simp only [visitsLeft]; omega) hpre
          (fun x hx => hrest' x (hq.subset hx)) (by rw [hq.length_eq]; omega)
        rw [h2] at this
        simp only [entriesLeft] at this
        rcases this with ⟨w, e, hw, hl, hg, hm⟩ | ⟨e, hg⟩
        · exact .inl ⟨w, e, hw, hl, by omega, hm.trans (by simpa [hp] using (hq.flatMap_right parts).append_left pre)⟩
        · exact .inr ⟨e, by omega⟩
      · rw [clipX_rewrite n hz h]
        have := ih pre (z' :: rest) sh
          (by simp only [visitsLeft, List.map_cons, List.sum_cons, hs', hs] at hn ⊢; simp at hn ⊢; omega) hpre
          (by intro x hx; rcases List.mem_cons.1 hx with rfl | hx
              · exact hP'
              · exact hrest' x hx) (by simp; omega)
        simp only [entriesLeft, List.map_cons, List.sum_cons, hs', if_true] at this
        simp only [List.set_append_right _ _ le_rfl, Nat.sub_self, List.set_cons_zero]
        rcases this with ⟨w, e, hw, hl, hg, hm⟩ | ⟨e, hg⟩
        · exact .inl ⟨w, e, hw, hl, by omega, by simpa [hp] using hm⟩
        · exact .inr ⟨e, by omega⟩
      · by_cases hfull : (pre ++ z :: rest).length < 5
        · rw [clipX_split n hz h hfull]
          have := ih pre (z' :: rest ++ [low]) sh
            (by simp only [visitsLeft, List.map_cons, List.map_append, List.map_nil, List.sum_append, List.sum_cons,
                  List.sum_nil, List.cons_append, hs', hsl, hs] at hn ⊢
                simp at hn ⊢; omega) hpre
            (by intro x hx
                rcases List.mem_append.1 hx with hx | hx
                · rcases List.mem_cons.1 hx with rfl | hx
                  · exact hP'
                  · exact hrest' x hx
                · simp at hx; exact hx ▸ hPl)
            (by simp at hfull ⊢; omega)
          simp only [entriesLeft, List.map_cons, List.map_append, List.map_nil, List.sum_append, List.sum_cons,
            List.sum_nil, List.cons_append, hs', hsl, if_true] at this
          simp only [List.set_append_right _ _ le_rfl, Nat.sub_self, List.set_cons_zero, hs, List.append_assoc,
            List.cons_append]
          simp only [Bool.false_eq_true, if_false]
          rcases this with ⟨w, e, hw, hl, hg, hm⟩ | ⟨e, hg⟩
          · exact .inl ⟨w, e, hw, hl, by omega, hm.trans (by
              simp only [List.flatMap_cons, List.flatMap_append, List.flatMap_nil, List.append_nil, hp, List.append_assoc]
              exact ((List.perm_append_comm).append_left _).append_left pre)⟩
          · exact .inr ⟨e, by omega⟩
        · rw [clipX_overflow n hz h (by simpa using hfull)]
          refine .inr ⟨rfl, ?_⟩
          simp only [List.length_append, List.length_cons] at hfull
          have : rest.length ≤ (rest.map fun z => if settled z then 1 else 2).sum := by
            clear * -
            induction rest with
            | nil => simp
            | cons x xs ih => simp only [List.map_cons, List.sum_cons, List.length_cons]; split <;> omega
          simp only [hs, Bool.false_eq_true, if_false]
          omega

/-- An x pass on entries that all need nothing leaves them as they are. -/
theorem clipX_all_done {visit : Zoid → Except Cause (Option ClipAction)} (n : Nat) (pre rest : List Zoid) (sh : Bool)
    (hn : rest.length < n) (h : ∀ z ∈ rest, visit z = .ok none) :
    clipX visit n pre.length ⟨pre ++ rest, sh⟩ = .ok ⟨pre ++ rest, sh⟩ := by
  induction n generalizing pre rest with
  | zero => omega
  | succ n ih =>
    cases rest with
    | nil => exact clipX_done _ _ _ _ (by simp)
    | cons z rest =>
      rw [clipX_advance n (z := z) (by simp) (h z (by simp))]
      simpa using ih (pre ++ [z]) rest (by simpa using hn) fun x hx => h x (by simp [hx])

/-- An x pass on settled entries drops those without height; on at most two it keeps the order of the others. -/
theorem clipX_settled_two {visit : Zoid → Except Cause (Option ClipAction)} {P R : Zoid → Prop}
    {settled : Zoid → Bool} {parts : Zoid → List Zoid} (hv : VisitKeeps visit P R settled parts) (n : Nat)
    (zs : List Zoid) (sh : Bool) (hz : ∀ z ∈ zs, P z ∧ settled z = true) (hl : zs.length ≤ 2) :
    ∃ sh', clipX visit (n + 3) 0 ⟨zs, sh⟩ = .ok ⟨zs.flatMap parts, sh'⟩ := by
  have hd : ∀ z ∈ zs, (visit z = .ok none ∧ parts z = [z]) ∨ (visit z = .ok (some .discard) ∧ parts z = []) :=
    fun z hm => by
      rcases hv z (hz z hm).1 with ⟨h, -, hp⟩ | h | ⟨h, -⟩
      · exact .inl ⟨h, hp⟩
      · exact .inr h
      · rw [(hz z hm).2] at h; cases h
  match zs, hl with
  | [], _ => exact ⟨sh, by rw [clipX_done _ _ _ _ (by simp)]; rfl⟩
  | [z], _ =>
    rcases hd z (by simp) with ⟨h, hp⟩ | ⟨h, hp⟩
    · exact ⟨sh, by rw [clipX_advance _ (z := z) (by simp) h, clipX_done _ _ _ _ (by simp)]; simp [hp]⟩
    · exact ⟨true, by rw [clipX_discard _ (z := z) (by simp) h, clipX_done _ _ _ _ (by simp [discardAt])]
                      simp [hp, discardAt]⟩
  | [z, low], _ =>
    rcases hd z (by simp) with ⟨h, hp⟩ | ⟨h, hp⟩ <;> rcases hd low (by simp) with ⟨h', hp'⟩ | ⟨h', hp'⟩
    · exact ⟨sh, by rw [clipX_advance _ (z := z) (by simp) h, clipX_advance _ (z := low) (by simp) h',
                      clipX_done _ _ _ _ (by simp)]; simp [hp, hp']⟩
    · exact ⟨true, by rw [clipX_advance _ (z := z) (by simp) h, clipX_discard _ (z := low) (by simp) h',
                        clipX_done _ _ _ _ (by simp [discardAt])]; simp [hp, hp', discardAt]⟩
    · exact ⟨true, by rw [clipX_discard _ (z := z) (by simp) h, clipX_advance _ (z := low) (by simp [discardAt]) h',
                        clipX_done _ _ _ _ (by simp [discardAt])]; simp [hp, hp', discardAt]⟩
    · exact ⟨true, by rw [clipX_discard _ (z := z) (by simp) h, clipX_discard _ (z := low) (by simp [discardAt]) h',
                        clipX_done _ _ _ _ (by simp [discardAt])]; simp [hp, hp', discardAt]⟩

/-- An x pass on one entry leaves exactly its parts, in order. -/
theorem clipX_single {visit : Zoid → Except Cause (Option ClipAction)} {P R : Zoid → Prop} {settled : Zoid → Bool}
    {parts : Zoid → List Zoid} (hv : VisitKeeps visit P R settled parts) (n : Nat) (z : Zoid) (sh : Bool) (hz : P z) :
    ∃ sh', clipX visit (n + 4) 0 ⟨[z], sh⟩ = .ok ⟨parts z, sh'⟩ := by
  rcases hv z hz with ⟨h, -, hp⟩ | ⟨h, hp⟩ | ⟨-, ⟨z', h, hz', hp⟩ | ⟨z', low, h, hz', hlow, hp⟩⟩
  · exact ⟨sh, by rw [clipX_advance _ (z := z) (by simp) h, clipX_done _ _ _ _ (by simp), hp]⟩
  · exact ⟨true, by rw [clipX_discard _ (z := z) (by simp) h, clipX_done _ _ _ _ (by simp [discardAt])]
                    simp [hp, discardAt]⟩
  · rw [clipX_rewrite _ (z := z) (by simp) h]
    simpa [hp] using clipX_settled_two hv n [z'] sh (by simpa using hz') (by simp)
  · rw [clipX_split _ (z := z) (by simp) h (by simp)]
    simpa [hp] using clipX_settled_two hv n [z', low] sh (by simpa using ⟨hz', hlow⟩) (by simp)

/-! ### The y passes -/

/-- The entries come in order of y without overlap. -/
def Ordered (zs : List Zoid) : Prop := zs.Pairwise fun a c => a.y1 ≤ c.y0

/-- A contiguous table of valid entries is in order (10_state.md R32). -/
theorem contiguous_ordered {zs : List Zoid} (hc : contiguous zs = true) (hv : ∀ z ∈ zs, z.y0 ≤ z.y1) :
    Ordered zs := by
  have key : ∀ (z : Zoid) (zs : List Zoid), contiguous (z :: zs) = true → (∀ x ∈ z :: zs, x.y0 ≤ x.y1) →
      Ordered (z :: zs) := by
    intro z zs
    induction zs generalizing z with
    | nil => intro _ _; exact List.pairwise_singleton _ _
    | cons a rest ih =>
      intro hc hv
      simp only [contiguous, Bool.and_eq_true, decide_eq_true_eq] at hc
      have ha := ih a hc.2 (fun x hx => hv x (by simp [hx]))
      refine List.pairwise_cons.2 ⟨fun c hc' => ?_, ha⟩
      have h2 := hv a (by simp)
      rcases List.mem_cons.1 hc' with rfl | hm
      · omega
      · have := (List.pairwise_cons.1 ha).1 c hm
        omega
  cases zs with
  | nil => exact List.Pairwise.nil
  | cons z zs => exact key z zs hc hv

/-- Two edges interpolated at one height keep their order. -/
theorem interp_mono {a0 a1 c0 c1 k h : Int} (hh : 0 < h) (h0 : a0 ≤ c0) (h1 : a1 ≤ c1) (k0 : 0 ≤ k) (k1 : k ≤ h) :
    a0 + (a1 - a0) * k / h ≤ c0 + (c1 - c0) * k / h := by
  have e : ∀ x0 x1 : Int, x0 + (x1 - x0) * k / h = (x0 * (h - k) + x1 * k) / h := fun x0 x1 => by
    rw [show x0 * (h - k) + x1 * k = (x1 - x0) * k + x0 * h by ring, Int.add_mul_ediv_right _ _ (by omega)]
    omega
  rw [e, e]
  refine Int.ediv_le_ediv hh ?_
  have := mul_le_mul_of_nonneg_right h0 (show 0 ≤ h - k by omega)
  have := mul_le_mul_of_nonneg_right h1 k0
  omega

/-- The cut at the bottom bound never fails on an entry that begins above the bound (R139). -/
theorem cutBelow_spec {L H T B ymax : Int} {z : Zoid} (h : Within L H T B z) (hy : z.y0 < ymax) :
    cutBelow z ymax = .ok (bottomCut ymax z) ∧ Within L H T ymax (bottomCut ymax z) := by
  obtain ⟨hv, h0, h1, hT, hB⟩ := h
  obtain ⟨hy', hx0, hx1⟩ := (zoidValid_iff z).1 hv
  unfold cutBelow bottomCut
  split
  · have tall : z.y0 < z.y1 := by omega
    have kl := edgeAt_between (yc := ymax) z.xl0 z.xl1 tall (by omega) (by omega)
    have kr := edgeAt_between (yc := ymax) z.xr0 z.xr1 tall (by omega) (by omega)
    have km : edgeAt z z.xl0 z.xl1 ymax ≤ edgeAt z z.xr0 z.xr1 ymax :=
      interp_mono (by omega) hx0 hx1 (by omega) (by omega)
    refine ⟨by simp only [leftAt_eq tall, rightAt_eq tall, bind, Except.bind], ?_⟩
    simp only [Within, zoidValid_iff]
    omega
  · exact ⟨rfl, hv, h0, h1, hT, by omega⟩

/-- The cut at the top bound never fails on an entry that ends below the bound (R140). -/
theorem cutAbove_spec {L H T B ymin : Int} {z : Zoid} (h : Within L H T B z) (hy : ymin < z.y1) :
    cutAbove z ymin = .ok (topCut ymin z) ∧ Within L H ymin B (topCut ymin z) := by
  obtain ⟨hv, h0, h1, hT, hB⟩ := h
  obtain ⟨hy', hx0, hx1⟩ := (zoidValid_iff z).1 hv
  unfold cutAbove topCut
  split
  · have tall : z.y0 < z.y1 := by omega
    have kl := edgeAt_between (yc := ymin) z.xl0 z.xl1 tall (by omega) (by omega)
    have kr := edgeAt_between (yc := ymin) z.xr0 z.xr1 tall (by omega) (by omega)
    have km : edgeAt z z.xl0 z.xl1 ymin ≤ edgeAt z z.xr0 z.xr1 ymin :=
      interp_mono (by omega) hx0 hx1 (by omega) (by omega)
    refine ⟨by simp only [leftAt_eq tall, rightAt_eq tall, bind, Except.bind], ?_⟩
    simp only [Within, zoidValid_iff]
    omega
  · exact ⟨rfl, hv, h0, h1, by omega, hB⟩

@[simp] theorem bottomCut_y0 (b : Int) (z : Zoid) : (bottomCut b z).y0 = z.y0 := by unfold bottomCut; split <;> rfl

theorem bottomCut_y1 (b : Int) (z : Zoid) : (bottomCut b z).y1 = min b z.y1 := by
  unfold bottomCut; split <;> simp <;> omega

theorem topCut_y0 (b : Int) (z : Zoid) : (topCut b z).y0 = max b z.y0 := by
  unfold topCut; split <;> simp <;> omega

@[simp] theorem topCut_y1 (b : Int) (z : Zoid) : (topCut b z).y1 = z.y1 := by unfold topCut; split <;> rfl

/-- Pass 1 on ordered entries keeps, in order, those that begin above the bottom bound, each cut there (R139). -/
theorem clipMaxY_spec {L H T B ymax : Int} {zs : List Zoid} (hz : ∀ z ∈ zs, Within L H T B z) (ho : Ordered zs) :
    clipMaxY ymax zs = .ok ((zs.filter fun z => decide (z.y0 < ymax)).map (bottomCut ymax)) := by
  have key : ∀ l : List Zoid, (∀ z ∈ l, Within L H T B z) → (l.Pairwise fun a c => c.y1 ≤ a.y0) →
      (match l.dropWhile fun z => decide (ymax ≤ z.y0) with
        | [] => .ok []
        | z :: before => do
          let z' ← cutBelow z ymax
          .ok (z' :: before).reverse) =
      (.ok ((l.filter fun z => decide (z.y0 < ymax)).map (bottomCut ymax)).reverse : Except Cause (List Zoid)) := by
    intro l hz ho
    induction l with
    | nil => rfl
    | cons z l ih =>
      obtain ⟨hzl, ho'⟩ := List.pairwise_cons.1 ho
      by_cases h : ymax ≤ z.y0
      · rw [List.dropWhile_cons_of_pos (by simpa using h), List.filter_cons_of_neg (by simpa using h)]
        exact ih (fun x hx => hz x (by simp [hx])) ho'
      · rw [List.dropWhile_cons_of_neg (by simpa using h), List.filter_cons_of_pos (by simpa using h)]
        have hlow : ∀ x ∈ l, x.y1 ≤ ymax ∧ x.y0 < ymax := fun x hx => by
          have := hzl x hx
          have := (zoidValid_iff x).1 (hz x (by simp [hx])).1
          omega
        have hf : l.filter (fun z => decide (z.y0 < ymax)) = l :=
          List.filter_eq_self.2 fun x hx => by simpa using (hlow x hx).2
        have hm : l.map (bottomCut ymax) = l :=
          (List.map_congr_left fun x hx => if_neg (by have := (hlow x hx).1; omega)).trans (List.map_id' l)
        simp only [(cutBelow_spec (hz z (by simp)) (show z.y0 < ymax by omega)).1, bind, Except.bind, List.map_cons,
          hf, hm]
  have := key zs.reverse (fun z h => hz z (List.mem_reverse.1 h)) (List.pairwise_reverse.2 ho)
  rw [List.filter_reverse, List.map_reverse, List.reverse_reverse] at this
  exact this

/-- Pass 2 on ordered entries keeps, in order, those that end below the top bound, each cut there (R140). -/
theorem clipMinY_spec {L H T B ymin : Int} {zs : List Zoid} (hz : ∀ z ∈ zs, Within L H T B z) (ho : Ordered zs) :
    clipMinY ymin zs = .ok ((zs.filter fun z => decide (ymin < z.y1)).map (topCut ymin)) := by
  induction zs with
  | nil => rfl
  | cons z l ih =>
    obtain ⟨hzl, ho'⟩ := List.pairwise_cons.1 ho
    unfold clipMinY at ih ⊢
    by_cases h : z.y1 ≤ ymin
    · rw [List.dropWhile_cons_of_pos (by simpa using h), List.filter_cons_of_neg (by simpa using h)]
      exact ih (fun x hx => hz x (by simp [hx])) ho'
    · rw [List.dropWhile_cons_of_neg (by simpa using h), List.filter_cons_of_pos (by simpa using h)]
      have hlow : ∀ x ∈ l, ymin ≤ x.y0 ∧ ymin < x.y1 := fun x hx => by
        have := hzl x hx
        have := (zoidValid_iff x).1 (hz x (by simp [hx])).1
        omega
      have hf : l.filter (fun z => decide (ymin < z.y1)) = l :=
        List.filter_eq_self.2 fun x hx => by simpa using (hlow x hx).2
      have hm : l.map (topCut ymin) = l :=
        (List.map_congr_left fun x hx => if_neg (by have := (hlow x hx).1; omega)).trans (List.map_id' l)
      simp only [(cutAbove_spec (hz z (by simp)) (show ymin < z.y1 by omega)).1, bind, Except.bind, List.map_cons,
        hf, hm]

/-- Both y passes on ordered entries: they never fail; what they leave is valid, lies between the two bounds, and
is, but for entries without height, what `rowsKept` says (R139, R140). -/
theorem clipRows_spec {L H T B ymin ymax : Int} {zs : List Zoid} (hz : ∀ z ∈ zs, Within L H T B z)
    (ho : Ordered zs) :
    ∃ zs1 zs2, clipMaxY ymax zs = .ok zs1 ∧ clipMinY ymin zs1 = .ok zs2 ∧ (∀ z ∈ zs2, Within L H ymin ymax z) ∧
      zs2.length ≤ zs.length ∧ withHeight zs2 = rowsKept ymin ymax zs ∧
      ((∀ z ∈ zs, z.y0 < z.y1) → ymin ≤ ymax → zs2 = rowsKept ymin ymax zs) := by
  have w1 : ∀ z ∈ (zs.filter fun z => decide (z.y0 < ymax)).map (bottomCut ymax), Within L H T ymax z := by
    intro z hm
    obtain ⟨x, hx, rfl⟩ := List.mem_map.1 hm
    obtain ⟨hx, hy⟩ := List.mem_filter.1 hx
    exact (cutBelow_spec (hz x hx) (by simpa using hy)).2
  have o1 : Ordered ((zs.filter fun z => decide (z.y0 < ymax)).map (bottomCut ymax)) :=
    List.pairwise_map.2 ((ho.filter _).imp fun {a c} h => by rw [bottomCut_y0, bottomCut_y1]; omega)
  refine ⟨_, _, clipMaxY_spec hz ho, clipMinY_spec w1 o1, ?_, ?_, ?_, fun hy hb => ?_⟩
  · intro z hm
    obtain ⟨x, hx, rfl⟩ := List.mem_map.1 hm
    obtain ⟨hx, hy⟩ := List.mem_filter.1 hx
    exact (cutAbove_spec (w1 x hx) (by simpa using hy)).2
  · have k1 := List.length_filter_le (fun z : Zoid => decide (z.y0 < ymax)) zs
    have k2 := List.length_filter_le (fun z : Zoid => decide (ymin < z.y1))
      ((zs.filter fun z => decide (z.y0 < ymax)).map (bottomCut ymax))
    rw [List.length_map] at k2
    rw [List.length_map]
    omega
  · simp only [withHeight, rowsKept, List.filter_map, List.map_map, List.filter_filter]
    refine congrArg _ (List.filter_congr fun z _ => ?_)
    simp only [Function.comp_apply, topCut_y0, topCut_y1, bottomCut_y0, bottomCut_y1, ← Bool.decide_and,
      decide_eq_decide]
    omega
  · simp only [rowsKept, List.filter_map, List.map_map, List.filter_filter]
    refine congrArg _ (List.filter_congr fun z hm => ?_)
    have := hy z hm
    simp only [Function.comp_apply, bottomCut_y1, ← Bool.decide_and, decide_eq_decide]
    omega

/-! ### The four passes -/

theorem visitsLeft_le (settled : Zoid → Bool) (zs : List Zoid) : visitsLeft settled zs ≤ 3 * zs.length := by
  unfold visitsLeft
  induction zs with
  | nil => simp
  | cons z zs ih => simp only [List.map_cons, List.sum_cons, List.length_cons]; split <;> omega

theorem entriesLeft_le (settled : Zoid → Bool) (zs : List Zoid) : entriesLeft settled zs ≤ 2 * zs.length := by
  unfold entriesLeft
  induction zs with
  | nil => simp
  | cons z zs ih => simp only [List.map_cons, List.sum_cons, List.length_cons]; split <;> omega

/-- The parts of the entries of a table are the cut of the entries that have a height. -/
theorem flatMap_partsAt (cut : Zoid → List Zoid) (zs : List Zoid) :
    zs.flatMap (partsAt cut) = withHeight ((withHeight zs).flatMap cut) := by
  induction zs with
  | nil => rfl
  | cons z zs ih =>
    rw [List.flatMap_cons, ih]
    by_cases h : z.y0 < z.y1
    · rw [partsAt_tall h, show withHeight (z :: zs) = z :: withHeight zs by simp [withHeight, h], List.flatMap_cons]
      exact (List.filter_append ..).symm
    · rw [partsAt_flat h, show withHeight (z :: zs) = withHeight zs by simp [withHeight, h]]
      rfl

theorem withHeight_idem (zs : List Zoid) : withHeight (withHeight zs) = withHeight zs := by
  simp [withHeight, List.filter_filter]

/-- All valid entries lie within some bounds. -/
theorem exists_within (x : Int) {zs : List Zoid} (hv : ∀ z ∈ zs, zoidValid z = true) :
    ∃ L H T B : Int, L ≤ x ∧ x ≤ H ∧ ∀ z ∈ zs, Within L H T B z := by
  induction zs with
  | nil => exact ⟨x, x, 0, 0, le_rfl, le_rfl, by simp⟩
  | cons a rest ih =>
    obtain ⟨L, H, T, B, h1, h2, h3⟩ := ih (fun z hz => hv z (by simp [hz]))
    refine ⟨min L (min a.xl0 a.xl1), max H (max a.xr0 a.xr1), min T a.y0, max B a.y1, by omega, by omega, ?_⟩
    intro z hz
    rcases List.mem_cons.1 hz with rfl | hz
    · exact ⟨hv z (by simp), by omega, by omega, by omega, by omega⟩
    · obtain ⟨k0, k1, k2, k3, k4⟩ := h3 z hz
      exact ⟨k0, by omega, by omega, by omega, by omega⟩

/-- The four passes on an ordered table of at most five valid entries: they end with the parts of the entries
inside the rectangle, in some order, each valid, of positive height and inside, or find a full table (never with
at most one entry) (R149). -/
theorem clipPasses_spec {r : ClipRect} {zs : List Zoid} (hv : ∀ z ∈ zs, zoidValid z = true) (ho : Ordered zs)
    (hl : zs.length ≤ 5) (hr : r.xmin ≤ r.xmax) :
    (∃ w, clipPasses r zs = .ok w ∧ w.zs.length ≤ 5 ∧ w.zs.Perm (partsInside r zs) ∧
      ∀ z ∈ w.zs, Within r.xmin r.xmax r.ymin r.ymax z ∧ z.y0 < z.y1) ∨
    (clipPasses r zs = .error .zoidOverflow ∧ 1 < zs.length) := by
  obtain ⟨L, H, T, B, hLb, hHb, hz⟩ := exists_within r.xmin hv
  obtain ⟨zs1, zs2, e1, e2, w2, l2, r2, -⟩ := clipRows_spec (ymin := r.ymin) (ymax := r.ymax) hz ho
  have b3 := visitsLeft_le (settledMin r.xmin) zs2
  have c3 := entriesLeft_le (settledMin r.xmin) zs2
  have p3 := clipX_keeps (minXVisit_keeps (T := r.ymin) (B := r.ymax) hHb hLb) Config.clipVisits [] zs2
    (decide (zs2.length < zs.length)) (by simp only [Config.clipVisits]; omega) (by simp) w2 (by simp; omega)
  simp only [List.length_nil, List.nil_append] at p3
  rcases p3 with ⟨w3, e3, k3, l3, g3, m3⟩ | ⟨e3, g3⟩
  · have b4 := visitsLeft_le (settledMax r.xmax) w3.zs
    have c4 := entriesLeft_le (settledMax r.xmax) w3.zs
    have p4 := clipX_keeps (maxXVisit_keeps (H := max r.xmax H) (T := r.ymin) (B := r.ymax) hr (by omega))
      Config.clipVisits [] w3.zs w3.shrunk (by simp only [Config.clipVisits]; omega) (by simp)
      (fun z hz' => by
        obtain ⟨k0, k1, k2, k5, k6⟩ := (k3 z hz').1
        exact ⟨k0, by omega, by omega, k5, k6⟩) (by simp; omega)
    simp only [List.length_nil, List.nil_append] at p4
    rcases p4 with ⟨w4, e4, k4, l4, -, m4⟩ | ⟨e4, g4⟩
    · refine .inl ⟨w4, by simp only [clipPasses, e1, e2, e3, bind, Except.bind]; exact e4, l4, ?_, k4⟩
      refine m4.trans ((m3.flatMap_right _).trans ?_)
      rw [flatMap_partsAt, flatMap_partsAt, withHeight_idem, r2, partsInside]
    · exact .inr ⟨by simp only [clipPasses, e1, e2, e3, bind, Except.bind]; exact e4, by omega⟩
  · exact .inr ⟨by simp only [clipPasses, e1, e2, e3, bind, Except.bind], by omega⟩

theorem clipRect_x (s : State) : (clipRect (tileOf s)).xmin ≤ (clipRect (tileOf s)).xmax := by
  simp only [clipRect, tileOf]; omega

theorem clipRect_y (s : State) : (clipRect (tileOf s)).ymin ≤ (clipRect (tileOf s)).ymax := by
  simp only [clipRect, tileOf]; omega

/-- An entry inside the tile's rectangle fits the registers of the table. -/
theorem Within.fits {s : State} {z : Zoid}
    (h : Within (clipRect (tileOf s)).xmin (clipRect (tileOf s)).xmax (clipRect (tileOf s)).ymin
      (clipRect (tileOf s)).ymax z) : ZoidFits z := by
  obtain ⟨h0, h1, h2, h3, h4⟩ := h
  have := (zoidValid_iff z).1 h0
  have := s.tileX.toInt_lt
  have := s.tileX.le_toInt
  have := s.tileY.toInt_lt
  have := s.tileY.le_toInt
  have := s.tileW.isLt
  have := s.tileH.isLt
  simp only [clipRect, tileOf] at *
  simp only [ZoidFits, inRange32_iff] at *
  omega

/-- Z.CLIP on a table that passes the entry checks and the four passes stores what the passes leave (R149). -/
theorem execZClip_of_passes {s : State} {w : ClipWork} (hc : clipEntryCheck s = none)
    (h : clipPasses (clipRect (tileOf s)) (zoidsOf s) = .ok w) (hl : w.zs.length ≤ 5)
    (hw : ∀ z ∈ w.zs, Within (clipRect (tileOf s)).xmin (clipRect (tileOf s)).xmax (clipRect (tileOf s)).ymin
      (clipRect (tileOf s)).ymax z) :
    ∃ t, execZClip s = .next t ∧ OnlyTable s t ∧ zoidsOf t = w.zs :=
  ⟨storeClipped w s, by simp [execZClip, clipStage, hc, h], storeClipped_onlyTable _ _,
    zoidsOf_storeClipped s hl fun z hz => (hw z hz).fits⟩

end Sys2Proof.Machine
end

