-- ==== Sys2Proof/Laws/Loops.lean ====
section
/-! SUPPORT. The loops of the antialiased commands as lists over their counts (43_line.md R112,
44_triangle_zoid_fill.md R124), and the blend span as plots. -/

namespace Sys2Proof.Machine

/-- The main loop of LINE.AA, column by column. -/
theorem mainPlots_eq (steep : Bool) (g : Int) (n : Nat) (column acc : Int) :
    mainPlots steep g n column acc =
      (List.range n).flatMap fun (k : Nat) => columnPlots steep (column + k) (acc + k * g) := by
  induction n generalizing column acc with
  | zero => rfl
  | succ n ih =>
    rw [List.range_succ_eq_map, List.flatMap_cons, List.flatMap_map, mainPlots, ih]
    simp only [Nat.cast_zero, add_zero, zero_mul, Nat.succ_eq_add_one, Nat.cast_add, Nat.cast_one]
    congr 2
    funext k
    congr 1 <;> ring

/-- The rows of an antialiased fill, row by row. -/
theorem aaRows_eq (t : Tile) (c : Color) (alpha : Int) (z : Zoid) (gl gr : Int) (n : Nat) (py xl xr : Int) :
    aaRows t c alpha z gl gr n py xl xr =
      (List.range n).flatMap fun (k : Nat) =>
        aaRowOps t c (py + k) (asr (alpha * rowHeight z (py + k)) 8) (xl + k * gl) (xr + k * gr) := by
  induction n generalizing py xl xr with
  | zero => rfl
  | succ n ih =>
    rw [List.range_succ_eq_map, List.flatMap_cons, List.flatMap_map, aaRows, ih]
    simp only [Nat.cast_zero, add_zero, zero_mul, Nat.succ_eq_add_one, Nat.cast_add, Nat.cast_one]
    congr 2
    funext k
    rw [show py + 1 + (k : Int) = py + (k + 1) by ring, show xl + gl + k * gl = xl + (k + 1) * gl by ring,
      show xr + gr + k * gr = xr + (k + 1) * gr by ring]

/-- A blend span is a list of plots of one alpha (42_pixel_span.md R88). -/
theorem spanBlendOps_eq (t : Tile) (x0 x1 y : Int) (c : Color) (a : Int) :
    spanBlendOps t x0 x1 y c a = blendOps c ((spanColumns t x0 x1 y).map fun x => (⟨x, y⟩, a)) := by
  simp [spanBlendOps, blendOps]

end Sys2Proof.Machine
end

