-- ==== Sys2Proof/Laws/Port.lean ====
section
/-! SUPPORT. What the register port and a step can do (10_state.md R24, R33, R34; 60_exceptions.md R153). -/

namespace Sys2Proof.Machine

/-! ### Issuing a command -/

/-- In the halted state a CMD write changes nothing (R153). -/
theorem issueCommand_halted {s : State} (w : Word) (h : s.fault = true) : issueCommand w s = .next s := by
  simp [issueCommand, halted, h]

/-- A word that encodes a command executes it (R24). -/
theorem issueCommand_decoded {s : State} {w : Word} {i : Instr} (h : s.fault = false) (hd : decode w = .ok i) :
    issueCommand w s = exec i s := by
  simp [issueCommand, halted, h, hd]

/-- A word that encodes none takes F_ILLEGAL_CMD (30_encoding.md R54). -/
theorem issueCommand_illegal {s : State} {w : Word} {e : IllegalWord} (h : s.fault = false)
    (hd : decode w = .error e) : issueCommand w s = .next (raiseFault .illegalCmd w s) := by
  simp [issueCommand, halted, h, hd]

/-- Everything a CMD write can do. -/
theorem issueCommand_cases (w : Word) (s : State) :
    (s.fault = true ∧ issueCommand w s = .next s) ∨
    (∃ i, s.fault = false ∧ decode w = .ok i ∧ issueCommand w s = exec i s) ∨
    (∃ e, s.fault = false ∧ decode w = .error e ∧ issueCommand w s = .next (raiseFault .illegalCmd w s)) := by
  cases hf : s.fault with
  | true => exact .inl ⟨rfl, issueCommand_halted w hf⟩
  | false =>
    cases hd : decode w with
    | ok i => exact .inr (.inl ⟨i, rfl, rfl, issueCommand_decoded hf hd⟩)
    | error e => exact .inr (.inr ⟨e, rfl, rfl, issueCommand_illegal hf hd⟩)

/-! ### Transactions -/

/-- An aligned word access below 0x400 is performed (R34). -/
theorem checkedAccess_word {off : Nat} (go : Host.Outcome State Fault Refusal) (h4 : off % 4 = 0)
    (h : off < 0x400) : checkedAccess .word off go = go := by
  simp [checkedAccess, h4, show ¬ 0x400 ≤ off by omega]

/-- An access that answers a next state was performed. -/
theorem checkedAccess_next {size : AccessSize} {off : Nat} {go : Host.Outcome State Fault Refusal} {t : State}
    (h : checkedAccess size off go = .next t) :
    size = .word ∧ off % 4 = 0 ∧ off < 0x400 ∧ go = .next t := by
  unfold checkedAccess at h
  split at h
  · cases h
  · split at h
    · cases h
    · split at h
      · cases h
      · exact ⟨not_not.mp ‹_›, not_not.mp ‹_›, not_le.mp ‹_›, h⟩

/-- Everything a word write below 0x400 can do. -/
theorem portWriteWord_cases (off : Nat) (v : Word) (s : State) :
    (regAt off = some .cmd ∧ portWriteWord off v s = issueCommand v s) ∨
    (∃ r, r ≠ .cmd ∧ regAt off = some r ∧ portWriteWord off v s = .next (writeReg r v s)) ∨
    (regAt off = none ∧ portWriteWord off v s = .next s) := by
  unfold portWriteWord
  split
  · exact .inl ⟨‹_›, rfl⟩
  · rename_i r hne hr
    exact .inr (.inl ⟨r, hne, hr, rfl⟩)
  · exact .inr (.inr ⟨‹_›, rfl⟩)

/-! ### Steps -/

/-- With no event pending the block is idle. -/
theorem step_idle {s : State} (h : s.port = []) : step s = .next s := by
  simp [step, nextEvent, h]

/-- A step performs the next event. -/
theorem step_event {s : State} {e : HostEvent} {rest : List HostEvent} (h : s.port = e :: rest) :
    step s = hostEvent e { s with port := rest } := by
  simp [step, nextEvent, h]

/-- A step whose next event is a write of a word to CMD issues that word. -/
theorem step_cmd {s : State} {w : Word} {rest : List HostEvent} (h : s.port = .write .word 0 w :: rest) :
    step s = issueCommand w { s with port := rest } := by
  rw [step_event h]; rfl

/-- The step right after `withFetchWord` issues the word placed, in the state as it was. -/
theorem step_withFetchWord (s : State) (nbits w : Nat) :
    step (s.withFetchWord nbits w) = issueCommand (BitVec.ofNat 32 (w % 2 ^ nbits)) s :=
  step_cmd (s := s.withFetchWord nbits w) rfl

/-! ### Registers -/

/-- Reading an entry after one is written. -/
theorem zGet_zSet (t : ZTable) (i j : Fin 5) (e : ZEntry) :
    zGet (zSet t i e) j = if j = i then e else zGet t j := by
  fin_cases i <;> fin_cases j <;> rfl

theorem readField_writeField (e : ZEntry) (f g : ZField) (v : Word) :
    readField (writeField e f v) g = if g = f then v else readField e g := by
  cases f <;> cases g <;> rfl

/-- A register write other than CTRL's leaves STATUS, FCMD, RES, pixel memory, the engine's accesses, the
events and the values read alone. -/
theorem writeReg_frame (r : Reg) (v : Word) (s : State) (h : r ≠ .ctrl) :
    SameFault s (writeReg r v s) ∧ (writeReg r v s).res = s.res ∧ SamePixels s (writeReg r v s) ∧
      SameOutside s (writeReg r v s) := by
  cases r <;> first
    | exact absurd rfl h
    | simp [writeReg, SameFault, SamePixels, SameOutside]

/-! ### Interrupted commands -/

theorem replayAccess_wf (x : PixAccess) {s : State} (h : Memory.wf s.mem = true) :
    Memory.wf (replayAccess s x).mem = true := by
  cases x
  · exact h
  · exact writePixel_wf h _ _

/-- Replaying accesses keeps the canonical form. -/
theorem replay_wf (xs : List PixAccess) {s : State} (h : Memory.wf s.mem = true) :
    Memory.wf (xs.foldl replayAccess s).mem = true := by
  induction xs generalizing s with
  | nil => exact h
  | cons x xs ih => exact ih (replayAccess_wf x h)

theorem replayAccess_onlyPixels (x : PixAccess) (s : State) : OnlyPixels s (replayAccess s x) := by
  cases x
  · simp [replayAccess, OnlyPixels, SameOperands, SameFault, SameTable, SameOutside]
  · exact portWrite_onlyPixels _ _ _

/-- Replaying accesses changes pixel memory and the engine's accesses at most. -/
theorem replay_onlyPixels (xs : List PixAccess) (s : State) : OnlyPixels s (xs.foldl replayAccess s) := by
  induction xs generalizing s with
  | nil => exact .refl s
  | cons x xs ih => exact (replayAccess_onlyPixels x s).trans (ih _)

/-- A pixel that no replayed access names is unchanged. -/
theorem readPixel_replay (xs : List PixAccess) (s : State) (a : PixAddr) (h : ∀ x ∈ xs, accessAddr x ≠ a) :
    readPixel (xs.foldl replayAccess s).mem a = readPixel s.mem a := by
  induction xs generalizing s with
  | nil => rfl
  | cons x xs ih =>
    rw [List.foldl_cons, ih _ fun y hy => h y (by simp [hy])]
    cases x with
    | read b p => rfl
    | write b p => exact readPixel_writePixel_ne _ _ (Ne.symm (h (.write b p) (by simp)))

end Sys2Proof.Machine
end

