-- ==== Sys2Proof/Laws/PerInstr.lean ====
section
/-! SUPPORT. What every command word looks like, command by command (30_encoding.md R53). -/

namespace Sys2Proof

/-- The word of a command has ZERO = 0, a family FAM from 1 to 5 and a number SUB from 0 to 7 (R53, R57). -/
def Laws.WordForm.Statement (i : Instr) : Prop :=
  zeroField (encode i) = 0 ∧ (1 ≤ famField (encode i) ∧ famField (encode i) ≤ 5) ∧ subField (encode i) ≤ 7

theorem Laws.WordForm.cFromint : Laws.WordForm.Statement .cFromint := by unfold Laws.WordForm.Statement; decide
theorem Laws.WordForm.cToint : Laws.WordForm.Statement .cToint := by unfold Laws.WordForm.Statement; decide
theorem Laws.WordForm.cMul : Laws.WordForm.Statement .cMul := by unfold Laws.WordForm.Statement; decide
theorem Laws.WordForm.cDiv : Laws.WordForm.Statement .cDiv := by unfold Laws.WordForm.Statement; decide
theorem Laws.WordForm.cFloor : Laws.WordForm.Statement .cFloor := by unfold Laws.WordForm.Statement; decide
theorem Laws.WordForm.cFrac : Laws.WordForm.Statement .cFrac := by unfold Laws.WordForm.Statement; decide
theorem Laws.WordForm.cRfrac : Laws.WordForm.Statement .cRfrac := by unfold Laws.WordForm.Statement; decide
theorem Laws.WordForm.cRound : Laws.WordForm.Statement .cRound := by unfold Laws.WordForm.Statement; decide
theorem Laws.WordForm.kPack : Laws.WordForm.Statement .kPack := by unfold Laws.WordForm.Statement; decide
theorem Laws.WordForm.kUnpack : Laws.WordForm.Statement .kUnpack := by unfold Laws.WordForm.Statement; decide
theorem Laws.WordForm.kBlend : Laws.WordForm.Statement .kBlend := by unfold Laws.WordForm.Statement; decide
theorem Laws.WordForm.pixSet : Laws.WordForm.Statement .pixSet := by unfold Laws.WordForm.Statement; decide
theorem Laws.WordForm.pixSetu : Laws.WordForm.Statement .pixSetu := by unfold Laws.WordForm.Statement; decide
theorem Laws.WordForm.pixBlend : Laws.WordForm.Statement .pixBlend := by unfold Laws.WordForm.Statement; decide
theorem Laws.WordForm.pixBlendu : Laws.WordForm.Statement .pixBlendu := by unfold Laws.WordForm.Statement; decide
theorem Laws.WordForm.spanSet : Laws.WordForm.Statement .spanSet := by unfold Laws.WordForm.Statement; decide
theorem Laws.WordForm.spanSetu : Laws.WordForm.Statement .spanSetu := by unfold Laws.WordForm.Statement; decide
theorem Laws.WordForm.spanBlend : Laws.WordForm.Statement .spanBlend := by unfold Laws.WordForm.Statement; decide
theorem Laws.WordForm.spanBlendu : Laws.WordForm.Statement .spanBlendu := by unfold Laws.WordForm.Statement; decide
theorem Laws.WordForm.line : Laws.WordForm.Statement .line := by unfold Laws.WordForm.Statement; decide
theorem Laws.WordForm.lineAa : Laws.WordForm.Statement .lineAa := by unfold Laws.WordForm.Statement; decide
theorem Laws.WordForm.triSetup : Laws.WordForm.Statement .triSetup := by unfold Laws.WordForm.Statement; decide
theorem Laws.WordForm.zClip : Laws.WordForm.Statement .zClip := by unfold Laws.WordForm.Statement; decide
theorem Laws.WordForm.zFill : Laws.WordForm.Statement .zFill := by unfold Laws.WordForm.Statement; decide
theorem Laws.WordForm.zFillaa : Laws.WordForm.Statement .zFillaa := by unfold Laws.WordForm.Statement; decide
theorem Laws.WordForm.triFill : Laws.WordForm.Statement .triFill := by unfold Laws.WordForm.Statement; decide
theorem Laws.WordForm.triFillaa : Laws.WordForm.Statement .triFillaa := by unfold Laws.WordForm.Statement; decide

end Sys2Proof
end

