-- ==== Sys2Proof/Tests/Slice0.lean ====
section
/-! SUPPORT. Small checks of one step each, with results taken from spec/95_test_vectors.md (T<n>) and the examples of
the rules (R<n>), and for every statement with hypotheses a state that meets them. -/

namespace Sys2Proof.Tests

open Sys2Proof.Machine

/-! ### Words: every command's word, bits 31:8, FAM, SUB written out from R53 and R55 -/

/-- A word from its three fields (R53). -/
def word (fam sub : BitVec 4) : Word := (0 : BitVec 24) ++ fam ++ sub

theorem test_decode_c : [0b0000#4, 0b0001#4, 0b0010#4, 0b0011#4, 0b0100#4, 0b0101#4, 0b0110#4, 0b0111#4].map
    (fun k => (decode (word 0b0001#4 k)).toOption) =
    [some .cFromint, some .cToint, some .cMul, some .cDiv, some .cFloor, some .cFrac, some .cRfrac,
     some .cRound] := by decide

theorem test_decode_k : [0b0000#4, 0b0001#4, 0b0010#4].map (fun k => (decode (word 0b0010#4 k)).toOption) =
    [some .kPack, some .kUnpack, some .kBlend] := by decide

theorem test_decode_pix : [0b0000#4, 0b0001#4, 0b0010#4, 0b0011#4, 0b0100#4, 0b0101#4, 0b0110#4, 0b0111#4].map
    (fun k => (decode (word 0b0011#4 k)).toOption) =
    [some .pixSet, some .pixSetu, some .pixBlend, some .pixBlendu, some .spanSet, some .spanSetu, some .spanBlend,
     some .spanBlendu] := by decide

theorem test_decode_line : [0b0000#4, 0b0001#4].map (fun k => (decode (word 0b0100#4 k)).toOption) =
    [some .line, some .lineAa] := by decide

theorem test_decode_zoid : [0b0000#4, 0b0001#4, 0b0010#4, 0b0011#4, 0b0100#4, 0b0101#4].map
    (fun k => (decode (word 0b0101#4 k)).toOption) =
    [some .triSetup, some .zClip, some .zFill, some .zFillaa, some .triFill, some .triFillaa] := by decide

/-- T7.11 to T7.13: words that are no command. -/
theorem test_decode_illegal :
    ([0x00000000, 0x00000118, 0x00000018, 0x23, 0x38, 0x42, 0x56, 0x60, 0xFF, 0x80000010] : List Word).map
      (fun w => (decode w).toOption) = List.replicate 10 none := by decide

theorem test_decodeTableWord : decodeTableWord 32 0x00000055 = some .triFillaa ∧ decodeTableWord 32 0x118 = none := by
  decide

/-! ### WellFormed: ill-formed accesses are refused by each check -/

theorem test_wf_byte : HostEvent.wellFormed (.write .byte 0x000 0) = false := by decide
theorem test_wf_half : HostEvent.wellFormed (.read .half 0x004) = false := by decide
theorem test_wf_misaligned : HostEvent.wellFormed (.read .word 0x006) = false := by decide
theorem test_wf_outside : HostEvent.wellFormed (.write .word 0x400 0) = false := by decide
theorem test_wf_last : HostEvent.wellFormed (.read .word 0x3FC) = true := by decide
theorem test_wf_instr : Instr.all.all Instr.wellFormed = true := by decide

/-! ### Small states and what a test looks at -/

/-- A value of the next state, if there is one. -/
def view {α : Type} (f : State → α) : Host.Outcome State Fault Refusal → Option α
  | .next t => some (f t)
  | .fault _ => none
  | .refused _ => none

/-- The reason of a refusal. -/
def refusalOf : Host.Outcome State Fault Refusal → Option Refusal
  | .refused r => some r
  | _ => none

/-- RES and STATUS after a command. -/
def resAndStatus (s : State) : Word × Word := (s.res, statusWord s)

/-- The engine's accesses, oldest first, with STATUS. -/
def accesses (s : State) : List PixAccess × Word := (s.trace.reverse, statusWord s)

/-- Only CA and CB are set. -/
def alu (ca cb : Word) : State := { State.reset with ca := ca, cb := cb }

/-- Only COLOR, DPIX and ALPHA are set. -/
def col (c : Color) (d : Pixel) (a : BitVec 8) : State := { State.reset with color := c, dpix := d, alpha := a }

/-- A tile over an empty memory. -/
def tiled (base : Word) (x y w h stride : BitVec 16) : State :=
  { State.reset with tileBase := base, tileX := x, tileY := y, tileW := w, tileH := h, tileStride := stride }

/-- Tile A of T4.1 to T4.8. -/
def tileA : State := tiled 100 2 3 4 3 8

/-- The tile of 10 by 10 pixels at 0 of T5.2 to T5.4. -/
def tileTen : State := tiled 0 0 0 10 10 10

/-- The tile of R149's examples and of section 6. -/
def tileClip : State := tiled 0 2 2 8 8 16

/-- The state with points 0, 1 and 2 set, the numbers as the registers hold them. -/
def pts (s : State) (x0 y0 x1 y1 x2 y2 : Int) : State :=
  { s with x0 := .ofInt 32 x0, y0 := .ofInt 32 y0, x1 := .ofInt 32 x1, y1 := .ofInt 32 y1, x2 := .ofInt 32 x2,
           y2 := .ofInt 32 y2 }

/-- The state with the table holding the trapezoids given. -/
def zoids (s : State) (zs : List Zoid) : State := setTable zs s

/-- The state with a list of events pending. -/
def events (s : State) (es : List HostEvent) : State := { s with port := es }

/-- The state halted by F_DIV_ZERO of C.DIV. -/
def stuck : State := { State.reset with fault := true, fcode := 2, fcmd := 0x13, zn := 2 }

/-- STATUS, FCMD and ZN. -/
def controls (s : State) : Word × Word × Nat := (statusWord s, s.fcmd, s.zn.toNat)

/-- The table and STATUS after a command. -/
def table (s : State) : List Zoid × Word := (zoidsOf s, statusWord s)

/-! ### Coordinate ALU (T2) -/

theorem test_fromint : view resAndStatus (exec .cFromint (alu 0xFFFFFFFD 0)) = some (0xFFFFFD00, 0) := by decide
theorem test_fromint_range : view controls (exec .cFromint (alu 0x00800000 0)) = some (0x301, 0x10, 0) := by decide
theorem test_toint : view resAndStatus (exec .cToint (alu 0xFFFFFA80 0)) = some (0xFFFFFFFB, 0) := by decide
theorem test_toint_min : view resAndStatus (exec .cToint (alu 0x80000000 0)) = some (0xFF800000, 0) := by decide
theorem test_mul : view resAndStatus (exec .cMul (alu 0xFFFFFFFF 1)) = some (0xFFFFFFFF, 0) := by decide
theorem test_mul_range : view controls (exec .cMul (alu 0x7FFFFFFF 0x101)) = some (0x301, 0x12, 0) := by decide
theorem test_div : view resAndStatus (exec .cDiv (alu 0xFFFFFF00 0x300)) = some (0xFFFFFFAB, 0) := by decide
theorem test_div_zero : view controls (exec .cDiv (alu 0 0)) = some (0x201, 0x13, 0) := by decide
theorem test_floor : view resAndStatus (exec .cFloor (alu 0xFFFFFA40 0)) = some (0xFFFFFA00, 0) := by decide
theorem test_frac : view resAndStatus (exec .cFrac (alu 0xFFFFFA40 0)) = some (0x40, 0) := by decide
theorem test_rfrac : view resAndStatus (exec .cRfrac (alu 0x100 0)) = some (0x100, 0) := by decide
theorem test_round : view resAndStatus (exec .cRound (alu 0xFFFFFA80 0)) = some (0xFFFFFB00, 0) := by decide
theorem test_round_range : view controls (exec .cRound (alu 0x7FFFFF80 0)) = some (0x301, 0x17, 0) := by decide

/-! ### Colour (T3) -/

theorem test_pack : view resAndStatus (exec .kPack (col 0x123456 0 0)) = some (0x11AA, 0) := by decide
theorem test_unpack : view resAndStatus (exec .kUnpack (col 0 0x8410 0)) = some (0x848284, 0) := by decide
theorem test_blend : view resAndStatus (exec .kBlend (col 0xFF8000 0x11AA 64)) = some (0x4A27, 0) := by decide
theorem test_blend_254 : view resAndStatus (exec .kBlend (col 0 0xFFFF 254)) = some (0, 0) := by decide

/-! ### Pixels and spans (T4.1 to T4.12) -/

/-- Tile A with pixel 135 holding 0xFFFF (T4.7, T4.8), a point or run, a colour and an alpha. -/
def onA (x0 x1 y : Int) (c : Color) (a : BitVec 8) : State :=
  { pts tileA x0 y x1 0 0 0 with color := c, alpha := a, mem := writePixel [] 135 0xFFFF }

theorem test_pixSet : view accesses (exec .pixSet (onA 5 0 5 0x0000FF 0)) = some ([.write 145 0x001F], 0) := by decide
theorem test_pixSet_outside : view accesses (exec .pixSet (onA 6 0 3 0xFF0000 0)) = some ([], 0) := by decide
theorem test_pixSetu : view accesses (exec .pixSetu (onA 2 0 3 0xFF0000 0)) = some ([.write 126 0xF800], 0) := by
  decide
theorem test_pixSetu_outside : refusalOf (exec .pixSetu (onA 6 0 3 0xFF0000 0)) = some .unclippedOutOfBounds := by
  decide
theorem test_pixBlend : view accesses (exec .pixBlend (onA 3 0 4 0x000000 100)) =
    some ([.read 135 0xFFFF, .write 135 0x9CD3], 0) := by decide
theorem test_pixBlend_255 : view accesses (exec .pixBlend (onA 3 0 4 0xFF0000 255)) =
    some ([.write 135 0xF800], 0) := by decide
theorem test_pixBlendu_0 : view accesses (exec .pixBlendu (onA 3 0 4 0xFF0000 0)) = some ([], 0) := by decide
theorem test_pixBlendu_outside : refusalOf (exec .pixBlendu (onA 3 0 6 0 0)) = some .unclippedOutOfBounds := by decide
theorem test_spanSet : view accesses (exec .spanSet (onA 0 9 4 0x00FF00 0)) =
    some ([.write 134 0x07E0, .write 135 0x07E0, .write 136 0x07E0, .write 137 0x07E0], 0) := by decide
theorem test_spanSet_wraps :
    view accesses (exec .spanSet { pts (tiled 0xFFFFFFFE 0 0 4 1 4) 0 0 3 0 0 0 with color := 0xFFFFFF }) =
    some ([.write 0xFFFFFFFE 0xFFFF, .write 0xFFFFFFFF 0xFFFF, .write 0 0xFFFF, .write 1 0xFFFF], 0) := by decide
theorem test_spanSetu : view accesses (exec .spanSetu (onA 3 4 4 0x00FF00 0)) =
    some ([.write 135 0x07E0, .write 136 0x07E0], 0) := by decide
theorem test_spanSetu_outside : refusalOf (exec .spanSetu (onA 3 6 4 0 0)) = some .unclippedOutOfBounds := by decide
theorem test_spanBlend : view accesses (exec .spanBlend (onA 3 4 4 0x000000 100)) =
    some ([.read 135 0xFFFF, .write 135 0x9CD3, .read 136 0, .write 136 0], 0) := by decide
theorem test_spanBlend_reversed : view accesses (exec .spanBlend (onA 4 3 4 0 100)) = some ([], 0) := by decide
theorem test_spanBlendu : view accesses (exec .spanBlendu (onA 3 4 4 0x000000 100)) =
    some ([.read 135 0xFFFF, .write 135 0x9CD3, .read 136 0, .write 136 0], 0) := by decide
theorem test_spanBlendu_empty : view accesses (exec .spanBlendu (onA 9 3 99 0 100)) = some ([], 0) := by decide

/-! ### Lines (T4.13 to T4.29) -/

/-- T4.21: a line cut by the tile, pixel by pixel. -/
theorem test_line : view accesses (exec .line (pts (tiled 0 0 0 4 4 4) (-512) (-256) 1536 768 0 0)) =
    some ([.write 0 0, .write 5 0, .write 6 0, .write 11 0], 0) := by decide +kernel

/-- T4.15, T4.14 and T4.16: steep, mirrored, fractional ends. -/
theorem test_line_pixels :
    slantedPixels (axisLine ⟨256, 256⟩ ⟨512, 1536⟩) = [⟨1, 1⟩, ⟨1, 2⟩, ⟨1, 3⟩, ⟨2, 4⟩, ⟨2, 5⟩, ⟨2, 6⟩] ∧
    slantedPixels (axisLine ⟨0, 0⟩ ⟨1024, -512⟩) = [⟨0, 0⟩, ⟨1, -1⟩, ⟨2, -1⟩, ⟨3, -2⟩, ⟨4, -2⟩] ∧
    slantedPixels (axisLine ⟨128, 64⟩ ⟨1472, 640⟩) = [⟨1, 0⟩, ⟨2, 1⟩, ⟨3, 1⟩, ⟨4, 2⟩, ⟨5, 2⟩, ⟨6, 3⟩] := by decide

/-- T4.28. -/
theorem test_lineAa_plots : lineAaPlots ⟨128, 64⟩ ⟨1472, 640⟩ =
    [⟨1, 0, 137⟩, ⟨1, 1, 118⟩, ⟨6, 2, 25⟩, ⟨6, 3, 38⟩, ⟨2, 0, 27⟩, ⟨2, 1, 228⟩, ⟨3, 1, 173⟩, ⟨3, 2, 82⟩,
     ⟨4, 1, 64⟩, ⟨4, 2, 191⟩, ⟨5, 2, 210⟩, ⟨5, 3, 45⟩] := by decide

/-- T4.26 on a memory of zeros with COLOR = 0xFFFFFF: alpha 127 packs to 0x7BEF, alpha 255 overwrites. -/
theorem test_lineAa :
    view accesses (exec .lineAa { pts (tiled 0 0 0 4 4 4) 0 0 0 768 0 0 with color := 0xFFFFFF }) =
    some ([.read 0 0, .write 0 0x7BEF, .read 12 0, .write 12 0x7BEF, .write 4 0xFFFF, .write 8 0xFFFF], 0) := by
  decide

/-! ### Triangles and trapezoids (T5, T6) -/

theorem test_triSetup : view table (exec .triSetup (pts State.reset (-768) (-768) 3328 1024 1024 3840)) =
    some ([⟨-768, -768, -768, -72, 3328, 1024⟩, ⟨-72, 3328, 1024, 1024, 1024, 3840⟩], 0) := by decide
theorem test_triSetup_order : view table (exec .triSetup (pts State.reset 1024 512 256 1536 0 0)) =
    some ([⟨0, 0, 0, 85, 1024, 512⟩, ⟨85, 1024, 512, 256, 256, 1536⟩], 0) := by decide

/-- T6.2: a triangle that grows to five entries. -/
theorem test_zClip : view table (exec .zClip
      (zoids tileClip [⟨-768, -768, -768, -72, 3328, 1024⟩, ⟨-72, 3328, 1024, 1024, 1024, 3840⟩])) =
    some ([⟨512, 2157, 512, 512, 2560, 688⟩, ⟨512, 2560, 1024, 512, 2560, 1961⟩,
      ⟨512, 2098, 2526, 525, 2071, 2560⟩, ⟨512, 2560, 688, 512, 2560, 1024⟩, ⟨512, 2560, 1961, 512, 2098, 2526⟩],
      0) := by decide

/-- R149's single-entry examples, the masks 3, 12, 7, 13, 15 of min-x and 3, 12, 11, 14 of max-x. -/
theorem test_zClip_masks :
    ([⟨-512, 0, 768, 1024, 2048, 2304⟩, ⟨1024, 2048, 768, -512, 0, 2304⟩, ⟨-1024, 0, 768, -512, 1536, 1792⟩,
      ⟨-512, 1536, 768, -1024, 0, 1792⟩, ⟨-1024, 0, 768, -512, 256, 1792⟩, ⟨3072, 3584, 768, 1024, 2048, 2304⟩,
      ⟨1024, 2048, 768, 3072, 3584, 2304⟩, ⟨3072, 4096, 768, 1536, 3584, 1792⟩,
      ⟨1536, 3584, 768, 3072, 4096, 1792⟩] : List Zoid).map
      (fun z => (clipPasses (clipRect (tileOf tileClip)) [z]).toOption.map (·.zs)) =
    [some [⟨512, 512, 1152, 512, 1365, 1792⟩, ⟨512, 1365, 1792, 1024, 2048, 2304⟩],
     some [⟨1024, 2048, 768, 512, 1365, 1280⟩, ⟨512, 1365, 1280, 512, 512, 1920⟩],
     some [⟨512, 512, 1109, 512, 1536, 1792⟩], some [⟨512, 1536, 768, 512, 512, 1450⟩], some [],
     some [⟨2560, 2560, 1152, 1706, 2560, 1792⟩, ⟨1706, 2560, 1792, 1024, 2048, 2304⟩],
     some [⟨1024, 2048, 768, 1706, 2560, 1280⟩, ⟨1706, 2560, 1280, 2560, 2560, 1920⟩],
     some [⟨2560, 2560, 1109, 1536, 2560, 1792⟩], some [⟨1536, 2560, 768, 2560, 2560, 1450⟩]] := by decide

/-- T5.2, second row. -/
theorem test_zFill : view accesses (exec .zFill (zoids tileTen [⟨128, 832, 128, 512, 640, 960⟩])) =
    some ([.write 11 0, .write 12 0, .write 13 0, .write 22 0, .write 32 0], 0) := by decide

/-- T5.5. -/
theorem test_zFill_count : view controls (exec .zFill { tileTen with zn := 6 }) = some (0x401, 0x52, 6) := by decide

/-- T5.4, the third and fourth rows: both edges in one column; half pixels at both sides. -/
theorem test_zFillaa : view accesses (exec .zFillaa
      { zoids tileTen [⟨576, 704, 256, 576, 704, 512⟩] with color := 0xFFFFFF, alpha := 255 }) =
    some ([.read 12 0, .write 12 0x8410], 0) := by decide
theorem test_zFillaa_edges : view accesses (exec .zFillaa
      { zoids tileTen [⟨640, 1408, 256, 640, 1408, 512⟩] with color := 0xFFFFFF, alpha := 255 }) =
    some ([.read 12 0, .write 12 0x7BEF, .write 13 0xFFFF, .write 14 0xFFFF, .read 15 0, .write 15 0x8410], 0) := by
  decide

/-- P1. -/
theorem test_triFill : view accesses (exec .triFill
      { pts tileTen 256 256 1024 256 256 1024 with color := 0xFFFFFF }) =
    some ([.write 11 0xFFFF, .write 12 0xFFFF, .write 13 0xFFFF, .write 21 0xFFFF, .write 22 0xFFFF,
      .write 31 0xFFFF], 0) := by decide

/-- P5 and T1.6: the clipped table a whole call leaves. -/
theorem test_triFill_clipped : view table (exec .triFill (pts (tiled 0 2 2 6 6 10) 256 256 2304 512 768 2304)) =
    some ([⟨512, 2048, 512, 512, 2048, 810⟩, ⟨512, 1645, 1280, 704, 987, 2048⟩,
      ⟨512, 2048, 810, 512, 1645, 1280⟩], 0) := by decide +kernel

/-- T5.3. -/
theorem test_triFillaa : view accesses (exec .triFillaa
      { pts tileTen 256 256 1024 256 256 1024 with color := 0xFFFFFF, alpha := 255 }) =
    some ([.write 11 0xFFFF, .write 12 0xFFFF, .read 13 0, .write 13 0x8410, .write 21 0xFFFF, .read 22 0,
      .write 22 0x8410, .read 31 0, .write 31 0x8410], 0) := by decide

/-! ### Register port, faults, reset (T7, P4) -/

/-- What the last of two steps put out: a write, then a read of the same offset. -/
def writeRead (s : State) (off : Nat) (v : Word) : Option (List Word) :=
  match step (events s [.write .word off v, .read .word off]) with
  | .next t => view (·.output) (step t)
  | _ => none

/-- T7.1 to T7.9. -/
theorem test_port_readback :
    [writeRead State.reset 0x014 0x00018001, writeRead State.reset 0x018 0xFFFE, writeRead State.reset 0x01C 0x12345,
     writeRead State.reset 0x04C 0x1FF, writeRead State.reset 0x050 0xABCD1234, writeRead State.reset 0x080 13,
     writeRead State.reset 0x080 15, writeRead State.reset 0x028 5, writeRead State.reset 0x0B8 5,
     writeRead State.reset 0x004 0xFFFFFFFF, writeRead State.reset 0x05C 1, writeRead State.reset 0x134 7] =
    [some [0xFFFF8001], some [0xFFFFFFFE], some [0x2345], some [0xFF], some [0x1234], some [5], some [7], some [0],
     some [0], some [0], some [0], some [7]] := by decide

/-- T7.11 and T7.12. -/
theorem test_port_illegal :
    view controls (step (events State.reset [.write .word 0 0])) = some (0x101, 0, 0) ∧
    view controls (step (events State.reset [.write .word 0 0x118])) = some (0x101, 0x118, 0) := by decide

/-- T7.14 to T7.16. -/
theorem test_port_halted :
    view controls (step (events stuck [.write .word 0 0x30])) = some (0x201, 0x13, 2) ∧
    view controls (step (events stuck [.write .word 8 0])) = some (0x201, 0x13, 2) ∧
    view controls (step (events stuck [.write .word 8 0xFFFFFFFF])) = some (0, 0, 0) := by decide

/-- R171 and R173: `rst` clears the controls; one during a command too. -/
theorem test_port_rst :
    view controls (step (events stuck [.rst])) = some (0, 0, 0) ∧
    view controls (step (events (alu 1 0) [.cmdRst 0x13])) = some (0, 0, 0) := ⟨rfl, rfl⟩

/-- The host's placing of a command. -/
theorem test_withFetchWord :
    view resAndStatus (step ((alu 0x700 0x200).withFetchWord 32 0x13)) = some (0x380, 0) := by decide

/-! ### For every statement with hypotheses, operands that meet them, clause by clause -/

theorem test_witness_UnlistedWordsTakeIllegalCommand :
    (events State.reset [.write .word 0 0x55]).fault = false ∧ (0x55 : Word) = encode .triFillaa ∧
    (∀ i, (0x56 : Word) ≠ encode i) ∧ ∀ i, (0x110 : Word) ≠ encode i :=
  ⟨rfl, rfl, by intro i; cases i <;> decide, by intro i; cases i <;> decide⟩

theorem test_witness_StepRunsTheDecodedCommand :
    ((events State.reset [.write .word 0 0x10]).port = .write .word 0 0x10 :: [] ∧ State.reset.fault = false ∧
      (decode 0x10).toOption = some .cFromint) ∧
    ((events stuck [.write .word 0 0x10]).port = .write .word 0 0x10 :: [] ∧ stuck.fault = true) ∧
    (events stuck [.read .word 0]).port = .read .word 0 :: [] := by decide

theorem test_witness_OnlyResetsLeaveTheHaltedState :
    (∃ t, step (events stuck [.write .word 0 0x10]) = .next t ∧ t.fault = true) ∧
    (∃ t, step (events stuck [.write .word 8 1]) = .next t ∧ t.fault = false) ∧
    (∃ t, step (events stuck [.rst]) = .next t ∧ t.fault = false) ∧
    (∃ t, step (events stuck [.cmdRst 0x10]) = .next t ∧ t.fault = false) :=
  ⟨⟨_, rfl, rfl⟩, ⟨_, rfl, rfl⟩, ⟨_, rfl, rfl⟩, ⟨_, rfl, rfl⟩⟩

theorem test_witness_FaultsComeOnlyFromCommandWrites :
    ∃ t, step (events State.reset [.write .word 0 0x13]) = .next t ∧ State.reset.fault = false ∧ t.fault = true :=
  ⟨_, rfl, rfl, rfl⟩

/-- T6.3: five entries that each need a split. -/
def overfull : State :=
  zoids tileClip [⟨0, 1536, 512, 1024, 2048, 768⟩, ⟨0, 1536, 768, 1024, 2048, 1024⟩,
    ⟨0, 1536, 1024, 1024, 2048, 1280⟩, ⟨0, 1536, 1280, 1024, 2048, 1536⟩, ⟨0, 1536, 1536, 1024, 2048, 1792⟩]

theorem test_witness_FaultsComeBeforePixels :
    (∃ t, exec .zClip overfull = .next t ∧ t.fault = true ∧ t.fcode = 9) ∧
    (∃ t, exec .zFill { tileTen with zn := 6 } = .next t ∧ t.fault = true ∧ t.fcode.toNat < 7) :=
  ⟨⟨_, rfl, rfl, rfl⟩, ⟨_, rfl, rfl, by decide⟩⟩

theorem test_witness_CommandsRaiseOnlyTheirCauses :
    overfull.fault = false ∧ ∃ t, exec .zClip overfull = .next t ∧ t.fault = true :=
  ⟨rfl, _, rfl, rfl⟩

theorem test_witness_ControlWriteSoftResets :
    ((events stuck [.write .word 8 1]).port = .write .word 8 1 :: [] ∧ (1 : Word).getLsbD 0 = true) ∧
    ((events stuck [.write .word 8 0xFFFFFFFE]).port = .write .word 8 0xFFFFFFFE :: [] ∧
      (0xFFFFFFFE : Word).getLsbD 0 = false) ∧
    (events stuck [.read .word 8]).port = .read .word 8 :: [] := by decide

theorem test_witness_HardwareResetClearsStatus : (events stuck [.rst]).port = .rst :: [] := rfl

theorem test_witness_InterruptedCommandKeepsItsFirstWrites :
    ∃ t, step (events (onA 5 0 5 0x0000FF 0) [.cmdRst 0x30]) = .next t := ⟨_, rfl⟩

theorem test_witness_EveryStepKeepsTheInvariant :
    (MachineInv (events (onA 5 0 5 0x0000FF 0) [.write .word 0 0x30]) ∧
      ∃ t, step (events (onA 5 0 5 0x0000FF 0) [.write .word 0 0x30]) = .next t) ∧
    (MachineInv (events stuck [.rst]) ∧ ∃ t, step (events stuck [.rst]) = .next t) := by
  refine ⟨⟨?_, _, rfl⟩, ⟨?_, _, rfl⟩⟩ <;> (unfold MachineInv FaultRegsAgree; decide)

theorem test_witness_RegisterPortFollowsTheMap :
    ((events State.reset [.write .word 0x134 5]).port = .write .word (regOffset (.z 4 .y1)) 5 :: [] ∧
      Reg.z 4 .y1 ≠ .cmd ∧ Reg.z 4 .y1 ≠ .ctrl ∧ Reg.z 4 .y1 ≠ .status ∧ Reg.z 4 .y1 ≠ .fcmd ∧ Reg.z 4 .y1 ≠ .res ∧
      Reg.z 4 .xr1 ≠ .z 4 .y1) ∧
    ((events State.reset [.write .word 0x014 0x18001]).port = .write .word (regOffset .tileX) 0x18001 :: []) ∧
    ((events State.reset [.write .word 0x05C 1]).port = .write .word (regOffset .res) 1 :: []) ∧
    ((events State.reset [.read .word 0x080]).port = .read .word (regOffset .zn) :: []) := by decide

theorem test_witness_UndefinedOffsetsReadZero :
    (0x028 % 4 = 0 ∧ 0x028 < 0x400 ∧ ∀ r, regOffset r ≠ 0x028) ∧ (0x3FC < 0x400 ∧ ∀ r, regOffset r ≠ 0x3FC) := by
  refine ⟨⟨by decide, by decide, ?_⟩, by decide, ?_⟩ <;>
  · intro r
    cases r with
    | z i f => revert i; cases f <;> decide
    | _ => decide

theorem test_witness_PortRefusesOtherThanAlignedWords :
    ((events State.reset [.read .byte 0]).port = .read .byte 0 :: [] ∧ AccessSize.byte ≠ .word) ∧
    ((events State.reset [.write .half 0x3FE 0]).port = .write .half 0x3FE 0 :: [] ∧ AccessSize.half ≠ .word) ∧
    ((events State.reset [.read .word 1]).port = .read .word 1 :: [] ∧ 1 % 4 ≠ 0) ∧
    ((events State.reset [.write .word 0x3FF 0]).port = .write .word 0x3FF 0 :: [] ∧ 0x3FF % 4 ≠ 0) := by decide

theorem test_witness_AccessOutsideTheBlockStops :
    0x400 % 4 = 0 ∧ (events State.reset [.read .word 0x400]).port = .read .word 0x400 :: [] ∧
    (events State.reset [.write .word 0x400 7]).port = .write .word 0x400 7 :: [] := by decide

theorem test_witness_OutsidePixelWriteIsReadBack :
    (events State.reset [.pixWrite 0xFFFFFFFF 0xF800, .pixRead 0xFFFFFFFF]).port =
      .pixWrite 0xFFFFFFFF 0xF800 :: .pixRead 0xFFFFFFFF :: [] := rfl

theorem test_witness_CommandsNeverWriteOperands : ∃ t, exec .pixSet (onA 5 0 5 0x0000FF 0) = .next t := ⟨_, rfl⟩

theorem test_witness_AccessesStayInTheFootprint :
    ∃ t, exec .pixSet (onA 5 0 5 0x0000FF 0) = .next t ∧ t.trace = [.write 145 0x001F] := ⟨_, rfl, by decide⟩

theorem test_witness_ReadsAreFollowedByWrites :
    (∃ t, exec .pixBlend (onA 3 0 4 0 100) = .next t) ∧ (∃ t, exec .cMul (alu 1 1) = .next t) ∧
    ∃ t, exec .pixSet (onA 5 0 5 0x0000FF 0) = .next t := ⟨⟨_, rfl⟩, ⟨_, rfl⟩, ⟨_, rfl⟩⟩

theorem test_witness_RepeatedSetCommandChangesNothing :
    Instr.pixSet ∈ [Instr.pixSet, .pixSetu, .spanSet, .spanSetu, .line, .zFill, .triFill] ∧
    ∃ t, exec .pixSet (onA 5 0 5 0x0000FF 0) = .next t := ⟨by decide, _, rfl⟩

theorem test_witness_FromintScalesOrFaults :
    (-8388608 ≤ (alu 0x007FFFFF 0).ca.toInt ∧ (alu 0x007FFFFF 0).ca.toInt ≤ 8388607) ∧
    (-8388608 ≤ (alu 0xFF800000 0).ca.toInt ∧ (alu 0xFF800000 0).ca.toInt ≤ 8388607) ∧
    8388607 < (alu 0x00800000 0).ca.toInt ∧ (alu 0xFF7FFFFF 0).ca.toInt < -8388608 := by decide

/-- The product of C.MUL before the range check. -/
def product (s : State) : Int := s.ca.toInt * s.cb.toInt / 256

theorem test_witness_MulRescalesOrFaults :
    product (alu 0x7FFFFFFF 0x100) = 2147483647 ∧ product (alu 0x80000000 0x100) = -2147483648 ∧
    2147483647 < product (alu 0x80000000 0xFFFFFF00) ∧ product (alu 0x80000000 0x101) < -2147483648 := by decide

/-- The quotient of C.DIV before the range check. -/
def quotient (s : State) : Int := Int.tdiv (s.ca.toInt * 256) s.cb.toInt

theorem test_witness_DivChecksZeroThenRange :
    (alu 1 0).cb = 0 ∧ ((alu 0x80000000 0x100).cb ≠ 0 ∧ quotient (alu 0x80000000 0x100) = -2147483648) ∧
    ((alu 0x80000000 0xFFFFFF00).cb ≠ 0 ∧ 2147483647 < quotient (alu 0x80000000 0xFFFFFF00)) ∧
    ((alu 0xFF7FFFFF 1).cb ≠ 0 ∧ quotient (alu 0xFF7FFFFF 1) < -2147483648) := by decide

theorem test_witness_RoundTiesUpOrFaults :
    (alu 0x7FFFFF7F 0).ca.toInt ≤ 0x7FFFFF7F ∧ 0x7FFFFF7F < (alu 0x7FFFFF80 0).ca.toInt := by decide

/-- Whether a state's pixel (X0, Y0) is in its tile. -/
def inTile (s : State) : Bool := inside (tileOf s) s.x0.toInt s.y0.toInt

theorem test_witness_PixSetStoresOnePixel :
    inTile (onA 5 0 5 0 0) = true ∧ inTile (onA 2 0 3 0 0) = true ∧ inTile (onA 6 0 5 0 0) = false ∧
    inTile (onA 5 0 6 0 0) = false ∧ inTile (onA 1 0 3 0 0) = false := by decide

theorem test_witness_PixBlendReadsThenWrites :
    (inTile (onA 5 0 5 0 0) = true ∧ (onA 5 0 5 0 0).alpha = 0) ∧ inTile (onA 6 0 5 0 9) = false ∧
    (inTile (onA 5 0 5 0 255) = true ∧ (onA 5 0 5 0 255).alpha = 255) ∧
    (inTile (onA 5 0 5 0 254) = true ∧ (onA 5 0 5 0 254).alpha ≠ 0 ∧ (onA 5 0 5 0 254).alpha ≠ 255) := by decide

theorem test_witness_UnclippedCommandsMatchTheirTwins :
    inTile (onA 5 0 5 0 0) = true ∧ inTile (onA 6 0 5 0 0) = false ∧
    (∀ x, (onA 2 5 4 0 0).x0.toInt ≤ x → x ≤ (onA 2 5 4 0 0).x1.toInt →
      inside (tileOf (onA 2 5 4 0 0)) x (onA 2 5 4 0 0).y0.toInt = true) ∧
    (∃ x, (onA 2 6 4 0 0).x0.toInt ≤ x ∧ x ≤ (onA 2 6 4 0 0).x1.toInt ∧
      inside (tileOf (onA 2 6 4 0 0)) x (onA 2 6 4 0 0).y0.toInt = false) := by
  refine ⟨by decide, by decide, fun x h0 h1 => ?_, 6, by decide, by decide, by decide⟩
  change (2 : Int) ≤ x at h0
  change x ≤ (5 : Int) at h1
  obtain rfl | rfl | rfl | rfl : x = 2 ∨ x = 3 ∨ x = 4 ∨ x = 5 := by omega
  all_goals decide

theorem test_witness_AxisParallelLinesStoreRuns :
    (point0 (pts tileTen 5 7 5 7 0 0)).y = (point1 (pts tileTen 5 7 5 7 0 0)).y ∧
    (point0 (pts tileTen 5 0 5 1 0 0)).y ≠ (point1 (pts tileTen 5 0 5 1 0 0)).y ∧
    (point0 (pts tileTen 5 0 5 1 0 0)).x = (point1 (pts tileTen 5 0 5 1 0 0)).x := by decide

theorem test_witness_SlantedLineStoresNearestPixels :
    (point0 (pts tileTen 0 0 1 1 0 0)).y ≠ (point1 (pts tileTen 0 0 1 1 0 0)).y ∧
    (point0 (pts tileTen 0 0 1 1 0 0)).x ≠ (point1 (pts tileTen 0 0 1 1 0 0)).x := by decide

theorem test_witness_StepperIsItsClosedForm :
    (⟨128, 64⟩ : Point).x ≠ (⟨1472, 640⟩ : Point).x ∧ (⟨128, 64⟩ : Point).y ≠ (⟨1472, 640⟩ : Point).y := by decide

theorem test_witness_AntialiasedLinePlotsCoverage :
    point0 (pts tileTen 256 256 256 256 0 0) = point1 (pts tileTen 256 256 256 256 0 0) ∧
    point0 (pts tileTen 256 256 256 257 0 0) ≠ point1 (pts tileTen 256 256 256 257 0 0) := by decide

theorem test_witness_CoverageIsConserved : (0 : Int) ≤ 0 ∧ (0 : Int) ≤ 256 ∧ (256 : Int) ≤ 256 := by decide

/-- The source's triangle (P1). -/
def tri : State := { pts tileTen 256 256 1024 256 256 1024 with color := 0xFFFFFF, alpha := 255 }

/-- A triangle with its vertices out of order (T5.1). -/
def triMixed : State := pts tileTen 1024 512 256 1536 0 0

theorem test_witness_TriangleSetupStoresThePieces :
    [(⟨0, 0⟩ : Point), ⟨1024, 512⟩, ⟨256, 1536⟩].Perm [point0 triMixed, point1 triMixed, point2 triMixed] ∧
    [(⟨256, 256⟩ : Point), ⟨1024, 256⟩, ⟨256, 1024⟩].Perm [point0 tri, point1 tri, point2 tri] := by decide

/-- T5.1: three colinear vertices. -/
def triFlat : State := pts tileTen 0 0 2048 1024 512 256

theorem test_witness_ColinearTrianglesDrawNothing :
    ((point1 triFlat).x - (point0 triFlat).x) * ((point2 triFlat).y - (point0 triFlat).y) =
      ((point2 triFlat).x - (point0 triFlat).x) * ((point1 triFlat).y - (point0 triFlat).y) := by decide

/-- T6.4: y1 of the first entry is not y0 of the second. -/
def gapped : State := zoids tileClip [⟨768, 1280, 768, 1024, 2048, 1536⟩, ⟨1024, 2048, 1792, 1024, 2048, 2048⟩]

/-- T6.4: xl0 > xr0. -/
def crossed : State := zoids tileClip [⟨1536, 0, 768, 1024, 2048, 1792⟩]

theorem test_witness_TableChecksComeInOrder :
    5 < ({ crossed with zn := 6 } : State).zn.toNat ∧
    (crossed.zn.toNat ≤ 5 ∧ ∃ z ∈ zoidsOf crossed, ¬(z.y0 ≤ z.y1 ∧ z.xl0 ≤ z.xr0 ∧ z.xl1 ≤ z.xr1)) ∧
    (gapped.zn.toNat ≤ 5 ∧ (∀ z ∈ zoidsOf gapped, z.y0 ≤ z.y1 ∧ z.xl0 ≤ z.xr0 ∧ z.xl1 ≤ z.xr1) ∧
      ∃ i a b, (zoidsOf gapped)[i]? = some a ∧ (zoidsOf gapped)[i + 1]? = some b ∧ a.y1 ≠ b.y0) :=
  ⟨by decide, by decide, by decide, by decide, 0, _, _, rfl, rfl, by decide⟩

theorem test_witness_HardFillStoresSampledPixels :
    overfull.zn.toNat ≤ 5 ∧ overfull.zn = 5 ∧ ∀ z ∈ zoidsOf overfull, zoidValid z = true := by decide

theorem test_witness_AntialiasedFillPlotsRows :
    overfull.zn.toNat ≤ 5 ∧ ∀ z ∈ zoidsOf overfull, zoidValid z = true := by decide

theorem test_witness_BlendAlphasAreBytes :
    (∃ r, r ∈ lineAaPlots ⟨0, 0⟩ ⟨1024, 512⟩) ∧ ∀ z ∈ zoidsOf overfull, zoidValid z = true :=
  ⟨⟨_, List.mem_cons_self ..⟩, by decide⟩

/-- T5.4, first row: a whole-pixel rectangle. -/
def box : State := { zoids tileTen [⟨512, 1536, 256, 512, 1536, 1024⟩] with color := 0xFFFFFF, alpha := 255 }

theorem test_witness_WholePixelFillsAgree :
    box.zn.toNat ≤ 5 ∧ (∀ z ∈ zoidsOf box, zoidValid z = true) ∧ box.alpha = 255 ∧
    (∀ z ∈ zoidsOf box, z.xl0 = z.xl1 ∧ z.xr0 = z.xr1 ∧ z.xl0 % 256 = 0 ∧ z.xr0 % 256 = 0 ∧ z.y0 % 256 = 0 ∧
      z.y1 % 256 = 0) ∧ zoidsOf box ≠ [] := by decide

/-- One trapezoid on the clip tile of R149. -/
def one (z : Zoid) : State := zoids tileClip [z]

theorem test_witness_ClippedTableLiesInTheTile :
    (one ⟨0, 1536, 768, 1024, 2048, 1792⟩).fault = false ∧
    ∃ t, exec .zClip (one ⟨0, 1536, 768, 1024, 2048, 1792⟩) = .next t ∧ t.fault = false ∧ t.zn = 2 :=
  ⟨rfl, _, rfl, rfl, by decide⟩

/-- Two entries that reach every bound of the tile from inside. -/
def reaching : State := zoids tileClip [⟨512, 2560, 512, 768, 1792, 1280⟩, ⟨768, 1792, 1280, 512, 2560, 2560⟩]

/-- One entry above the tile, one that crosses its top bound 512 and one that crosses its bottom bound 2560. -/
def crossing : State :=
  zoids tileClip [⟨512, 512, 0, 512, 1024, 256⟩, ⟨512, 1536, 256, 768, 1792, 768⟩, ⟨768, 1792, 768, 1024, 2048, 4352⟩]

theorem test_witness_ClipKeepsWhatLiesInside :
    (reaching.zn.toNat ≤ 5 ∧ contiguous (zoidsOf reaching) = true ∧
      (∀ z ∈ zoidsOf reaching, zoidValid z = true ∧ z.y0 < z.y1) ∧
      ∀ z ∈ zoidsOf reaching, ZoidInTile (tileOf reaching) z) ∧
    (crossing.zn.toNat ≤ 5 ∧ contiguous (zoidsOf crossing) = true ∧
      (∀ z ∈ zoidsOf crossing, zoidValid z = true ∧ z.y0 < z.y1) ∧
      (∀ z ∈ zoidsOf crossing, ((512 : Int) ≤ z.xl0 ∧ z.xr0 ≤ 2560) ∧ (512 : Int) ≤ z.xl1 ∧ z.xr1 ≤ 2560) ∧
      clipRect (tileOf crossing) = ⟨512, 2560, 512, 2560⟩ ∧
      rowsKept 512 2560 (zoidsOf crossing) =
        [⟨640, 1664, 512, 768, 1792, 768⟩, ⟨768, 1792, 768, 896, 1920, 2560⟩]) ∧
    (crossing.fault = false ∧ ∃ t, exec .zClip crossing = .next t ∧ t.fault = false) := by
  refine ⟨by unfold ZoidInTile; decide, by decide, rfl, _, rfl, by decide⟩

/-- The hypotheses of the statement before its clauses. -/
def Uncut (z : Zoid) : Prop :=
  zoidsOf (one z) = [z] ∧ zoidValid z = true ∧ z.y0 < z.y1 ∧ (clipRect (tileOf (one z))).ymin ≤ z.y0 ∧
  z.y1 ≤ (clipRect (tileOf (one z))).ymax

/-- Entries that meet the hypotheses of the clause on the left bound 512, those of the one on the right bound 2560. -/
def LeftOnly (z : Zoid) : Prop := Uncut z ∧ z.xr0 ≤ 2560 ∧ z.xr1 ≤ 2560
def RightOnly (z : Zoid) : Prop := Uncut z ∧ (512 : Int) ≤ z.xl0 ∧ (512 : Int) ≤ z.xl1

/-- R149's examples of the masks 5, 1, 4, 15 of min-x, rows to the bounds of the tile. -/
theorem test_witness_ClipCutsOneEntryAtASide_left :
    (LeftOnly ⟨0, 1536, 512, 256, 1792, 2560⟩ ∧ minXMask 512 ⟨0, 1536, 512, 256, 1792, 2560⟩ = 5) ∧
    (LeftOnly ⟨0, 1536, 768, 1024, 2048, 1792⟩ ∧ minXMask 512 ⟨0, 1536, 768, 1024, 2048, 1792⟩ = 1) ∧
    (LeftOnly ⟨1024, 2048, 768, 0, 1536, 1792⟩ ∧ minXMask 512 ⟨1024, 2048, 768, 0, 1536, 1792⟩ = 4) ∧
    (LeftOnly ⟨-1024, 511, 768, -512, 256, 1792⟩ ∧ minXMask 512 ⟨-1024, 511, 768, -512, 256, 1792⟩ = 15) ∧
    (clipRect (tileOf tileClip)).xmin = 512 ∧ (clipRect (tileOf tileClip)).xmax = 2560 := by
  unfold LeftOnly Uncut; decide

/-- The masks 3, 12, 7, 13 of min-x, with ends on the bounds. -/
theorem test_witness_ClipCutsOneEntryAtASide_left_deep :
    (LeftOnly ⟨-256, 256, 768, 512, 2560, 1792⟩ ∧ minXMask 512 ⟨-256, 256, 768, 512, 2560, 1792⟩ = 3) ∧
    (LeftOnly ⟨512, 2560, 768, -256, 256, 1792⟩ ∧ minXMask 512 ⟨512, 2560, 768, -256, 256, 1792⟩ = 12) ∧
    (LeftOnly ⟨-256, 511, 768, 511, 512, 1792⟩ ∧ minXMask 512 ⟨-256, 511, 768, 511, 512, 1792⟩ = 7) ∧
    (LeftOnly ⟨511, 512, 768, -256, 511, 1792⟩ ∧ minXMask 512 ⟨511, 512, 768, -256, 511, 1792⟩ = 13) := by
  unfold LeftOnly Uncut; decide

/-- R149's examples of the masks 10, 2, 8 of max-x, and one wholly to the right. -/
theorem test_witness_ClipCutsOneEntryAtASide_right :
    (RightOnly ⟨1024, 3072, 768, 1280, 2816, 1280⟩ ∧ maxXMask 2560 ⟨1024, 3072, 768, 1280, 2816, 1280⟩ = 10) ∧
    (RightOnly ⟨1024, 3072, 768, 512, 2048, 1792⟩ ∧ maxXMask 2560 ⟨1024, 3072, 768, 512, 2048, 1792⟩ = 2) ∧
    (RightOnly ⟨512, 2048, 768, 1024, 3072, 1792⟩ ∧ maxXMask 2560 ⟨512, 2048, 768, 1024, 3072, 1792⟩ = 8) ∧
    (RightOnly ⟨2561, 3072, 768, 2816, 3072, 1792⟩ ∧ maxXMask 2560 ⟨2561, 3072, 768, 2816, 3072, 1792⟩ = 15) := by
  unfold RightOnly Uncut; decide

/-- The masks 3, 12, 11, 14 of max-x, with ends on the bounds. -/
theorem test_witness_ClipCutsOneEntryAtASide_right_deep :
    (RightOnly ⟨2816, 3328, 768, 512, 2560, 1792⟩ ∧ maxXMask 2560 ⟨2816, 3328, 768, 512, 2560, 1792⟩ = 3) ∧
    (RightOnly ⟨512, 2560, 768, 2816, 3328, 1792⟩ ∧ maxXMask 2560 ⟨512, 2560, 768, 2816, 3328, 1792⟩ = 12) ∧
    (RightOnly ⟨2561, 3328, 768, 2560, 2561, 1792⟩ ∧ maxXMask 2560 ⟨2561, 3328, 768, 2560, 2561, 1792⟩ = 11) ∧
    (RightOnly ⟨2560, 2561, 768, 2561, 3328, 1792⟩ ∧ maxXMask 2560 ⟨2560, 2561, 768, 2561, 3328, 1792⟩ = 14) := by
  unfold RightOnly Uncut; decide

theorem test_witness_ClipOfOneEntryCompletes :
    (one ⟨-512, 0, 768, 1024, 2048, 768⟩).zn.toNat ≤ 1 ∧
    ∀ z ∈ zoidsOf (one ⟨-512, 0, 768, 1024, 2048, 768⟩), zoidValid z = true := by decide

theorem test_witness_WholeCallsComposeTheirSteps :
    tri.fault = false ∧ ∃ t1 t2, exec .triSetup tri = .next t1 ∧ exec .zClip t1 = .next t2 ∧ t2.fault = false :=
  ⟨rfl, _, _, rfl, rfl, rfl⟩

theorem test_witness_TrianglesInsideTheTileAreFilled :
    [(⟨256, 256⟩ : Point), ⟨1024, 256⟩, ⟨256, 1024⟩].Perm [point0 tri, point1 tri, point2 tri] ∧
    PointInTile (tileOf tri) ⟨256, 256⟩ ∧ PointInTile (tileOf tri) ⟨1024, 256⟩ ∧
    PointInTile (tileOf tri) ⟨256, 1024⟩ := by
  unfold PointInTile; decide

end Sys2Proof.Tests
end

section
/-! PROOFS. The register port: the map, one aligned word access as a step, a register read after a register
write, and the obligations O16, O18, O4, O19 (10_state.md R23, R24, R33, R34). -/

namespace Sys2Proof.Machine

/-! ### The register map (R23, R33) -/

@[simp] theorem regAt_regOffset (r : Reg) : regAt (regOffset r) = some r := by
  cases r with
  | z i f => fin_cases i <;> cases f <;> rfl
  | _ => rfl

theorem zFieldAt_eq_some {j : Nat} {f : ZField} (h : zFieldAt j = some f) : j = zFieldOffset f := by
  unfold zFieldAt at h
  split at h <;> cases h <;> rfl

theorem zRegAt_eq_some {off : Nat} {r : Reg} (h : zRegAt off = some r) : off = regOffset r := by
  unfold zRegAt at h
  split at h
  next =>
    split at h
    next f hf =>
      cases h
      have hj := zFieldAt_eq_some hf
      simp only [regOffset]
      omega
    next => cases h
  next => cases h

/-- The converse of `regAt_regOffset`: a register stands at no other offset than its own. The last alternative
of the map is the Z table's part of it. -/
theorem regAt_eq_some {off : Nat} {r : Reg} (h : regAt off = some r) : off = regOffset r := by
  unfold regAt at h
  split at h
  case h_24 => exact zRegAt_eq_some h
  all_goals cases h; rfl

theorem regAt_eq_none {off : Nat} (h : ∀ r, regOffset r ≠ off) : regAt off = none :=
  Option.eq_none_iff_forall_ne_some.mpr fun r hr => h r (regAt_eq_some hr).symm

theorem regOffset_mod_four (r : Reg) : regOffset r % 4 = 0 := by
  cases r with
  | z i f => cases f <;> simp only [regOffset, zFieldOffset] <;> omega
  | _ => rfl

theorem regOffset_lt (r : Reg) : regOffset r < 0x400 := by
  cases r with
  | z i f => cases f <;> simp only [regOffset, zFieldOffset] <;> omega
  | _ => simp [regOffset]

/-- The listed offsets are those of `regOffset`. -/
theorem portMap_offset : ∀ e ∈ portMap, e.1 = regOffset e.2 := by decide

/-! ### One register access as a step (R23, R33, R34) -/

section
variable {s : State} {off : Nat} {v : Word} {rest : List HostEvent}

/-- Every register access goes through the check of its form, whatever it would do. -/
theorem step_access {size : AccessSize}
    (h : s.port = .read size off :: rest ∨ s.port = .write size off v :: rest) :
    ∃ go, step s = checkedAccess size off go := by
  obtain h | h := h <;> exact ⟨_, step_event h⟩

theorem checkedAccess_not_word {size : AccessSize} (go : Host.Outcome State Fault Refusal) (h : size ≠ .word) :
    checkedAccess size off go = .refused .portAccessSize := by
  simp [checkedAccess, h]

theorem checkedAccess_misaligned (go : Host.Outcome State Fault Refusal) (h : off % 4 ≠ 0) :
    checkedAccess .word off go = .refused .portMisaligned := by
  simp [checkedAccess, h]

theorem step_writeWord (h4 : off % 4 = 0) (hlt : off < 0x400) (h : s.port = .write .word off v :: rest) :
    step s = portWriteWord off v { s with port := rest } :=
  (step_event h).trans (checkedAccess_word _ h4 hlt)

theorem step_readWord (h4 : off % 4 = 0) (hlt : off < 0x400) (h : s.port = .read .word off :: rest) :
    step s = .next { s with port := rest, output := portReadWord off { s with port := rest } :: s.output } :=
  (step_event h).trans (checkedAccess_word _ h4 hlt)

theorem portWriteWord_reg {r : Reg} (hr : r ≠ .cmd) (v : Word) (s : State) :
    portWriteWord (regOffset r) v s = .next (writeReg r v s) := by
  obtain ⟨hat, -⟩ | ⟨q, -, hat, hw⟩ | ⟨hat, -⟩ := portWriteWord_cases (regOffset r) v s <;>
    rw [regAt_regOffset] at hat
  · exact absurd (Option.some.inj hat) hr
  · cases hat
    exact hw
  · cases hat

theorem portWriteWord_undefined (h : regAt off = none) (v : Word) (s : State) :
    portWriteWord off v s = .next s := by
  simp [portWriteWord, h]

theorem portReadWord_reg (r : Reg) (s : State) : portReadWord (regOffset r) s = readReg s r := by
  simp [portReadWord]

theorem portReadWord_undefined (h : regAt off = none) (s : State) : portReadWord off s = 0 := by
  simp [portReadWord, h]

/-- The queue of events is no register. -/
@[simp] theorem readReg_port (r : Reg) (s : State) (rest : List HostEvent) :
    readReg { s with port := rest } r = readReg s r := by
  cases r <;> rfl

theorem step_writeReg {r : Reg} (hr : r ≠ .cmd) (h : s.port = .write .word (regOffset r) v :: rest) :
    step s = .next (writeReg r v { s with port := rest }) :=
  (step_writeWord (regOffset_mod_four r) (regOffset_lt r) h).trans (portWriteWord_reg hr _ _)

theorem step_readReg {r : Reg} (h : s.port = .read .word (regOffset r) :: rest) :
    step s = .next { s with port := rest, output := readReg s r :: s.output } := by
  rw [step_readWord (regOffset_mod_four r) (regOffset_lt r) h, portReadWord_reg, readReg_port]

end

/-! ### A register read after a register write (R23) -/

/-- Keeping the low `n` bits of a word and reading the others as 0. -/
theorem setWidth_setWidth_word (v : Word) (n : Nat) :
    (v.setWidth n).setWidth 32 = BitVec.ofNat 32 (v.toNat % 2 ^ n) :=
  BitVec.eq_of_toNat_eq (by simp)

/-- A read-write register that stores all 32 bits reads back the word written. -/
theorem readBack_full {r : Reg} (v : Word) (hn : storedBits r = 32) : readBack r v = v := by
  have hx : ¬(r = .tileX ∨ r = .tileY) := by rintro (rfl | rfl) <;> cases hn
  rw [readBack, if_neg hx, hn, ← setWidth_setWidth_word, BitVec.setWidth_eq, BitVec.setWidth_eq]

/-- A read-write register, that is none of CMD, CTRL (which store nothing) and the read-only STATUS, FCMD, RES,
reads back the bits it stores of the word written. -/
theorem readReg_writeReg_same {r : Reg} (v : Word) (s : State)
    (h : r ≠ .cmd ∧ r ≠ .ctrl ∧ r ≠ .status ∧ r ≠ .fcmd ∧ r ≠ .res) :
    readReg (writeReg r v s) r = readBack r v := by
  obtain ⟨hcmd, hctrl, hstatus, hfcmd, hres⟩ := h
  cases r with
  | cmd | ctrl | status | fcmd | res => contradiction
  | tileX | tileY => rfl
  | tileW | tileH | tileStride | color | alpha | dpix | zn => exact setWidth_setWidth_word v _
  | z i f =>
    rw [readBack_full v rfl]
    simp [readReg, writeReg, zGet_zSet, readField_writeField]
  | tileBase | x0 | y0 | x1 | y1 | x2 | y2 | ca | cb => exact (readBack_full v rfl).symm

/-- A write to one register of the Z table leaves the others of the table alone. -/
theorem readReg_writeReg_z_ne {i j : Fin 5} {f g : ZField} (v : Word) (s : State) (h : Reg.z j g ≠ .z i f) :
    readReg (writeReg (.z i f) v s) (.z j g) = readReg s (.z j g) := by
  simp only [readReg, writeReg, zGet_zSet]
  split
  next hij =>
    have hgf : g ≠ f := fun hgf => h (by rw [hij, hgf])
    rw [readField_writeField, if_neg hgf, hij]
  next => rfl

/-- A register write other than CTRL's leaves what every other register reads alone: outside the Z table each
register is a field of the state of its own. -/
theorem readReg_writeReg_ne {r r' : Reg} (v : Word) (s : State) (hctrl : r ≠ .ctrl) (hne : r' ≠ r) :
    readReg (writeReg r v s) r' = readReg s r' := by
  cases r with
  | ctrl => contradiction
  | z i f =>
    cases r' with
    | z j g => exact readReg_writeReg_z_ne v s hne
    | _ => rfl
  | _ => cases r' <;> first | contradiction | rfl

/-! ### The obligations -/

/-- Settles O16, from the register map, the step of a register access and a register read after a write. -/
theorem registerPortFollowsTheMap : Obligations.RegisterPortFollowsTheMap := by
  refine ⟨fun e he => ?_, fun i => ?_, fun s r v rest hp => ⟨fun hr => ?_, fun hr => ?_⟩,
    fun s => ⟨rfl, rfl⟩, fun s r rest => step_readReg⟩
  · rw [portMap_offset e he, regAt_regOffset]
  · exact ⟨regAt_regOffset (.z i .xl0), regAt_regOffset (.z i .xr0), regAt_regOffset (.z i .y0),
      regAt_regOffset (.z i .xl1), regAt_regOffset (.z i .xr1), regAt_regOffset (.z i .y1)⟩
  · have ⟨hcmd, hctrl, _⟩ := hr
    obtain ⟨-, -, hpix, -⟩ := writeReg_frame r v { s with port := rest } hctrl
    exact ⟨_, step_writeReg hcmd hp, readReg_writeReg_same v _ hr, hpix, fun r' hne =>
      (readReg_writeReg_ne v _ hctrl hne).trans (readReg_port r' s rest)⟩
  · obtain rfl | rfl | rfl := hr <;> exact step_writeReg (by decide) hp

/-- Settles O18: no register stands at the offset, so the port finds none there. -/
theorem undefinedOffsetsReadZero : Obligations.UndefinedOffsetsReadZero := by
  refine ⟨regOffset_lt, fun s off rest h4 hlt hno => ?_⟩
  have hnone : regAt off = none := regAt_eq_none hno
  refine ⟨fun hp => ?_, fun v hp => ?_⟩
  · rw [step_readWord h4 hlt hp, portReadWord_undefined hnone]
  · rw [step_writeWord h4 hlt hp, portWriteWord_undefined hnone]

/-- Settles O4, from what a CMD write can do and the read of a register. -/
theorem stepRunsTheDecodedCommand : Obligations.StepRunsTheDecodedCommand := by
  refine fun s rest => ⟨fun w i hp hf hd => ?_, fun w hp hf => ?_, fun hp => step_readReg (r := .cmd) hp⟩
  · exact (step_cmd hp).trans (issueCommand_decoded hf hd)
  · exact (step_cmd hp).trans (issueCommand_halted w hf)

/-- Settles O19: the check of the access's form decides, size before alignment. -/
theorem portRefusesOtherThanAlignedWords : Obligations.PortRefusesOtherThanAlignedWords := by
  intro s size off v rest hp
  obtain ⟨go, hgo⟩ := step_access hp
  refine ⟨fun hsize => ?_, fun hsize hmis => ?_⟩
  · rw [hgo, checkedAccess_not_word go hsize]
  · rw [hgo, hsize, checkedAccess_misaligned go hmis]

end Sys2Proof.Machine
end

section
/-! PROOFS. The decoder inverts the encoder, and what a CMD write of a listed and of an unlisted word does: the
obligations O3, O1 (30_encoding.md R53 to R55). -/

namespace Sys2Proof

/-! ### The three fields of a command word (R53) -/

/-- ZERO, FAM and SUB are all the bits of a word. -/
theorem toNat_eq_fields (w : Word) : w.toNat = 256 * (zeroField w).toNat + 16 * famField w + subField w := by
  have hw : w.toNat < 2 ^ 32 := w.isLt
  simp only [zeroField, famField, subField, BitVec.extractLsb'_toNat, Nat.shiftRight_eq_div_pow]
  omega

/-! ### Decoding and encoding (R54, R55) -/

/-- A row of the table carries the word that its FAM and SUB spell. -/
theorem commandAt_eq_some {fam sub : Nat} {i : Instr} (h : commandAt fam sub = some i) :
    (encode i).toNat = 16 * fam + sub := by
  unfold commandAt at h
  split at h <;> cases h <;> rfl

/-- A word decodes to a command only with ZERO = 0 and the command in the row of FAM, SUB. -/
theorem decode_eq_ok_fields {w : Word} {i : Instr} (h : decode w = .ok i) :
    zeroField w = 0 ∧ commandAt (famField w) (subField w) = some i := by
  unfold decode at h
  split at h
  next hzero =>
    split at h
    next hrow => cases h; exact ⟨hzero, hrow⟩
    next => cases h
  next => cases h

@[simp] theorem decode_encode (i : Instr) : decode (encode i) = .ok i := by
  cases i <;> rfl

/-- The converse of `decode_encode`: no other word decodes to the command. -/
theorem eq_encode_of_decode {w : Word} {i : Instr} (h : decode w = .ok i) : w = encode i := by
  obtain ⟨hzero, hrow⟩ := decode_eq_ok_fields h
  apply BitVec.eq_of_toNat_eq
  rw [toNat_eq_fields w, hzero, commandAt_eq_some hrow]
  simp

/-- The decoder rejects every word that is no command's. -/
theorem decode_error_of_unlisted {w : Word} (h : ∀ i, w ≠ encode i) : ∃ e, decode w = .error e := by
  cases hd : decode w with
  | ok i => exact absurd (eq_encode_of_decode hd) (h i)
  | error e => exact ⟨e, rfl⟩

end Sys2Proof

namespace Sys2Proof.Machine

/-! ### The obligations -/

/-- Settles O3: the decoder inverts the encoder, and a CMD write follows the decoder. -/
theorem unlistedWordsTakeIllegalCommand : Obligations.UnlistedWordsTakeIllegalCommand := by
  intro s w rest hp hf
  refine ⟨fun i hw => ?_, fun hno => ?_⟩
  · have hd : decode w = .ok i := by rw [hw, decode_encode]
    exact (step_cmd hp).trans (issueCommand_decoded hf hd)
  · obtain ⟨e, hd⟩ := decode_error_of_unlisted hno
    exact (step_cmd hp).trans (issueCommand_illegal hf hd)

/-- Settles O1: each word of the table is its command's, and `decode_encode` reads the command back. -/
theorem tableWordsDecode : Obligations.TableWordsDecode :=
  ⟨decode_encode .cFromint, decode_encode .cToint, decode_encode .cMul, decode_encode .cDiv,
    decode_encode .cFloor, decode_encode .cFrac, decode_encode .cRfrac, decode_encode .cRound,
    decode_encode .kPack, decode_encode .kUnpack, decode_encode .kBlend, decode_encode .pixSet,
    decode_encode .pixSetu, decode_encode .pixBlend, decode_encode .pixBlendu, decode_encode .spanSet,
    decode_encode .spanSetu, decode_encode .spanBlend, decode_encode .spanBlendu, decode_encode .line,
    decode_encode .lineAa, decode_encode .triSetup, decode_encode .zClip, decode_encode .zFill,
    decode_encode .zFillaa, decode_encode .triFill, decode_encode .triFillaa⟩

end Sys2Proof.Machine
end

section
/-! PROOFS. The coordinate ALU, family C: the masks of a coordinate, each command in terms of its exact result,
and the obligations O29, O30, O26, O27, O28, O31 (40_coord_alu.md R61 to R69). -/

namespace Sys2Proof.Machine

/-! ### The masks of a coordinate (R65 to R67) -/

/-- The low 8 bits of a word, as an unsigned number. -/
theorem toNat_and_lowByte (w : Word) : (w &&& 0x000000FF).toNat = w.toNat % 256 := by
  rw [BitVec.toNat_and]
  exact Nat.and_two_pow_sub_one_eq_mod w.toNat 8

/-- Masking the low 8 bits to zero is shifting them out and back. -/
theorem and_clearLowByte (w : Word) : w &&& (0xFFFFFF00 : Word) = w >>> 8 <<< 8 := by
  have hmask : (0xFFFFFF00 : Word) = BitVec.allOnes 32 <<< 8 := rfl
  rw [hmask, BitVec.shiftLeft_ushiftRight]

/-- The word without its low 8 bits, as an unsigned number. -/
theorem toNat_and_clearLowByte (w : Word) : (w &&& 0xFFFFFF00).toNat = w.toNat / 256 * 256 := by
  have hw : w.toNat < 2 ^ 32 := w.isLt
  rw [and_clearLowByte, BitVec.toNat_shiftLeft, BitVec.toNat_ushiftRight, Nat.shiftRight_eq_div_pow,
    Nat.shiftLeft_eq]
  omega

/-- R66: on the signed value the low 8 bits are the remainder of a floor division, since 256 divides 2^32. -/
theorem toInt_and_lowByte (w : Word) : (w &&& 0x000000FF).toInt = w.toInt % 256 := by
  rw [BitVec.toInt_eq_toNat_cond, BitVec.toInt_eq_toNat_cond, toNat_and_lowByte]
  omega

/-- R65: on the signed value clearing the low 8 bits rounds toward minus infinity. -/
theorem toInt_and_clearLowByte (w : Word) : (w &&& 0xFFFFFF00).toInt = 256 * (w.toInt / 256) := by
  rw [BitVec.toInt_eq_toNat_cond, BitVec.toInt_eq_toNat_cond, toNat_and_clearLowByte]
  omega

/-- R67: one minus the fraction, with no wrap as the fraction is at most 255. -/
theorem toInt_one_sub_lowByte (w : Word) : (256 - (w &&& 0xFF)).toInt = 256 - w.toInt % 256 := by
  rw [BitVec.toInt_sub, toInt_and_lowByte]
  exact Int.bmod_eq_of_le (by simp; omega) (by simp; omega)

/-! ### How a command with an exact result ends (R69) -/

/-- In range, RES reads back as the exact result and nothing else changes. -/
theorem setRes_ofInt {r : Int} (s : State) (h : inRange32 r = true) :
    (setRes (BitVec.ofInt 32 r) s).res.toInt = r ∧ OnlyRes s (setRes (BitVec.ofInt 32 r) s) :=
  ⟨toInt_ofInt_of_inRange h, setRes_onlyRes _ s⟩

/-- `finishInRange` with a result that 32 bits hold. -/
theorem finishInRange_res {r : Int} (w : Word) (s : State) (h : -2147483648 ≤ r ∧ r ≤ 2147483647) :
    (finishInRange w r s).res.toInt = r ∧ OnlyRes s (finishInRange w r s) := by
  have hr : inRange32 r = true := (inRange32_iff r).mpr h
  rw [finishInRange_ok w s hr]
  exact setRes_ofInt s hr

/-- `finishInRange` with a result that 32 bits do not hold: the whole next state. -/
theorem finishInRange_outside {r : Int} (w : Word) (s : State) (h : r < -2147483648 ∨ 2147483647 < r) :
    finishInRange w r s = { s with fault := true, fcode := 3, fcmd := w } :=
  finishInRange_fault w s (by rw [inRange32_iff]; omega)

/-! ### What each command does (R61 to R68) -/

theorem exec_cFromint (s : State) :
    exec .cFromint s = .next (finishInRange (encode .cFromint) (s.ca.toInt * 256) s) := rfl

theorem exec_cToint (s : State) :
    exec .cToint s = .next (setRes (BitVec.ofInt 32 (Int.tdiv s.ca.toInt 256)) s) := rfl

theorem exec_cMul (s : State) :
    exec .cMul s = .next (finishInRange (encode .cMul) (s.ca.toInt * s.cb.toInt / 256) s) := by
  rw [← asr8_eq]; rfl

theorem exec_cDiv_zero {s : State} (h : s.cb = 0) : exec .cDiv s = .next (raiseFault .divZero (encode .cDiv) s) :=
  if_pos (by rw [h]; rfl)

theorem exec_cDiv_nonzero {s : State} (h : s.cb ≠ 0) :
    exec .cDiv s = .next (finishInRange (encode .cDiv) (Int.tdiv (s.ca.toInt * 256) s.cb.toInt) s) :=
  if_neg fun h0 => h (BitVec.eq_of_toInt_eq h0)

theorem exec_cFloor (s : State) : exec .cFloor s = .next (setRes (s.ca &&& 0xFFFFFF00) s) := rfl

theorem exec_cFrac (s : State) : exec .cFrac s = .next (setRes (s.ca &&& 0x000000FF) s) := rfl

theorem exec_cRfrac (s : State) : exec .cRfrac s = .next (setRes (256 - (s.ca &&& 0xFF)) s) := rfl

theorem exec_cRound_fits {s : State} (h : s.ca.toInt ≤ 0x7FFFFF7F) :
    exec .cRound s = .next (setRes (BitVec.ofInt 32 (256 * ((s.ca.toInt + 128) / 256))) s) :=
  if_neg (by omega)

theorem exec_cRound_overflow {s : State} (h : 0x7FFFFF7F < s.ca.toInt) :
    exec .cRound s = .next (raiseFault .range (encode .cRound) s) :=
  if_pos (by omega)

/-! ### Results that always fit -/

/-- R62: the quotient by 256 has a 256th of the coordinate's magnitude. -/
theorem inRange32_tdiv_256 (w : Word) : inRange32 (Int.tdiv w.toInt 256) = true := by
  have hw := (inRange32_iff w.toInt).mp (toInt_inRange w)
  have hq : (Int.tdiv w.toInt 256).natAbs = w.toInt.natAbs / 256 := Int.natAbs_tdiv w.toInt 256
  rw [inRange32_iff]
  omega

/-- R68: rounding a coordinate keeps it in range as long as the addition of half does. -/
theorem inRange32_round {w : Word} (h : w.toInt ≤ 0x7FFFFF7F) :
    inRange32 (256 * ((w.toInt + 128) / 256)) = true := by
  have hw := (inRange32_iff w.toInt).mp (toInt_inRange w)
  rw [inRange32_iff]
  omega

/-! ### The obligations -/

/-- Settles O29: the zero test comes first, then the exact quotient ends as R69 says. -/
theorem divChecksZeroThenRange : Obligations.DivChecksZeroThenRange := by
  refine ⟨decode_encode .cDiv, fun s => ⟨fun hzero => ?_, fun hnz hfits => ?_, fun hnz hout => ?_⟩⟩
  · exact exec_cDiv_zero hzero
  · exact ⟨_, exec_cDiv_nonzero hnz, finishInRange_res _ s hfits⟩
  · rw [exec_cDiv_nonzero hnz, finishInRange_outside _ s hout]
    rfl

/-- Settles O30: the three masks on the signed value; the sum is division with remainder. -/
theorem floorFracRfracSplitACoordinate : Obligations.FloorFracRfracSplitACoordinate := by
  refine ⟨decode_encode .cFloor, decode_encode .cFrac, decode_encode .cRfrac, fun s =>
    ⟨_, _, _, exec_cFloor s, exec_cFrac s, exec_cRfrac s, toInt_and_clearLowByte s.ca, toInt_and_lowByte s.ca,
      toInt_one_sub_lowByte s.ca, ?sum, setRes_onlyRes _ s, setRes_onlyRes _ s, setRes_onlyRes _ s⟩⟩
  case sum =>
    rw [setRes_res, setRes_res, toInt_and_clearLowByte, toInt_and_lowByte]
    exact Int.mul_ediv_add_emod s.ca.toInt 256

/-- Settles O26: the product fits exactly for the operands named. -/
theorem fromintScalesOrFaults : Obligations.FromintScalesOrFaults := by
  refine ⟨decode_encode .cFromint, fun s => ⟨fun hfits => ?_, fun hout => ?_⟩⟩
  · exact ⟨_, exec_cFromint s, finishInRange_res _ s (by omega)⟩
  · rw [exec_cFromint, finishInRange_outside _ s (by omega)]
    rfl

/-- Settles O27: the quotient always fits. -/
theorem tointTruncates : Obligations.TointTruncates :=
  ⟨decode_encode .cToint, fun s => ⟨_, exec_cToint s, setRes_ofInt s (inRange32_tdiv_256 s.ca)⟩⟩

/-- Settles O28: the exact product over 256 ends as R69 says. -/
theorem mulRescalesOrFaults : Obligations.MulRescalesOrFaults := by
  refine ⟨decode_encode .cMul, fun s => ⟨fun hfits => ?_, fun hout => ?_⟩⟩
  · exact ⟨_, exec_cMul s, finishInRange_res _ s hfits⟩
  · rw [exec_cMul, finishInRange_outside _ s hout]
    rfl

/-- Settles O31: the addition of half decides, and what it lets through rounds to a value in range. -/
theorem roundTiesUpOrFaults : Obligations.RoundTiesUpOrFaults :=
  ⟨decode_encode .cRound, fun s =>
    ⟨fun hfits => ⟨_, exec_cRound_fits hfits, setRes_ofInt s (inRange32_round hfits)⟩, exec_cRound_overflow⟩⟩

end Sys2Proof.Machine
end

section
/-! PROOFS. The colour commands, family K: the channels of a colour and of a stored pixel as numbers, what packing,
widening and blending compute on them, and the obligations O32, O33, O34 (41_color_blend.md R75 to R82). -/

namespace Sys2Proof.Machine

/-! ### Channels side by side (R75, R76) -/

/-- A concatenation as a number: its parts share no bit, so `|||` is a sum. -/
theorem toNat_append_eq_add {m n : Nat} (x : BitVec m) (y : BitVec n) :
    (x ++ y).toNat = x.toNat * 2 ^ n + y.toNat := by
  rw [BitVec.toNat_append, ← Nat.shiftLeft_add_eq_or_of_lt y.isLt, Nat.shiftLeft_eq]

/-- A field of a word as a number. -/
theorem toNat_extractLsb'_eq_div_mod {n : Nat} (lsb len : Nat) (x : BitVec n) :
    (x.extractLsb' lsb len).toNat = x.toNat / 2 ^ lsb % 2 ^ len := by
  rw [BitVec.extractLsb'_toNat, Nat.shiftRight_eq_div_pow]

theorem redOf_eq_red8 (c : Color) : redOf c = (red8 c).toNat := by
  have hc : c.toNat < 2 ^ 24 := c.isLt
  rw [redOf, red8, toNat_extractLsb'_eq_div_mod]
  omega

theorem greenOf_eq_green8 (c : Color) : greenOf c = (green8 c).toNat := by
  rw [greenOf, green8, toNat_extractLsb'_eq_div_mod]
  omega

theorem blueOf_eq_blue8 (c : Color) : blueOf c = (blue8 c).toNat := by
  rw [blueOf, blue8, toNat_extractLsb'_eq_div_mod]
  omega

theorem toNat_red5 (p : Pixel) : (red5 p).toNat = p.toNat / 2048 := by
  have hp : p.toNat < 2 ^ 16 := p.isLt
  rw [red5, toNat_extractLsb'_eq_div_mod]
  omega

theorem toNat_green6 (p : Pixel) : (green6 p).toNat = p.toNat / 32 % 64 :=
  toNat_extractLsb'_eq_div_mod 5 6 p

theorem toNat_blue5 (p : Pixel) : (blue5 p).toNat = p.toNat % 32 := by
  rw [blue5, toNat_extractLsb'_eq_div_mod]
  omega

/-! ### Packing (R77) -/

/-- Repacking divides each channel by the bits it drops. -/
theorem toNat_packChannels (r g b : BitVec 8) :
    ((packChannels r g b).toNat : Int) = packed r.toNat g.toNat b.toNat := by
  have hr : r.toNat < 2 ^ 8 := r.isLt
  have hg : g.toNat < 2 ^ 8 := g.isLt
  have hb : b.toNat < 2 ^ 8 := b.isLt
  rw [packChannels, packed, toNat_append_eq_add, toNat_append_eq_add, toNat_extractLsb'_eq_div_mod,
    toNat_extractLsb'_eq_div_mod, toNat_extractLsb'_eq_div_mod]
  omega

theorem toNat_pack565 (c : Color) : ((pack565 c).toNat : Int) = packed (redOf c) (greenOf c) (blueOf c) := by
  rw [pack565, toNat_packChannels, redOf_eq_red8, greenOf_eq_green8, blueOf_eq_blue8]

/-! ### Widening (R78) -/

/-- Bit replication as arithmetic, for a channel of `k + m` bits widened by `k`: the high bits repeated below are
less than `2 ^ k`, so they share no bit with the channel shifted up. -/
theorem toNat_replicate_highBits {n k m : Nat} (v : BitVec n) (hsplit : n = k + m) (hwide : n + k = 8) :
    ((v.setWidth 8 <<< k) ||| (v.setWidth 8 >>> m)).toNat = v.toNat * 2 ^ k + v.toNat / 2 ^ m := by
  have hv : v.toNat < 2 ^ n := v.isLt
  have hfits : v.toNat * 2 ^ k < 2 ^ 8 := by
    rw [← hwide, pow_add]
    exact Nat.mul_lt_mul_of_pos_right hv (Nat.two_pow_pos k)
  have hhigh : v.toNat / 2 ^ m < 2 ^ k := by
    rw [Nat.div_lt_iff_lt_mul (Nat.two_pow_pos m), ← pow_add, ← hsplit]
    exact hv
  rw [BitVec.toNat_or, BitVec.toNat_shiftLeft, BitVec.toNat_ushiftRight,
    BitVec.toNat_setWidth_of_le (by omega), Nat.shiftRight_eq_div_pow, Nat.shiftLeft_eq, Nat.mod_eq_of_lt hfits,
    ← Nat.shiftLeft_eq, ← Nat.shiftLeft_add_eq_or_of_lt hhigh]

theorem toNat_widen5 (v : BitVec 5) : (widen5 v).toNat = v.toNat * 8 + v.toNat / 4 :=
  toNat_replicate_highBits (k := 3) (m := 2) v rfl rfl

theorem toNat_widen6 (v : BitVec 6) : (widen6 v).toNat = v.toNat * 4 + v.toNat / 16 :=
  toNat_replicate_highBits (k := 2) (m := 4) v rfl rfl

theorem wideRed_eq_widen5 (p : Pixel) : wideRed p = (widen5 (red5 p)).toNat := by
  rw [wideRed, toNat_widen5, toNat_red5]
  omega

theorem wideGreen_eq_widen6 (p : Pixel) : wideGreen p = (widen6 (green6 p)).toNat := by
  rw [wideGreen, toNat_widen6, toNat_green6]
  omega

theorem wideBlue_eq_widen5 (p : Pixel) : wideBlue p = (widen5 (blue5 p)).toNat := by
  rw [wideBlue, toNat_widen5, toNat_blue5]
  omega

theorem toNat_unpack888 (p : Pixel) :
    ((unpack888 p).toNat : Int) = wideRed p * 65536 + wideGreen p * 256 + wideBlue p := by
  rw [unpack888, toNat_append_eq_add, toNat_append_eq_add, wideRed_eq_widen5, wideGreen_eq_widen6,
    wideBlue_eq_widen5]
  omega

/-! ### The channels of a widened pixel -/

theorem red8_unpack888 (p : Pixel) : red8 (unpack888 p) = widen5 (red5 p) := by
  rw [← BitVec.toNat_inj, red8, unpack888, toNat_extractLsb'_eq_div_mod, toNat_append_eq_add, toNat_append_eq_add]
  omega

theorem green8_unpack888 (p : Pixel) : green8 (unpack888 p) = widen6 (green6 p) := by
  rw [← BitVec.toNat_inj, green8, unpack888, toNat_extractLsb'_eq_div_mod, toNat_append_eq_add,
    toNat_append_eq_add]
  omega

theorem blue8_unpack888 (p : Pixel) : blue8 (unpack888 p) = widen5 (blue5 p) :=
  BitVec.extractLsb'_append_eq_right

/-! ### Blending (R79) -/

theorem blendChannel_eq_mixed (dv sv a : Int) : blendChannel dv sv a = mixed dv sv a := rfl

/-- An alpha of at most 255 moves a channel by at most the whole distance. -/
theorem tdiv_255_between {dist a : Int} (hdist : 0 ≤ dist) (h0 : 0 ≤ a) (h1 : a ≤ 255) :
    0 ≤ Int.tdiv (dist * a) 255 ∧ Int.tdiv (dist * a) 255 ≤ dist := by
  have hpos : 0 ≤ dist * a := mul_nonneg hdist h0
  rw [Int.tdiv_eq_ediv_of_nonneg hpos]
  exact ediv_between (by decide) hpos (mul_le_mul_of_nonneg_left h1 hdist)

/-- A blended channel lies between the two channels it mixes: truncation toward zero shortens the way from `dv` to
`sv` whichever sign it has. -/
theorem mixed_between {dv sv a : Int} (h0 : 0 ≤ a) (h1 : a ≤ 255) :
    min dv sv ≤ mixed dv sv a ∧ mixed dv sv a ≤ max dv sv := by
  unfold mixed
  rcases le_total dv sv with hup | hdown
  · have := tdiv_255_between (sub_nonneg.mpr hup) h0 h1
    omega
  · have := tdiv_255_between (sub_nonneg.mpr hdown) h0 h1
    rw [← neg_sub dv sv, Int.neg_mul, Int.neg_tdiv]
    omega

/-- With an alpha of 8 bits the mixed channel fits the 8 bits that are repacked. -/
theorem toNat_blendChannel8 (dv sv alpha : BitVec 8) :
    ((blendChannel8 dv sv alpha.toNat).toNat : Int) = mixed dv.toNat sv.toNat alpha.toNat := by
  have hd : dv.toNat < 2 ^ 8 := dv.isLt
  have hs : sv.toNat < 2 ^ 8 := sv.isLt
  have ha : alpha.toNat < 2 ^ 8 := alpha.isLt
  have hmix := mixed_between (dv := dv.toNat) (sv := sv.toNat) (a := alpha.toNat) (by omega) (by omega)
  rw [blendChannel8, blendChannel_eq_mixed, BitVec.toNat_ofInt]
  omega

theorem toNat_blend565 (d : Pixel) (c : Color) (alpha : BitVec 8) :
    ((blend565 d c alpha.toNat).toNat : Int) =
      packed (mixed (wideRed d) (redOf c) alpha.toNat) (mixed (wideGreen d) (greenOf c) alpha.toNat)
        (mixed (wideBlue d) (blueOf c) alpha.toNat) := by
  rw [blend565, toNat_packChannels, toNat_blendChannel8, toNat_blendChannel8, toNat_blendChannel8,
    red8_unpack888, green8_unpack888, blue8_unpack888, wideRed_eq_widen5, wideGreen_eq_widen6,
    wideBlue_eq_widen5, redOf_eq_red8, greenOf_eq_green8, blueOf_eq_blue8]

/-! ### What each command does (R80 to R82) -/

theorem exec_kPack (s : State) : exec .kPack s = .next (setRes ((pack565 s.color).setWidth 32) s) := rfl

theorem exec_kUnpack (s : State) : exec .kUnpack s = .next (setRes ((unpack888 s.dpix).setWidth 32) s) := rfl

theorem exec_kBlend (s : State) :
    exec .kBlend s = .next (setRes ((blend565 s.dpix s.color s.alpha.toNat).setWidth 32) s) := rfl

/-- A colour or a pixel put in RES, its high bits zero: RES holds the same number and nothing else changes. -/
theorem setRes_setWidth {n : Nat} {v : BitVec n} {r : Int} (s : State) (hn : n ≤ 32) (h : (v.toNat : Int) = r) :
    ((setRes (v.setWidth 32) s).res.toNat : Int) = r ∧ OnlyRes s (setRes (v.setWidth 32) s) := by
  rw [setRes_res, BitVec.toNat_setWidth_of_le hn]
  exact ⟨h, setRes_onlyRes _ s⟩

/-! ### The obligations -/

/-- Settles O34: each channel of the blend stays within 8 bits, so repacking loses only the bits R77 drops. -/
theorem blendMixesChannels : Obligations.BlendMixesChannels :=
  ⟨decode_encode .kBlend, fun s =>
    ⟨_, exec_kBlend s, setRes_setWidth s (by decide) (toNat_blend565 s.dpix s.color s.alpha)⟩⟩

/-- Settles O32: the fields of the packed pixel are the channels without their low bits. -/
theorem packTruncatesChannels : Obligations.PackTruncatesChannels :=
  ⟨decode_encode .kPack, fun s => ⟨_, exec_kPack s, setRes_setWidth s (by decide) (toNat_pack565 s.color)⟩⟩

/-- Settles O33: the high bits of a field repeated below it are a sum. -/
theorem unpackReplicatesBits : Obligations.UnpackReplicatesBits :=
  ⟨decode_encode .kUnpack, fun s => ⟨_, exec_kUnpack s, setRes_setWidth s (by decide) (toNat_unpack888 s.dpix)⟩⟩

end Sys2Proof.Machine
end

section
/-! PROOFS. The pixel and span commands: one pixel stored or blended, blends at pixels of distinct addresses, the run
of a span and its addresses, and the obligations O40, O36, O37, O38, O39 (42_pixel_span.md R86 to R97). -/

namespace Sys2Proof.Machine

/-! ### One pixel stored or blended (R86, R87) -/

theorem runOp_set_outside {s : State} {x y : Int} (p : Pixel) (h : inside (tileOf s) x y = false) :
    runOp (.set x y p) s = s := by
  simp [runOp, pixSet, h]

theorem runOp_blend_outside {s : State} {x y : Int} (c : Color) (k : Int) (h : inside (tileOf s) x y = false) :
    runOp (.blend x y c k) s = s := by
  simp [runOp, pixBlend, h]

theorem runOp_blend_zero (x y : Int) (c : Color) (s : State) : runOp (.blend x y c 0) s = s := by
  simp [runOp, pixBlend]

/-- Alpha 255 is a store of the colour, inside the tile and outside. -/
theorem runOp_blend_opaque (x y : Int) (c : Color) (s : State) :
    runOp (.blend x y c 255) s = runOp (.set x y (pack565 c)) s := by
  simp [runOp, pixBlend, pixSet]

theorem runOp_blend_between {s : State} {x y k : Int} (c : Color) (h : inside (tileOf s) x y = true)
    (h0 : k ≠ 0) (h255 : k ≠ 255) :
    runOp (.blend x y c k) s = blendAt (pixAddr (tileOf s) x y) c k s := by
  simp [runOp, pixBlend, h, h0, h255]

/-- A blend inside the tile, by its alpha: the accesses it makes and what its pixel holds afterwards. -/
theorem runOp_blend_inside {s : State} {x y : Int} (c : Color) (k : Int) (h : inside (tileOf s) x y = true) :
    (runOp (.blend x y c k) s).trace =
        (blendAccesses (pixAddr (tileOf s) x y) (readPixel s.mem (pixAddr (tileOf s) x y)) c k).reverse ++ s.trace ∧
      readPixel (runOp (.blend x y c k) s).mem (pixAddr (tileOf s) x y) =
        blendResult (readPixel s.mem (pixAddr (tileOf s) x y)) c k := by
  by_cases h0 : k = 0
  · subst h0
    rw [runOp_blend_zero]
    exact ⟨rfl, rfl⟩
  by_cases h255 : k = 255
  · subst h255
    rw [runOp_blend_opaque]
    simp [runOp, pixSet, h, blendAccesses, blendResult]
  · rw [runOp_blend_between c h h0 h255]
    simp [blendAccesses, blendResult, h0, h255]

/-! ### Pixels outside the changed ones -/

/-- No byte belongs to two pixels. -/
theorem byteOfPixel_unique {a a' : PixAddr} {b : Nat} (h : ByteOfPixel a b) (h' : ByteOfPixel a' b) : a = a' := by
  obtain h | h := h <;> obtain h' | h' := h' <;> rw [h] at h'
  · exact pixelLowByte_inj _ h'
  · exact absurd h' (pixelLowByte_ne_high _ _ _)
  · exact absurd h'.symm (pixelLowByte_ne_high _ _ _)
  · exact pixelHighByte_inj _ h'

/-- A frame on bytes is a frame on pixels. -/
theorem SameMemoryOutside.readPixel_eq {s t : State} {A : PixAddr → Prop} (h : SameMemoryOutside s t A)
    {a : PixAddr} (ha : ¬A a) : readPixel t.mem a = readPixel s.mem a := by
  have hbyte : ∀ b, ByteOfPixel a b → memRead t.mem b = memRead s.mem b := fun b hb =>
    h b fun a' ha' hb' => ha (byteOfPixel_unique hb hb' ▸ ha')
  unfold readPixel
  rw [hbyte _ (.inl rfl), hbyte _ (.inr rfl)]

/-- A pixel at whose address nothing is plotted is unchanged. -/
theorem readPixel_blendOps_miss (c : Color) (plots : List (Point × Int)) (s : State) {a : PixAddr}
    (h : ∀ r ∈ plots, pixAddr (tileOf s) r.1.x r.1.y ≠ a) :
    readPixel (runOps (blendOps c plots) s).mem a = readPixel s.mem a := by
  obtain ⟨-, -, hframe⟩ := blendOps_blends c plots s
  refine hframe.readPixel_eq ?_
  rintro ⟨r, hr, -, -, ha⟩
  exact h r hr ha

/-! ### Blends at pixels of distinct addresses -/

/-- The plotted pixels are inside the tile and no two of them share an address. -/
def PlotsApart (t : Tile) (plots : List (Point × Int)) : Prop :=
  (∀ r ∈ plots, inside t r.1.x r.1.y = true) ∧
  plots.Pairwise fun q r => pixAddr t q.1.x q.1.y ≠ pixAddr t r.1.x r.1.y

/-- The accesses of plots that each find at their address what memory `m` holds there. -/
def plotAccesses (t : Tile) (m : Memory) (c : Color) (plots : List (Point × Int)) : List PixAccess :=
  plots.flatMap fun r => blendAccesses (pixAddr t r.1.x r.1.y) (readPixel m (pixAddr t r.1.x r.1.y)) c r.2

theorem plotsApart_cons {t : Tile} {q : Point × Int} {plots : List (Point × Int)} :
    PlotsApart t (q :: plots) ↔ inside t q.1.x q.1.y = true ∧
      (∀ r ∈ plots, pixAddr t q.1.x q.1.y ≠ pixAddr t r.1.x r.1.y) ∧ PlotsApart t plots := by
  simp only [PlotsApart, List.forall_mem_cons, List.pairwise_cons]
  tauto

/-- The first of some plots apart from each other leaves the pixels of the others as they were. -/
theorem readPixel_runOp_of_apart {q : Point × Int} {plots : List (Point × Int)} {s : State} (c : Color)
    (h : PlotsApart (tileOf s) (q :: plots)) {r : Point × Int} (hr : r ∈ plots) :
    readPixel (runOp (.blend q.1.x q.1.y c q.2) s).mem (pixAddr (tileOf s) r.1.x r.1.y) =
      readPixel s.mem (pixAddr (tileOf s) r.1.x r.1.y) := by
  obtain ⟨-, hne, -⟩ := plotsApart_cons.mp h
  exact readPixel_blendOps_miss c [q] s (by simpa using hne r hr)

theorem plotAccesses_congr {t : Tile} {m m' : Memory} (c : Color) {plots : List (Point × Int)}
    (h : ∀ r ∈ plots, readPixel m' (pixAddr t r.1.x r.1.y) = readPixel m (pixAddr t r.1.x r.1.y)) :
    plotAccesses t m' c plots = plotAccesses t m c plots :=
  List.flatMap_congr fun r hr => by rw [h r hr]

/-- Plots apart from each other are read and written in their order, each reading what was there at the start. -/
theorem runOps_blendOps_trace (c : Color) (plots : List (Point × Int)) (s : State)
    (h : PlotsApart (tileOf s) plots) :
    (runOps (blendOps c plots) s).trace = (plotAccesses (tileOf s) s.mem c plots).reverse ++ s.trace := by
  induction plots generalizing s with
  | nil => rfl
  | cons q plots ih =>
    obtain ⟨hq, -, hrest⟩ := plotsApart_cons.mp h
    have htail := ih (runOp (.blend q.1.x q.1.y c q.2) s) (by rwa [tileOf_runOp])
    rw [tileOf_runOp, plotAccesses_congr c fun r => readPixel_runOp_of_apart c h,
      (runOp_blend_inside c q.2 hq).1, ← List.append_assoc, ← List.reverse_append] at htail
    exact htail

/-- Of plots apart from each other each leaves at its pixel the blend with what was there at the start. -/
theorem readPixel_blendOps_hit (c : Color) (plots : List (Point × Int)) (s : State)
    (h : PlotsApart (tileOf s) plots) {p : Point} {k : Int} (hp : (p, k) ∈ plots) :
    readPixel (runOps (blendOps c plots) s).mem (pixAddr (tileOf s) p.x p.y) =
      blendResult (readPixel s.mem (pixAddr (tileOf s) p.x p.y)) c k := by
  induction plots generalizing s with
  | nil => cases hp
  | cons q plots ih =>
    obtain ⟨hq, hne, hrest⟩ := plotsApart_cons.mp h
    rcases List.mem_cons.mp hp with rfl | hp
    · have hlater := readPixel_blendOps_miss c plots (runOp (.blend p.x p.y c k) s)
        (a := pixAddr (tileOf s) p.x p.y) fun r hr => by rw [tileOf_runOp]; exact (hne r hr).symm
      exact hlater.trans (runOp_blend_inside c k hq).2
    · have htail := ih (runOp (.blend q.1.x q.1.y c q.2) s) (by rwa [tileOf_runOp]) hp
      rw [tileOf_runOp, readPixel_runOp_of_apart c h hp] at htail
      exact htail

/-! ### The run of a span (R88) -/

/-- The pixels of the run that are inside the tile are those of the clipped span, in the same order. -/
theorem filter_rowPoints_inside (t : Tile) (x0 x1 y : Int) :
    (rowPoints x0 x1 y).filter (fun r => inside t r.x r.y) = (spanColumns t x0 x1 y).map fun x => ⟨x, y⟩ := by
  have hcols : (intRange x0 x1).filter (fun x => inside t x y) = spanColumns t x0 x1 y :=
    ((intRange_rising x0 x1).filter _).eq_of_mem_iff (spanColumns_rising t x0 x1 y) fun x => by
      rw [List.mem_filter, mem_intRange, mem_spanColumns, and_assoc]
  rw [rowPoints, List.filter_map, ← hcols]
  rfl

/-- A tile is at most 65535 pixels wide, so the pixels of one of its rows have addresses of their own, though
addresses wrap (20_memory.md R42). -/
theorem pixAddr_inj_on_row {s : State} {x x' y : Int} (h : inside (tileOf s) x y = true)
    (h' : inside (tileOf s) x' y = true) (ha : pixAddr (tileOf s) x y = pixAddr (tileOf s) x' y) : x = x' := by
  have hw : (tileOf s).w < 2 ^ 16 := Int.ofNat_lt.mpr s.tileW.isLt
  rw [inside_iff] at h h'
  have hmod := congrArg BitVec.toNat ha
  simp only [pixAddr, BitVec.toNat_ofInt] at hmod
  omega

/-- The pixels of a clipped span, each with the same alpha. -/
def spanPlots (t : Tile) (x0 x1 y k : Int) : List (Point × Int) :=
  ((rowPoints x0 x1 y).filter fun r => inside t r.x r.y).map fun r => (r, k)

theorem spanPlots_eq (t : Tile) (x0 x1 y k : Int) :
    spanPlots t x0 x1 y k = (spanColumns t x0 x1 y).map fun x => (⟨x, y⟩, k) := by
  rw [spanPlots, filter_rowPoints_inside, List.map_map]
  rfl

theorem spanPlots_apart (s : State) (x0 x1 y k : Int) : PlotsApart (tileOf s) (spanPlots (tileOf s) x0 x1 y k) := by
  refine ⟨fun r hr => ?_, ?_⟩
  · simp only [spanPlots, List.mem_map, List.mem_filter] at hr
    obtain ⟨q, ⟨-, hq⟩, rfl⟩ := hr
    exact hq
  · rw [spanPlots_eq, List.pairwise_map]
    refine (spanColumns_rising _ x0 x1 y).imp_of_mem fun {x x'} hx hx' hlt ha => ?_
    rw [mem_spanColumns] at hx hx'
    exact absurd (pixAddr_inj_on_row hx.2.2 hx'.2.2 ha) hlt.ne

/-- The precondition of an unclipped span fails exactly when the run names a pixel outside the tile (R97). -/
theorem runInside_eq_false_iff (t : Tile) (x0 x1 y : Int) :
    runInside t x0 x1 y = false ↔ ∃ x, x0 ≤ x ∧ x ≤ x1 ∧ inside t x y = false := by
  rw [← Bool.not_eq_true, runInside_iff]
  push Not
  simp

/-! ### What each command does (R89 to R97) -/

theorem exec_pixSet (s : State) :
    exec .pixSet s = .next (runOp (.set s.x0.toInt s.y0.toInt (pack565 s.color)) s) := rfl

theorem exec_pixBlend (s : State) :
    exec .pixBlend s = .next (runOp (.blend s.x0.toInt s.y0.toInt s.color s.alpha.toNat) s) := rfl

theorem exec_spanSet (s : State) :
    exec .spanSet s = .next (runOps (storeOps (pack565 s.color)
      ((rowPoints s.x0.toInt s.x1.toInt s.y0.toInt).filter fun r => inside (tileOf s) r.x r.y)) s) := by
  rw [filter_rowPoints_inside, ← spanSetOps_eq]
  rfl

theorem exec_spanBlend (s : State) :
    exec .spanBlend s = .next (runOps (blendOps s.color
      (spanPlots (tileOf s) s.x0.toInt s.x1.toInt s.y0.toInt s.alpha.toNat)) s) := by
  rw [spanPlots_eq, ← spanBlendOps_eq]
  rfl

/-- What an unclipped command does by its clipped twin (R97): the same when its pixels are inside the tile, else
refused. -/
def twinOrRefused (ok : Bool) (twin : Host.Outcome State Fault Refusal) : Host.Outcome State Fault Refusal :=
  if ok then twin else .refused .unclippedOutOfBounds

theorem exec_pixSetu (s : State) :
    exec .pixSetu s = twinOrRefused (inside (tileOf s) s.x0.toInt s.y0.toInt) (exec .pixSet s) := rfl

theorem exec_pixBlendu (s : State) :
    exec .pixBlendu s = twinOrRefused (inside (tileOf s) s.x0.toInt s.y0.toInt) (exec .pixBlend s) := rfl

theorem exec_spanSetu (s : State) :
    exec .spanSetu s = twinOrRefused (runInside (tileOf s) s.x0.toInt s.x1.toInt s.y0.toInt) (exec .spanSet s) := rfl

theorem exec_spanBlendu (s : State) :
    exec .spanBlendu s =
      twinOrRefused (runInside (tileOf s) s.x0.toInt s.x1.toInt s.y0.toInt) (exec .spanBlend s) := rfl

/-- One stored pixel is a list of one store. -/
theorem runOp_set_stores (x y : Int) (p : Pixel) (s : State) : Stores s (runOp (.set x y p) s) p [⟨x, y⟩] :=
  storeOps_stores p [⟨x, y⟩] s

/-! ### The obligations -/

/-- Settles O40: the pixels of the run have addresses of their own, so no blend reads what another one wrote. -/
theorem spanBlendBlendsTheRun : Obligations.SpanBlendBlendsTheRun := by
  refine ⟨decode_encode .spanBlend, fun s => ?_⟩
  intro run ad
  have hapart := spanPlots_apart s s.x0.toInt s.x1.toInt s.y0.toInt s.alpha.toNat
  refine ⟨_, exec_spanBlend s, runOps_onlyPixels _ s, ?accesses, fun r hr => ?values, fun b hb => ?frame⟩
  case accesses =>
    rw [runOps_blendOps_trace _ _ s hapart, plotAccesses, spanPlots, List.flatMap_map]
  case values => exact readPixel_blendOps_hit s.color _ s hapart (List.mem_map.mpr ⟨r, hr, rfl⟩)
  case frame =>
    refine memRead_blendOps_miss _ _ s b fun q hq _ _ => ?_
    obtain ⟨r, hr, rfl⟩ := List.mem_map.mp hq
    exact hb _ ⟨r, hr, rfl⟩

/-- Settles O36: one store, which the tile's bounds let through or drop. -/
theorem pixSetStoresOnePixel : Obligations.PixSetStoresOnePixel := by
  refine ⟨decode_encode .pixSet, fun s => ⟨fun _ => ?_, fun hout => ?_⟩⟩
  · exact ⟨_, exec_pixSet s, runOp_set_stores _ _ _ s⟩
  · rw [exec_pixSet, runOp_set_outside _ hout]

/-- Settles O37: one blend, by its alpha. -/
theorem pixBlendReadsThenWrites : Obligations.PixBlendReadsThenWrites := by
  refine ⟨decode_encode .pixBlend, fun s => ⟨fun hnone => ?_, fun _ h255 => ?_, fun hin h0 h255 => ?_⟩⟩
  · obtain hout | h0 := hnone
    · rw [exec_pixBlend, runOp_blend_outside _ _ hout]
    · rw [exec_pixBlend, h0]
      exact congrArg _ (runOp_blend_zero _ _ _ s)
  · refine ⟨_, exec_pixBlend s, ?_⟩
    rw [h255]
    exact runOp_blend_opaque _ _ _ s ▸ runOp_set_stores _ _ _ s
  · have hk0 : (s.alpha.toNat : Int) ≠ 0 := by bv_omega
    have hk255 : (s.alpha.toNat : Int) ≠ 255 := by bv_omega
    refine ⟨_, (exec_pixBlend s).trans (congrArg _ (runOp_blend_between s.color hin hk0 hk255)),
      blendAt_onlyPixels _ _ _ s, rfl, readPixel_writePixel_same _ _ _, fun b hb => ?_⟩
    exact memRead_writePixel_of_not _ _ _ (hb _ rfl)

/-- Settles O38: each unclipped command is its twin behind the check of its pixels. -/
theorem unclippedCommandsMatchTheirTwins : Obligations.UnclippedCommandsMatchTheirTwins := by
  intro s
  simp only [exec_pixSetu, exec_pixBlendu, exec_spanSetu, exec_spanBlendu]
  refine ⟨fun hin => ?_, fun hout => ?_, fun hin => ?_, fun hout => ?_⟩
  · rw [hin]
    exact ⟨⟨_, rfl, rfl⟩, ⟨_, rfl, rfl⟩⟩
  · rw [hout]
    exact ⟨rfl, rfl⟩
  · rw [(runInside_iff ..).mpr hin]
    exact ⟨⟨_, rfl, rfl⟩, ⟨_, rfl, rfl⟩⟩
  · rw [(runInside_eq_false_iff ..).mpr hout]
    exact ⟨rfl, rfl⟩

/-- Settles O39: the clipped span stores at the run's pixels inside the tile, and no others count. -/
theorem spanSetStoresTheRun : Obligations.SpanSetStoresTheRun :=
  ⟨decode_encode .spanSet, fun s => ⟨_, exec_spanSet s, (Stores.filter_iff ..).mp (storeOps_stores _ _ s)⟩⟩

end Sys2Proof.Machine
end

section
/-! PROOFS. The hard line along an axis: its pixel calls as a list of stores, and the obligation O41 (43_line.md
R101, R102). -/

namespace Sys2Proof.Machine

/-! ### The pixel calls of an axis-parallel line (R101, R102) -/

theorem exec_line (s : State) :
    exec .line s = .next (runOps (lineOps (tileOf s) (point0 s) (point1 s) (pack565 s.color)) s) := rfl

theorem lineOps_horizontal (t : Tile) {p q : Point} (c : Pixel) (hy : p.y = q.y) :
    lineOps t p q c = spanSetOps t (iround (min p.x q.x)) (iround (max p.x q.x)) (iround p.y) c :=
  if_pos hy

theorem lineOps_vertical (t : Tile) {p q : Point} (c : Pixel) (hy : p.y ≠ q.y) (hx : p.x = q.x) :
    lineOps t p q c = storeOps c (verticalPixels p q) :=
  (if_neg hy).trans (if_pos hx)

/-- The calls of a clipped span store the whole run: its pixels outside the tile do not count. -/
theorem spanSetOps_stores (x0 x1 y : Int) (p : Pixel) (s : State) :
    Stores s (runOps (spanSetOps (tileOf s) x0 x1 y p) s) p (rowPoints x0 x1 y) := by
  rw [spanSetOps_eq, ← filter_rowPoints_inside]
  exact (Stores.filter_iff ..).mp (storeOps_stores _ _ s)

/-! ### The obligation -/

/-- Settles O41: a horizontal line is a clipped span, a vertical one a list of stores in its column. -/
theorem axisParallelLinesStoreRuns : Obligations.AxisParallelLinesStoreRuns := by
  intro s p q
  refine ⟨fun hy => ⟨_, exec_line s, ?horizontal⟩, fun hy hx => ⟨_, exec_line s, ?vertical⟩⟩
  case horizontal =>
    rw [lineOps_horizontal _ _ hy]
    simp only [← iround_eq]
    exact spanSetOps_stores _ _ _ _ s
  case vertical =>
    rw [lineOps_vertical _ _ hy hx]
    simp only [← iround_eq]
    exact storeOps_stores _ (verticalPixels p q) s

end Sys2Proof.Machine
end

section
/-! PROOFS. The trapezoid fills: the pixel calls of Z.FILL as a list of stores at the sampled pixels, those of Z.FILLAA
as a list of blends with the edges in closed form, the faults of the table checks, and the obligations O51, O52, O50
(44_triangle_zoid_fill.md R120 to R126, 45_zoid_clip.md R136). -/

namespace Sys2Proof.Machine

/-! ### The sampled pixels of a trapezoid (R121) -/

theorem mem_rowPoints {x0 x1 y : Int} {r : Point} : r ∈ rowPoints x0 x1 y ↔ r.y = y ∧ x0 ≤ r.x ∧ r.x ≤ x1 := by
  simp only [rowPoints, List.mem_map, mem_intRange]
  constructor
  · rintro ⟨x, hx, rfl⟩
    exact ⟨rfl, hx⟩
  · rintro ⟨rfl, hx⟩
    exact ⟨r.x, hx, rfl⟩

/-- The integers from `iceil a` up to but not including `iceil b` are those whose sample coordinate lies between `a`,
included, and `b`, excluded. -/
theorem iceil_between_iff (a b p : Int) : (iceil a ≤ p ∧ p ≤ iceil b - 1) ↔ (a ≤ 256 * p ∧ 256 * p < b) := by
  have ha := iceil_le_iff a p
  have hb := iceil_le_iff b p
  omega

/-- The points of a hard fill are exactly the sampled ones; a trapezoid without height has none. -/
theorem mem_hardPoints {z : Zoid} {r : Point} : r ∈ hardPoints z ↔ Sampled z r := by
  unfold hardPoints Sampled
  simp only [← iceil_eq]
  split
  next hflat =>
    simp only [List.not_mem_nil, false_iff]
    omega
  next =>
    rw [← iceil_between_iff z.y0 z.y1, ← iceil_between_iff (leftEdge z r.y)]
    simp only [List.mem_flatMap, mem_intRange, mem_rowPoints]
    constructor
    · rintro ⟨py, hrow, rfl, hcol⟩
      exact ⟨hrow, hcol⟩
    · rintro ⟨hrow, hcol⟩
      exact ⟨r.y, hrow, rfl, hcol⟩

/-! ### Z.FILL as a list of stores (R121, R122) -/

theorem storeOps_flatMap {α : Type} (p : Pixel) (l : List α) (f : α → List Point) :
    storeOps p (l.flatMap f) = l.flatMap fun a => storeOps p (f a) :=
  List.map_flatMap ..

/-- One row of a hard fill stores at the pixels between its two edges that are inside the tile. -/
theorem hardRowOps_eq (t : Tile) (z : Zoid) (p : Pixel) (py : Int) :
    hardRowOps t z p py = storeOps p
      ((rowPoints (iceil (leftEdge z py)) (iceil (rightEdge z py) - 1) py).filter fun r => inside t r.x r.y) := by
  rw [filter_rowPoints_inside, ← spanSetOps_eq]
  rfl

theorem hardFillOps_eq (t : Tile) (p : Pixel) (z : Zoid) :
    hardFillOps t p z = storeOps p ((hardPoints z).filter fun r => inside t r.x r.y) := by
  unfold hardFillOps hardPoints
  split
  next => rfl
  next =>
    simp only [← iceil_eq, List.filter_flatMap, storeOps_flatMap]
    exact List.flatMap_congr fun py _ => hardRowOps_eq t z p py

theorem exec_zFill {s : State} (h : checkTable s = none) :
    exec .zFill s = .next (runOps (storeOps (pack565 s.color)
      (((zoidsOf s).flatMap hardPoints).filter fun r => inside (tileOf s) r.x r.y)) s) := by
  rw [List.filter_flatMap, storeOps_flatMap,
    List.flatMap_congr fun z _ => (hardFillOps_eq (tileOf s) (pack565 s.color) z).symm]
  exact congrArg (finishStage (encode .zFill)) (fillStage_ok h)

/-! ### Z.FILLAA as a list of blends (R123 to R126) -/

theorem blendOps_append (c : Color) (xs ys : List (Point × Int)) :
    blendOps c (xs ++ ys) = blendOps c xs ++ blendOps c ys :=
  List.map_append

theorem blendOps_flatMap {α : Type} (c : Color) (l : List α) (f : α → List (Point × Int)) :
    blendOps c (l.flatMap f) = l.flatMap fun a => blendOps c (f a) :=
  List.map_flatMap ..

theorem edgeColumn_eq (v : Int) : edgeColumn v = v / 65536 := asr16_eq v

theorem edgeFrac_eq (v : Int) : edgeFrac v = v / 256 % 256 := by rw [edgeFrac, low8_eq, asr8_eq]

theorem edgeStep_eq (x0 x1 h : Int) : edgeStep x0 x1 h = (x1 - x0) * 65536 / h := by
  rw [edgeStep, shl16_eq, fdiv_eq]

theorem edgeStart_eq (x0 g off : Int) : edgeStart x0 g off = x0 * 256 + g * off / 256 := by
  rw [edgeStart, shl8_eq, asr8_eq]

/-- The clamps of R125 change nothing: a fraction is a byte, and so is its complement. -/
theorem clamp255_edgeFrac (v : Int) :
    clamp255 (edgeFrac v) = v / 256 % 256 ∧ clamp255 (255 - edgeFrac v) = 255 - v / 256 % 256 := by
  rw [edgeFrac_eq]
  exact ⟨clamp255_of_mem (by omega) (by omega), clamp255_of_mem (by omega) (by omega)⟩

/-- One row of an antialiased fill blends its plots: one pixel, a run with its two edge pixels, or nothing. -/
theorem aaRowOps_eq (t : Tile) (c : Color) (py rowA xl xr : Int) :
    aaRowOps t c py rowA xl xr = blendOps c (aaRowPlots t py rowA xl xr) := by
  obtain ⟨-, hleft⟩ := clamp255_edgeFrac xl
  obtain ⟨hright, -⟩ := clamp255_edgeFrac xr
  simp only [aaRowOps, aaRowPlots, edgeColumn_eq, hleft, hright, fdiv_eq]
  split
  next => rfl
  next =>
    split
    next =>
      rw [spanBlendOps_eq, ← spanPlots_eq, blendOps_append]
      rfl
    next => rfl

theorem aaFillOps_eq (t : Tile) (c : Color) (alpha : Int) (z : Zoid) :
    aaFillOps t c alpha z = blendOps c (aaZoidPlots t alpha z) := by
  unfold aaFillOps aaZoidPlots
  split
  next => rfl
  next =>
    simp only [aaRows_eq, aaRowOps_eq, blendOps_flatMap, edgeStep_eq, edgeStart_eq, ifloor_eq, asr8_eq, rowHeight]

theorem exec_zFillaa {s : State} (h : checkTable s = none) :
    exec .zFillaa s = .next (runOps (blendOps s.color
      ((zoidsOf s).flatMap (aaZoidPlots (tileOf s) s.alpha.toNat))) s) := by
  rw [blendOps_flatMap,
    List.flatMap_congr fun z _ => (aaFillOps_eq (tileOf s) s.color s.alpha.toNat z).symm]
  exact congrArg (finishStage (encode .zFillaa)) (fillAaStage_ok h)

/-! ### The table checks (R120, R136) -/

/-- Contiguity speaks of every two neighbours of the table. -/
theorem contiguous_iff_isChain (zs : List Zoid) : contiguous zs = true ↔ zs.IsChain fun a b => a.y1 = b.y0 := by
  induction zs using contiguous.induct with
  | case1 => simp [contiguous]
  | case2 => simp [contiguous]
  | case3 a b rest ih => simp [contiguous, ih]

theorem contiguous_eq_false_of_gap {zs : List Zoid} {i : Nat} {a b : Zoid} (ha : zs[i]? = some a)
    (hb : zs[i + 1]? = some b) (hgap : a.y1 ≠ b.y0) : contiguous zs = false := by
  rw [← Bool.not_eq_true, contiguous_iff_isChain, List.isChain_iff_getElem]
  obtain ⟨_, rfl⟩ := List.getElem?_eq_some_iff.mp ha
  obtain ⟨hi, rfl⟩ := List.getElem?_eq_some_iff.mp hb
  exact fun hchain => hgap (hchain i hi)

theorem clipEntryCheck_of_checkTable {s : State} {c : Cause} (h : checkTable s = some c) :
    clipEntryCheck s = some c := by
  simp [clipEntryCheck, h]

theorem clipEntryCheck_zoidSeq {s : State} (h : checkTable s = none) (hc : contiguous (zoidsOf s) = false) :
    clipEntryCheck s = some .zoidSeq := by
  simp [clipEntryCheck, h, hc]

/-- A table that fails an entry check of Z.CLIP is left as it is (R136). -/
theorem exec_zClip_fault {s : State} {c : Cause} (h : clipEntryCheck s = some c) :
    exec .zClip s = .next (raiseFault c (encode .zClip) s) := by
  have hstage : clipStage s = .error (c, s) := by simp [clipStage, h]
  exact congrArg (finishStage (encode .zClip)) hstage

/-- The three commands that read the table begin with `check_table` and take its fault in the state as it was (R120). -/
theorem exec_checkTable_fault {s : State} {c : Cause} (h : checkTable s = some c) :
    exec .zClip s = .next (raiseFault c (encode .zClip) s) ∧
      exec .zFill s = .next (raiseFault c (encode .zFill) s) ∧
      exec .zFillaa s = .next (raiseFault c (encode .zFillaa) s) :=
  ⟨exec_zClip_fault (clipEntryCheck_of_checkTable h),
    congrArg (finishStage (encode .zFill)) (fillStage_error h),
    congrArg (finishStage (encode .zFillaa)) (fillAaStage_error h)⟩

/-! ### The obligations -/

/-- Settles O51: the fill is a list of stores at the points of the entries, and those are the sampled ones. -/
theorem hardFillStoresSampledPixels : Obligations.HardFillStoresSampledPixels := by
  intro s hcount hvalid
  have hcheck := (checkTable_none_iff s).mpr ⟨hcount, hvalid⟩
  refine ⟨_, exec_zFill hcheck, (Stores.filter_iff ..).mp (storeOps_stores _ _ s), fun r => ?_⟩
  simp only [List.mem_flatMap, mem_hardPoints]

/-- Settles O52: the fill is a list of blends at the plots of the rows in closed form. -/
theorem antialiasedFillPlotsRows : Obligations.AntialiasedFillPlotsRows := by
  intro s hcount hvalid
  have hcheck := (checkTable_none_iff s).mpr ⟨hcount, hvalid⟩
  exact ⟨_, exec_zFillaa hcheck, blendOps_blends _ _ s⟩

/-- Settles O50: the first check that fails names the fault, and the fault entry changes STATUS and FCMD alone. -/
theorem tableChecksComeInOrder : Obligations.TableChecksComeInOrder := by
  intro s
  simp only [← zoidValid_iff]
  refine ⟨fun hcount => ?count, fun hcount hinvalid => ?invalid, fun hcount hvalid hgap => ?gap⟩
  case count => exact exec_checkTable_fault ((checkTable_some_iff ..).mpr (.inl ⟨hcount, rfl⟩))
  case invalid => exact exec_checkTable_fault ((checkTable_some_iff ..).mpr (.inr ⟨hcount, hinvalid, rfl⟩))
  case gap =>
    obtain ⟨i, a, b, ha, hb, hne⟩ := hgap
    have hcheck := (checkTable_none_iff s).mpr ⟨hcount, hvalid⟩
    exact exec_zClip_fault (clipEntryCheck_zoidSeq hcheck (contiguous_eq_false_of_gap ha hb hne))

end Sys2Proof.Machine
end

section
/-! PROOFS. The soft reset: what a write to CTRL does by its bit 0, and the obligation O9 (10_state.md R26;
70_reset_and_hazards.md R172). -/

namespace Sys2Proof.Machine

/-! ### A write to CTRL (R26) -/

/-- The one-bit field SRST of a word holds 1 just when bit 0 of the word is set. -/
theorem extractLsb'_srst_eq_one_iff (v : Word) : v.extractLsb' 0 1 = 1 ↔ v.getLsbD 0 = true := by
  refine ⟨fun hone => ?_, fun hset => ?_⟩
  · simpa using congrArg (·.getLsbD 0) hone
  · ext i hi
    obtain rfl : i = 0 := by omega
    simpa using hset

theorem writeCtrl_srst {v : Word} (s : State) (h : v.getLsbD 0 = true) : writeCtrl v s = softReset s :=
  if_pos ((extractLsb'_srst_eq_one_iff v).mpr h)

theorem writeCtrl_no_srst {v : Word} (s : State) (h : v.getLsbD 0 = false) : writeCtrl v s = s :=
  if_neg fun hone => Bool.false_ne_true (h.symm.trans ((extractLsb'_srst_eq_one_iff v).mp hone))

/-- A register write to CTRL is performed in every state: it asks for no FAULT = 0. -/
theorem step_writeCtrl {s : State} {v : Word} {rest : List HostEvent}
    (h : s.port = .write .word (regOffset .ctrl) v :: rest) :
    step s = .next (writeCtrl v { s with port := rest }) :=
  step_writeReg (r := .ctrl) (by decide) h

/-! ### The obligation -/

/-- Settles O9: a CTRL write is `writeCtrl`, which its bit 0 decides, and CTRL is a register that reads 0. -/
theorem controlWriteSoftResets : Obligations.ControlWriteSoftResets := by
  intro s rest
  refine ⟨fun v hp => ⟨fun hset => ?_, fun hclear => ?_⟩, fun hp => step_readReg (r := .ctrl) hp⟩
  · rw [step_writeCtrl hp, writeCtrl_srst _ hset, softReset]
  · rw [step_writeCtrl hp, writeCtrl_no_srst _ hclear]

end Sys2Proof.Machine
end

section
/-! PROOFS. Slanted and antialiased lines: the ordered end points, the stepper and its closed form, the plots of LINE.AA
and their weights, the order of the end points, and the obligations O43, O42, O44, O45, O46 (43_line.md R103 to
R114). -/

namespace Sys2Proof.Machine

/-! ### The ordered end points (R103, R109) -/

/-- The major coordinate increases, and no faster than it does the minor one changes. -/
theorem axisLine_adb_le_da (p q : Point) : (axisLine p q).adb ≤ (axisLine p q).da := by
  simp only [axisLine, isSteep, AxisLine.adb, AxisLine.da, decide_eq_true_eq]
  split_ifs <;> dsimp only at * <;> omega

theorem axisLine_da_eq_zero_iff (p q : Point) : (axisLine p q).da = 0 ↔ p = q := by
  obtain ⟨px, py⟩ := p
  obtain ⟨qx, qy⟩ := q
  simp only [axisLine, isSteep, AxisLine.da, decide_eq_true_eq, Point.mk.injEq]
  split_ifs <;> dsimp only at * <;> omega

theorem axisLine_da_pos {p q : Point} (h : p ≠ q) : 0 < (axisLine p q).da := by
  have hzero := (axisLine_da_eq_zero_iff p q).not.mpr h
  have hle := axisLine_adb_le_da p q
  have hnonneg : 0 ≤ (axisLine p q).adb := Int.natCast_nonneg _
  omega

/-- The end points are ordered before anything else depends on them. -/
theorem axisLine_comm (p q : Point) : axisLine p q = axisLine q p := by
  obtain ⟨px, py⟩ := p
  obtain ⟨qx, qy⟩ := q
  have hsteep : isSteep ⟨qx, qy⟩ ⟨px, py⟩ = isSteep ⟨px, py⟩ ⟨qx, qy⟩ := by
    simp only [isSteep, decide_eq_decide]
    omega
  simp only [axisLine, hsteep]
  simp only [isSteep, decide_eq_true_eq]
  split_ifs <;> simp only [AxisLine.mk.injEq, true_and] <;> dsimp only at * <;> omega

/-! ### The stepper and its closed form (R104 to R106) -/

/-- The numerator of the closed form at major index `pa`, over `256 * DA` (R106). -/
def minorNum (l : AxisLine) (pa : Int) : Int :=
  l.da * (l.dir * l.b0) + l.adb * (256 * pa - l.a0) + 128 * l.da

theorem minorNum_succ (l : AxisLine) (pa : Int) : minorNum l (pa + 1) = minorNum l pa + 256 * l.adb := by
  unfold minorNum
  ring

/-- The stepper's invariant: its minor index is the closed form at its major index, and its error is the remainder,
`2 * DB - 2 * DA` in units of 1/128 ahead. -/
def StepperAt (l : AxisLine) (pa : Int) (t : Stepper) : Prop :=
  t.pa = pa ∧ t.pb = minorNum l pa / (256 * l.da) ∧
  t.d = minorNum l pa - t.pb * (256 * l.da) - 256 * l.da + 256 * l.adb

theorem stepperInit_at (l : AxisLine) : StepperAt l (iround l.a0) (stepperInit l) := ⟨rfl, rfl, rfl⟩

/-- The quotient of the closed form moves by one exactly when the error is non-negative, because the minor delta is at
most the major one. -/
theorem stepperNext_at {l : AxisLine} {pa : Int} {t : Stepper} (hda : 0 < l.da) (hle : l.adb ≤ l.da)
    (h : StepperAt l pa t) : StepperAt l (pa + 1) (stepperNext l t) := by
  obtain ⟨hpa, hpb, hd⟩ := h
  have hnonneg : 0 ≤ l.adb := Int.natCast_nonneg _
  have hpos : 0 < 256 * l.da := by omega
  have hlow : t.pb * (256 * l.da) ≤ minorNum l pa := hpb ▸ Int.ediv_mul_le _ hpos.ne'
  have hhigh : minorNum l pa < (t.pb + 1) * (256 * l.da) := hpb ▸ Int.lt_ediv_add_one_mul_self _ hpos
  have hquot : ∀ q : Int, q * (256 * l.da) ≤ minorNum l (pa + 1) → minorNum l (pa + 1) < (q + 1) * (256 * l.da) →
      minorNum l (pa + 1) / (256 * l.da) = q := fun q h0 h1 =>
    le_antisymm (Int.lt_add_one_iff.mp (Int.ediv_lt_of_lt_mul hpos h1)) ((Int.le_ediv_iff_mul_le hpos).mpr h0)
  have hsucc := minorNum_succ l pa
  unfold stepperNext
  split
  next hstep =>
    refine ⟨by rw [hpa], (hquot _ ?_ ?_).symm, ?_⟩ <;> dsimp only <;> rw [hsucc] <;> linarith
  next hstay =>
    refine ⟨by rw [hpa], (hquot _ ?_ ?_).symm, ?_⟩ <;> dsimp only <;> rw [hsucc] <;> linarith

/-- From a stepper that keeps the invariant the loop visits the pixels of the closed form, index by index. -/
theorem stepperPixels_eq {l : AxisLine} (hda : 0 < l.da) (hle : l.adb ≤ l.da) (n : Nat) {pa : Int} {t : Stepper}
    (h : StepperAt l pa t) :
    stepperPixels l n t = (intRange pa (pa + n)).map fun k => axisPixel l.steep k (nearestMinor l k) := by
  induction n generalizing pa t with
  | zero =>
    obtain ⟨rfl, hpb, -⟩ := h
    rw [Nat.cast_zero, add_zero, intRange_eq_cons le_rfl, intRange_eq_nil (by omega), stepperPixels, hpb]
    rfl
  | succ n ih =>
    have hrest := ih (stepperNext_at hda hle h)
    obtain ⟨rfl, hpb, -⟩ := h
    rw [stepperPixels, hrest, hpb, Nat.cast_succ, show t.pa + ((n : Int) + 1) = t.pa + 1 + n by ring,
      intRange_eq_cons (a := t.pa) (by omega)]
    rfl

theorem slantedPixels_eq {l : AxisLine} (hda : 0 < l.da) (hle : l.adb ≤ l.da) :
    slantedPixels l = nearestPixels l := by
  have hends : iround l.a0 ≤ iround l.a1 := iround_mono (by unfold AxisLine.da at hda; omega)
  rw [slantedPixels, stepperPixels_eq hda hle _ (stepperInit_at l), nearestPixels,
    show iround l.a0 + ((iround l.a1 - iround l.a0).toNat : Int) = iround l.a1 by omega]

/-- Settles O43: the stepper keeps its invariant from the first major index to the last. -/
theorem stepperIsItsClosedForm : Obligations.StepperIsItsClosedForm := fun p q hx _ =>
  slantedPixels_eq (axisLine_da_pos fun heq => hx (heq ▸ rfl)) (axisLine_adb_le_da p q)

/-! ### LINE (R101 to R108) -/

theorem lineOps_slanted (t : Tile) {p q : Point} (c : Pixel) (hy : p.y ≠ q.y) (hx : p.x ≠ q.x) :
    lineOps t p q c = storeOps c (slantedPixels (axisLine p q)) :=
  (if_neg hy).trans (if_neg hx)

/-- Settles O42: the slanted line stores at the pixels its stepper visits, which are those of the closed form. -/
theorem slantedLineStoresNearestPixels : Obligations.SlantedLineStoresNearestPixels := by
  intro s hy hx
  refine ⟨_, exec_line s, ?_⟩
  rw [lineOps_slanted _ _ hy hx, stepperIsItsClosedForm _ _ hx hy]
  exact storeOps_stores _ _ s

/-- Horizontal and vertical lines run from the smaller end to the larger, slanted ones are ordered by R103. -/
theorem lineOps_comm (t : Tile) (p q : Point) (c : Pixel) : lineOps t p q c = lineOps t q p c := by
  by_cases hy : p.y = q.y
  · rw [lineOps_horizontal t c hy, lineOps_horizontal t c hy.symm, min_comm, max_comm, hy]
  by_cases hx : p.x = q.x
  · rw [lineOps_vertical t c hy hx, lineOps_vertical t c (Ne.symm hy) hx.symm, verticalPixels, verticalPixels,
      min_comm, max_comm, hx]
  · rw [lineOps_slanted t c hy hx, lineOps_slanted t c (Ne.symm hy) (Ne.symm hx), axisLine_comm]

/-! ### LINE.AA (R109 to R113) -/

theorem lineAaPlots_comm (p q : Point) : lineAaPlots p q = lineAaPlots q p := by
  unfold lineAaPlots
  rw [axisLine_comm]

theorem lineAaPlots_self (p : Point) : lineAaPlots p p = [] :=
  if_pos ((axisLine_da_eq_zero_iff p p).mpr rfl)

theorem exec_lineAa (s : State) :
    exec .lineAa s =
      .next (runOps ((lineAaPlots (point0 s) (point1 s)).map fun r => .blend r.x r.y s.color r.a) s) := rfl

/-- A plot of LINE.AA as a point with its alpha. -/
def Plot.pair (r : Plot) : Point × Int := (⟨r.x, r.y⟩, r.a)

theorem blendOps_map_pair (c : Color) (plots : List Plot) :
    blendOps c (plots.map Plot.pair) = plots.map fun r => .blend r.x r.y c r.a := by
  simp [blendOps, Plot.pair]

theorem plotAt_pair (steep : Bool) (px py a : Int) : (plotAt steep px py a).pair = (axisPixel steep px py, a) := by
  cases steep <;> rfl

theorem accPixel_eq (v : Int) : accPixel v = v / 65536 := asr16_eq v

theorem accFrac_eq (v : Int) : accFrac v = v / 256 % 256 := by rw [accFrac, low8_eq, asr8_eq]

theorem endAcc_eq (g a b : Int) : endAcc g a b = b * 256 + g * (256 * ((a + 128) / 256) - a) / 256 := by
  rw [endAcc, shl8_eq, asr8_eq, iround_eq]

theorem endPlots_pair (steep : Bool) (column acc gap : Int) :
    (endPlots steep column acc gap).map Plot.pair =
      columnPair steep column acc ((255 - acc / 256 % 256) * gap / 256) (acc / 256 % 256 * gap / 256) := by
  simp only [endPlots, columnPair, List.map_cons, List.map_nil, plotAt_pair, accPixel_eq, accFrac_eq, asr8_eq]

theorem columnPlots_pair (steep : Bool) (column acc : Int) :
    (columnPlots steep column acc).map Plot.pair =
      columnPair steep column acc (255 - acc / 256 % 256) (acc / 256 % 256) := by
  simp only [columnPlots, columnPair, List.map_cons, List.map_nil, plotAt_pair, accPixel_eq, accFrac_eq]

/-- The main loop with the accumulator of its k-th column in closed form (R112). -/
theorem mainPlots_pair (steep : Bool) (g : Int) (n : Nat) (column acc : Int) :
    (mainPlots steep g n column (acc + g)).map Plot.pair = (List.range n).flatMap fun (k : Nat) =>
      columnPair steep (column + k) (acc + (k + 1) * g) (255 - (acc + (k + 1) * g) / 256 % 256)
        ((acc + (k + 1) * g) / 256 % 256) := by
  rw [mainPlots_eq, List.map_flatMap]
  refine List.flatMap_congr fun k _ => ?_
  rw [columnPlots_pair, show acc + g + (k : Int) * g = acc + (k + 1) * g by ring]

theorem lineAaPlots_pair {p q : Point} (h : p ≠ q) :
    (lineAaPlots p q).map Plot.pair = aaLinePlots (axisLine p q) := by
  have hda : (axisLine p q).da ≠ 0 := (axisLine_da_pos h).ne'
  rw [lineAaPlots, aaLinePlots, if_neg hda, List.map_append, List.map_append, endPlots_pair, endPlots_pair,
    mainPlots_pair]
  simp only [endAcc_eq, iround_eq, gradient, fdiv_eq, shl16_eq, low8_eq, AxisLine.da]

/-- Settles O45: the plots of the two ends and of the main loop, as blends. -/
theorem antialiasedLinePlotsCoverage : Obligations.AntialiasedLinePlotsCoverage := by
  refine fun s => ⟨fun hpoint => ?_, fun hline => ⟨_, exec_lineAa s, ?_⟩⟩
  · rw [exec_lineAa, hpoint, lineAaPlots_self]
    rfl
  · rw [← lineAaPlots_pair hline, ← blendOps_map_pair]
    exact blendOps_blends _ _ s

/-! ### The weights of the plots (R111, R114) -/

theorem accFrac_between (acc : Int) : 0 ≤ accFrac acc ∧ accFrac acc ≤ 255 :=
  ⟨low8_nonneg _, low8_le _⟩

/-- A byte scaled by a gap of at most 256 parts of 256 is a byte. -/
theorem weight_between {v gap : Int} (hv0 : 0 ≤ v) (hv1 : v ≤ 255) (h0 : 0 ≤ gap) (h1 : gap ≤ 256) :
    0 ≤ v * gap / 256 ∧ v * gap / 256 ≤ 255 :=
  ediv_between (by decide) (mul_nonneg hv0 h0) (mul_le_mul hv1 h1 h0 (by decide))

/-- Two parts rounded down lose at most one against their sum rounded down. -/
theorem ediv_add_ediv_between (m n : Int) :
    (m + n) / 256 - 1 ≤ m / 256 + n / 256 ∧ m / 256 + n / 256 ≤ (m + n) / 256 := by omega

@[simp] theorem plotAt_a (steep : Bool) (px py a : Int) : (plotAt steep px py a).a = a := by
  cases steep <;> rfl

/-- Settles O46: the fraction of an accumulator is a byte, and the two weights are the shares of it and of its
complement. -/
theorem coverageIsConserved : Obligations.CoverageIsConserved := by
  intro steep column acc gap h0 h1
  obtain ⟨hf0, hf1⟩ := accFrac_between acc
  have hlow := weight_between (v := 255 - accFrac acc) (by omega) (by omega) h0 h1
  have hhigh := weight_between hf0 hf1 h0 h1
  have hsum := ediv_add_ediv_between ((255 - accFrac acc) * gap) (accFrac acc * gap)
  rw [show (255 - accFrac acc) * gap + accFrac acc * gap = 255 * gap by ring] at hsum
  refine ⟨⟨_, _, rfl, ?_⟩, ⟨_, _, rfl, ?_⟩⟩ <;> simp only [plotAt_a, asr8_eq] <;> omega

/-- Every alpha that LINE.AA hands to a blend is a byte (R111). -/
theorem lineAaPlots_alpha {p q : Point} {r : Plot} (h : r ∈ lineAaPlots p q) : 0 ≤ r.a ∧ r.a ≤ 255 := by
  have hend : ∀ {steep column acc gap}, 0 ≤ gap → gap ≤ 256 → r ∈ endPlots steep column acc gap →
      0 ≤ r.a ∧ r.a ≤ 255 := fun {steep column acc gap} h0 h1 hr => by
    obtain ⟨-, a, b, hab, -, -, ha0, ha1, hb0, hb1⟩ := coverageIsConserved steep column acc gap h0 h1
    rw [hab, List.mem_pair] at hr
    obtain rfl | rfl := hr
    exacts [⟨ha0, ha1⟩, ⟨hb0, hb1⟩]
  have hcolumn : ∀ {steep column acc}, r ∈ columnPlots steep column acc → 0 ≤ r.a ∧ r.a ≤ 255 :=
    fun {steep column acc} hr => by
      obtain ⟨⟨a, b, hab, hsum, ha0, hb0⟩, -⟩ := coverageIsConserved steep column acc 0 le_rfl (by decide)
      rw [hab, List.mem_pair] at hr
      obtain rfl | rfl := hr <;> omega
  unfold lineAaPlots at h
  dsimp only at h
  split at h
  next => cases h
  next =>
    rw [mainPlots_eq, List.mem_append, List.mem_append, List.mem_flatMap] at h
    obtain (hr | hr) | ⟨k, -, hr⟩ := h
    · exact hend (by have := low8_le ((axisLine p q).a0 + 128); omega)
        (by have := low8_nonneg ((axisLine p q).a0 + 128); omega) hr
    · exact hend (low8_nonneg _) (by have := low8_le ((axisLine p q).a1 + 128); omega) hr
    · exact hcolumn hr

/-! ### What drawing depends on -/

/-- Drawing depends on the tile and on pixel memory alone: two states that agree there agree on the pixels drawn. -/
theorem runOps_samePixels (ops : List PixOp) {s s' : State} (htile : tileOf s' = tileOf s) (h : SamePixels s s') :
    SamePixels (runOps ops s) (runOps ops s') := by
  induction ops generalizing s s' with
  | nil => exact h
  | cons o ops ih =>
    refine ih (by rw [tileOf_runOp, tileOf_runOp, htile]) ?_
    obtain ⟨hmem, htrace⟩ := h
    cases o <;> simp only [runOp, pixSet, pixBlend, htile] <;> split_ifs <;>
      simp [SamePixels, blendAt_mem, blendAt_trace, hmem, htrace]

/-- Settles O44: the calls of both lines are the same for exchanged end points, and they draw the same. -/
theorem linesIgnoreEndPointOrder : Obligations.LinesIgnoreEndPointOrder := by
  intro s s'
  have hline : lineOps (tileOf s') (point0 s') (point1 s') (pack565 s'.color) =
      lineOps (tileOf s) (point0 s) (point1 s) (pack565 s.color) := lineOps_comm ..
  have haa : lineAaPlots (point0 s') (point1 s') = lineAaPlots (point0 s) (point1 s) := lineAaPlots_comm ..
  refine ⟨⟨_, _, exec_line s, exec_line s', ?_⟩, ⟨_, _, exec_lineAa s, exec_lineAa s', ?_⟩⟩
  · rw [hline]
    exact runOps_samePixels _ rfl ⟨rfl, rfl⟩
  · rw [haa]
    exact runOps_samePixels _ rfl ⟨rfl, rfl⟩

end Sys2Proof.Machine
end

section
/-! PROOFS. Triangle set-up: three vertices sorted by y, the pieces of a triangle and what keeps them, and the
obligations O47, O48 (44_triangle_zoid_fill.md R115 to R119). -/

namespace Sys2Proof.Machine

/-! ### Three points in an order (R115, R116) -/

/-- The orders of three points. -/
theorem perm_triple {a b c p q r : Point} (h : [a, b, c].Perm [p, q, r]) :
    (a = p ∧ b = q ∧ c = r) ∨ (a = q ∧ b = p ∧ c = r) ∨ (a = r ∧ b = q ∧ c = p) ∨ (a = q ∧ b = r ∧ c = p) ∨
    (a = r ∧ b = p ∧ c = q) ∨ (a = p ∧ b = r ∧ c = q) := by
  simpa [List.permutations, List.permutationsAux, List.permutationsAux2, List.permutationsAux.rec, eq_comm]
    using List.mem_permutations.mpr h

theorem orderAB_perm (v : Vertices) :
    [(orderAB v).a, (orderAB v).b, (orderAB v).c].Perm [v.a, v.b, v.c] := by
  unfold orderAB
  split
  · exact .swap _ _ _
  · exact .rfl

theorem orderBC_perm (v : Vertices) :
    [(orderBC v).a, (orderBC v).b, (orderBC v).c].Perm [v.a, v.b, v.c] := by
  unfold orderBC
  split
  · exact .cons _ (.swap _ _ _)
  · exact .rfl

theorem sortByY_perm (v : Vertices) :
    [(sortByY v).a, (sortByY v).b, (sortByY v).c].Perm [v.a, v.b, v.c] :=
  ((orderAB_perm _).trans (orderBC_perm _)).trans (orderAB_perm v)

theorem orderAB_heights (v : Vertices) :
    (orderAB v).a.y = min v.a.y v.b.y ∧ (orderAB v).b.y = max v.a.y v.b.y ∧ (orderAB v).c.y = v.c.y := by
  unfold orderAB
  split
  next h => exact ⟨(min_eq_right h.le).symm, (max_eq_left h.le).symm, rfl⟩
  next h => exact ⟨(min_eq_left (not_lt.mp h)).symm, (max_eq_right (not_lt.mp h)).symm, rfl⟩

theorem orderBC_heights (v : Vertices) :
    (orderBC v).a.y = v.a.y ∧ (orderBC v).b.y = min v.b.y v.c.y ∧ (orderBC v).c.y = max v.b.y v.c.y := by
  unfold orderBC
  split
  next h => exact ⟨rfl, (min_eq_right h.le).symm, (max_eq_left h.le).symm⟩
  next h => exact ⟨rfl, (min_eq_left (not_lt.mp h)).symm, (max_eq_right (not_lt.mp h)).symm⟩

theorem sortByY_sorted (v : Vertices) :
    (sortByY v).a.y ≤ (sortByY v).b.y ∧ (sortByY v).b.y ≤ (sortByY v).c.y := by
  have hfirst := orderAB_heights v
  have hsecond := orderBC_heights (orderAB v)
  have hthird := orderAB_heights (orderBC (orderAB v))
  unfold sortByY
  omega

/-! ### The pieces of a triangle (R117, R118) -/

theorem trianglePieces_eq (v : Vertices) : trianglePieces v = piecesOf v.a v.b v.c := rfl

theorem piecesOf_flat {a b c : Point} (h : a.y = c.y) : piecesOf a b c = [] := if_pos h

/-- Where the middle vertex is on the long edge there is no area. -/
theorem piecesOf_of_splitX_eq {a b c : Point}
    (h : a.y ≠ c.y → a.x + (c.x - a.x) * (b.y - a.y) / (c.y - a.y) = b.x) : piecesOf a b c = [] := by
  by_cases hflat : a.y = c.y
  · exact piecesOf_flat hflat
  · simp [piecesOf, hflat, h hflat]

/-- Two vertices on the same height at the top can stand in either order (R129 (a)). -/
theorem piecesOf_swap_top {a b c : Point} (h : a.y = b.y) : piecesOf a b c = piecesOf b a c := by
  simp [piecesOf, h, min_comm, max_comm]

/-- Two vertices on the same height at the bottom can stand in either order (R129 (a)). -/
theorem piecesOf_swap_bottom {a b c : Point} (h : b.y = c.y) : piecesOf a b c = piecesOf a c b := by
  by_cases hflat : a.y = c.y
  · rw [piecesOf_flat hflat, piecesOf_flat (hflat.trans h.symm)]
  · have hne : c.y - a.y ≠ 0 := by omega
    simp [piecesOf, h, hflat, Int.mul_ediv_cancel _ hne, min_comm, max_comm]

/-- The pieces do not depend on the order in which the vertices were given, ties included (R116, R129 (a)). -/
theorem piecesOf_perm {a b c p q r : Point} (h : [a, b, c].Perm [p, q, r]) (hab : a.y ≤ b.y) (hbc : b.y ≤ c.y)
    (hpq : p.y ≤ q.y) (hqr : q.y ≤ r.y) : piecesOf a b c = piecesOf p q r := by
  obtain ⟨rfl, rfl, rfl⟩ | ⟨rfl, rfl, rfl⟩ | ⟨rfl, rfl, rfl⟩ | ⟨rfl, rfl, rfl⟩ | ⟨rfl, rfl, rfl⟩ |
    ⟨rfl, rfl, rfl⟩ := perm_triple h
  · rfl
  · exact piecesOf_swap_top (by omega)
  · rw [piecesOf_flat (by omega), piecesOf_flat (by omega)]
  · rw [piecesOf_flat (by omega), piecesOf_flat (by omega)]
  · rw [piecesOf_flat (by omega), piecesOf_flat (by omega)]
  · exact piecesOf_swap_bottom (by omega)

/-- The pieces by the place of the middle vertex: none, or from an interval `l < r` on its height up to the first
vertex and down to the last, where these are higher and lower. -/
theorem piecesOf_cases {a b c : Point} (hab : a.y ≤ b.y) (hbc : b.y ≤ c.y) :
    piecesOf a b c = [] ∨ ∃ l r : Int, l < r ∧ min a.x (min b.x c.x) ≤ l ∧ r ≤ max a.x (max b.x c.x) ∧
      piecesOf a b c = (if a.y < b.y then [⟨a.x, a.x, a.y, l, r, b.y⟩] else [])
        ++ (if b.y < c.y then [⟨l, r, b.y, c.x, c.x, c.y⟩] else []) := by
  by_cases hflat : a.y = c.y
  · exact .inl (piecesOf_flat hflat)
  have hxm := interp_between (x0 := a.x) (x1 := c.x) (dy := b.y - a.y) (h := c.y - a.y) (by omega) (by omega)
    (by omega)
  generalize hx : a.x + (c.x - a.x) * (b.y - a.y) / (c.y - a.y) = xm at hxm
  by_cases harea : min b.x xm < max b.x xm
  · refine .inr ⟨min b.x xm, max b.x xm, harea, by omega, by omega, ?_⟩
    simp only [piecesOf, if_neg hflat, hx, if_pos harea]
  · exact .inl (piecesOf_of_splitX_eq fun _ => by omega)

theorem piecesOf_length {a b c : Point} (hab : a.y ≤ b.y) (hbc : b.y ≤ c.y) : (piecesOf a b c).length ≤ 2 := by
  obtain h | ⟨l, r, -, -, -, h⟩ := piecesOf_cases hab hbc <;> rw [h]
  · exact Nat.zero_le 2
  · split_ifs <;> simp

theorem piecesOf_contiguous {a b c : Point} (hab : a.y ≤ b.y) (hbc : b.y ≤ c.y) :
    contiguous (piecesOf a b c) = true := by
  obtain h | ⟨l, r, -, -, -, h⟩ := piecesOf_cases hab hbc <;> rw [h]
  · rfl
  · split_ifs <;> simp [contiguous]

/-- The pieces lie within any bounds of the vertices and have a height (R118). -/
theorem piecesOf_within {L H T B : Int} {a b c : Point} (hab : a.y ≤ b.y) (hbc : b.y ≤ c.y)
    (ha : L ≤ a.x ∧ a.x ≤ H) (hb : L ≤ b.x ∧ b.x ≤ H) (hc : L ≤ c.x ∧ c.x ≤ H) (hT : T ≤ a.y) (hB : c.y ≤ B) :
    ∀ z ∈ piecesOf a b c, Within L H T B z ∧ z.y0 < z.y1 := by
  obtain h | ⟨l, r, hlr, hl, hr, h⟩ := piecesOf_cases hab hbc <;> rw [h]
  · simp
  · intro z hz
    obtain hz | hz := List.mem_append.mp hz <;> split at hz <;>
      simp only [List.mem_singleton, List.not_mem_nil] at hz <;> subst hz <;>
      simp only [Within, zoidValid_iff] <;> omega

/-! ### Colinear vertices (R129 (c)) -/

/-- The three points lie on a line. -/
def Colinear (a b c : Point) : Prop := (b.x - a.x) * (c.y - a.y) = (c.x - a.x) * (b.y - a.y)

theorem Colinear.perm {a b c p q r : Point} (hc : Colinear p q r) (h : [a, b, c].Perm [p, q, r]) :
    Colinear a b c := by
  unfold Colinear at *
  obtain ⟨rfl, rfl, rfl⟩ | ⟨rfl, rfl, rfl⟩ | ⟨rfl, rfl, rfl⟩ | ⟨rfl, rfl, rfl⟩ | ⟨rfl, rfl, rfl⟩ |
    ⟨rfl, rfl, rfl⟩ := perm_triple h
  · exact hc
  · linear_combination -hc
  · linear_combination -hc
  · linear_combination hc
  · linear_combination hc
  · linear_combination -hc

theorem piecesOf_colinear {a b c : Point} (h : Colinear a b c) : piecesOf a b c = [] :=
  piecesOf_of_splitX_eq fun hne => by
    rw [← h, Int.mul_ediv_cancel _ (by omega)]
    ring

/-! ### The table of TRI.SETUP (R119) -/

theorem exec_triSetup (s : State) : exec .triSetup s = .next (triSetupStage s) := rfl

/-- Entries within the range of a coordinate fit the registers of the table. -/
theorem Within.fits_word {z : Zoid} (h : Within (-2147483648) 2147483647 (-2147483648) 2147483647 z) :
    ZoidFits z := by
  obtain ⟨hvalid, hx0, hx1, hT, hB⟩ := h
  have := (zoidValid_iff z).mp hvalid
  simp only [ZoidFits, inRange32_iff]
  omega

/-- The vertices of the registers sorted by y, as TRI.SETUP uses them. -/
theorem exists_sorted_vertices (s : State) :
    ∃ a b c, [a, b, c].Perm [point0 s, point1 s, point2 s] ∧ a.y ≤ b.y ∧ b.y ≤ c.y :=
  have ⟨hab, hbc⟩ := sortByY_sorted (verticesOf s)
  ⟨_, _, _, sortByY_perm (verticesOf s), hab, hbc⟩

section
variable {s : State} {a b c : Point} (hperm : [a, b, c].Perm [point0 s, point1 s, point2 s]) (hab : a.y ≤ b.y)
  (hbc : b.y ≤ c.y)
include hperm hab hbc

/-- TRI.SETUP stores the pieces of its vertices in any order by y. -/
theorem triSetupStage_eq : triSetupStage s = setTableShrunk (piecesOf a b c) s := by
  have ⟨hsort, hsort'⟩ := sortByY_sorted (verticesOf s)
  rw [triSetupStage, trianglePieces_eq,
    piecesOf_perm ((sortByY_perm (verticesOf s)).trans hperm.symm) hsort hsort' hab hbc]

theorem piecesOf_fits : ∀ z ∈ piecesOf a b c, ZoidFits z := by
  have hword : ∀ p ∈ [a, b, c], inRange32 p.x = true ∧ inRange32 p.y = true := fun p hp => by
    simp only [hperm.mem_iff, List.mem_cons, List.not_mem_nil, or_false] at hp
    obtain rfl | rfl | rfl := hp <;> exact ⟨toInt_inRange _, toInt_inRange _⟩
  simp only [List.mem_cons, List.not_mem_nil, or_false, forall_eq_or_imp, forall_eq, inRange32_iff] at hword
  obtain ⟨⟨hax, hay⟩, ⟨hbx, -⟩, hcx, hcy⟩ := hword
  exact fun z hz => (piecesOf_within hab hbc hax hbx hcx hay.1 hcy.2 z hz).1.fits_word

theorem zoidsOf_triSetupStage : zoidsOf (triSetupStage s) = piecesOf a b c := by
  have hlen := piecesOf_length hab hbc
  rw [triSetupStage_eq hperm hab hbc,
    zoidsOf_setTableShrunk s (by omega) (piecesOf_fits hperm hab hbc)]

theorem triSetupStage_zn : (triSetupStage s).zn.toNat = (piecesOf a b c).length := by
  have hlen := piecesOf_length hab hbc
  rw [triSetupStage_eq hperm hab hbc, setTableShrunk_zn, toNat_count _ (by omega)]

end

theorem triSetupStage_onlyTable (s : State) : OnlyTable s (triSetupStage s) := setTableShrunk_onlyTable _ s

/-- The table of TRI.SETUP: at most two contiguous entries, each valid and with a height (R118). -/
theorem triSetupStage_table (s : State) :
    (triSetupStage s).zn.toNat ≤ 2 ∧ contiguous (zoidsOf (triSetupStage s)) = true ∧
      ∀ z ∈ zoidsOf (triSetupStage s), zoidValid z = true ∧ z.y0 < z.y1 := by
  obtain ⟨a, b, c, hperm, hab, hbc⟩ := exists_sorted_vertices s
  rw [triSetupStage_zn hperm hab hbc, zoidsOf_triSetupStage hperm hab hbc]
  refine ⟨piecesOf_length hab hbc, piecesOf_contiguous hab hbc, fun z hz => ?_⟩
  obtain ⟨⟨hvalid, -⟩, htall⟩ := piecesOf_within (L := min a.x (min b.x c.x)) (H := max a.x (max b.x c.x)) hab hbc
    (by omega) (by omega) (by omega) le_rfl le_rfl z hz
  exact ⟨hvalid, htall⟩

/-! ### The obligations -/

/-- Settles O47: the pieces are those of any order of the vertices by y, and they fit the table. -/
theorem triangleSetupStoresThePieces : Obligations.TriangleSetupStoresThePieces := fun s _ _ _ hperm hab hbc =>
  ⟨_, exec_triSetup s, triSetupStage_onlyTable s, zoidsOf_triSetupStage hperm hab hbc,
    triSetupStage_zn hperm hab hbc⟩

/-- Settles O48, from the pieces of the sorted vertices. -/
theorem triangleSetupTableIsValid : Obligations.TriangleSetupTableIsValid := fun s =>
  ⟨_, exec_triSetup s, triSetupStage_table s⟩

end Sys2Proof.Machine
end

section
/-! PROOFS. Z.CLIP: what a clipped table is, tables that need no cut at a side, one entry cut at a side, and the
obligations O55, O58, O56, O57 (45_zoid_clip.md R135 to R149). -/

namespace Sys2Proof.Machine

/-! ### The clip stage (R136, R149) -/

theorem exec_zClip (s : State) : exec .zClip s = finishStage (encode .zClip) (clipStage s) := rfl

/-- A command without a fault at its end had no stage that faulted. -/
theorem finishStage_eq_ok {w : Word} {r : Stage} {t : State} (h : finishStage w r = .next t)
    (hfault : t.fault = false) : r = .ok t := by
  obtain ⟨c, u⟩ | u := r
  · cases h
    cases hfault
  · cases h
    rfl

theorem within_clipRect_iff (s : State) (z : Zoid) :
    Within (clipRect (tileOf s)).xmin (clipRect (tileOf s)).xmax (clipRect (tileOf s)).ymin
      (clipRect (tileOf s)).ymax z ↔ zoidValid z = true ∧ ZoidInTile (tileOf s) z := Iff.rfl

/-- `t` is `s` with its table clipped: at most five entries, the parts of the entries of `s` inside the tile's
rectangle, in some order, each valid, of positive height and inside (R148, R149). -/
def ClippedTo (s t : State) : Prop :=
  OnlyTable s t ∧ t.zn.toNat ≤ 5 ∧ (zoidsOf t).Perm (partsInside (clipRect (tileOf s)) (zoidsOf s)) ∧
  ∀ z ∈ zoidsOf t, zoidValid z = true ∧ z.y0 < z.y1 ∧ ZoidInTile (tileOf s) z

theorem storeClipped_zn {w : ClipWork} (s : State) (h : w.zs.length ≤ 5) :
    (storeClipped w s).zn.toNat = w.zs.length := by
  unfold storeClipped
  split <;> exact toNat_count _ h

/-- The four passes on a table that passes the entry checks: they end with at most five entries, the parts of the given
ones inside the tile, or find no room for a split, which takes more than one entry (R146, R148). -/
theorem clipPasses_of_check {s : State} (h : clipEntryCheck s = none) :
    (∃ w, clipPasses (clipRect (tileOf s)) (zoidsOf s) = .ok w ∧ w.zs.length ≤ 5 ∧
      w.zs.Perm (partsInside (clipRect (tileOf s)) (zoidsOf s)) ∧
      ∀ z ∈ w.zs, zoidValid z = true ∧ z.y0 < z.y1 ∧ ZoidInTile (tileOf s) z ∧ ZoidFits z) ∨
    (clipPasses (clipRect (tileOf s)) (zoidsOf s) = .error .zoidOverflow ∧ 1 < (zoidsOf s).length) := by
  obtain ⟨hcount, hvalid, hcontig⟩ := (clipEntryCheck_none_iff s).mp h
  have hordered : Ordered (zoidsOf s) :=
    contiguous_ordered hcontig fun z hz => ((zoidValid_iff z).mp (hvalid z hz)).1
  have hlength : (zoidsOf s).length ≤ 5 := by rw [length_zoidsOf s hcount]; exact hcount
  refine (clipPasses_spec hvalid hordered hlength (clipRect_x s)).imp_left ?_
  rintro ⟨w, hpasses, hroom, hparts, hinside⟩
  refine ⟨w, hpasses, hroom, hparts, fun z hz => ?_⟩
  obtain ⟨hwithin, htall⟩ := hinside z hz
  obtain ⟨hz, htile⟩ := (within_clipRect_iff s z).mp hwithin
  exact ⟨hz, htall, htile, hwithin.fits⟩

/-- What the passes leave is what the table holds afterwards. -/
theorem clipStage_of_passes {s : State} {w : ClipWork} (h : clipEntryCheck s = none)
    (hpasses : clipPasses (clipRect (tileOf s)) (zoidsOf s) = .ok w) :
    clipStage s = .ok (storeClipped w s) ∧ ClippedTo s (storeClipped w s) ∧ zoidsOf (storeClipped w s) = w.zs := by
  obtain ⟨w', hpasses', hroom, hparts, hinside⟩ | ⟨hfull, -⟩ := clipPasses_of_check h
  · obtain rfl : w = w' := Except.ok.inj (hpasses.symm.trans hpasses')
    have hstored : zoidsOf (storeClipped w s) = w.zs :=
      zoidsOf_storeClipped s hroom fun z hz => (hinside z hz).2.2.2
    refine ⟨by simp [clipStage, h, hpasses], ⟨storeClipped_onlyTable w s, ?_, ?_, ?_⟩, hstored⟩
    · rwa [storeClipped_zn s hroom]
    · rwa [hstored]
    · rw [hstored]
      exact fun z hz => have ⟨hz, htall, htile, _⟩ := hinside z hz; ⟨hz, htall, htile⟩
  · rw [hpasses] at hfull
    cases hfull

/-- On a table that passes the entry checks the clipper leaves a clipped table, or loses the table to a split that
finds no room. -/
theorem clipStage_spec {s : State} (h : clipEntryCheck s = none) :
    (∃ t, clipStage s = .ok t ∧ ClippedTo s t) ∨
    (clipStage s = .error (.zoidOverflow, loseTable s) ∧ 1 < (zoidsOf s).length) := by
  obtain ⟨w, hpasses, -⟩ | ⟨hfull, hmany⟩ := clipPasses_of_check h
  · obtain ⟨hstage, hclip, -⟩ := clipStage_of_passes h hpasses
    exact .inl ⟨_, hstage, hclip⟩
  · exact .inr ⟨by simp [clipStage, h, hfull], hmany⟩

theorem clipStage_ok {s t : State} (h : clipStage s = .ok t) : ClippedTo s t := by
  obtain ⟨c, -, he⟩ | ⟨c, -, -, he⟩ | ⟨w, hcheck, -, -⟩ := clipStage_cases s
  · rw [he] at h; cases h
  · rw [he] at h; cases h
  · obtain ⟨u, hu, hclip⟩ | ⟨he, -⟩ := clipStage_spec hcheck <;> rw [h] at *
    · cases hu; exact hclip
    · cases he

/-- A Z.CLIP that does not fault clips the table. -/
theorem zClip_clippedTo {s t : State} (h : exec .zClip s = .next t) (hfault : t.fault = false) : ClippedTo s t :=
  clipStage_ok (finishStage_eq_ok h hfault)

/-! ### Entries that need no cut (R139 to R142) -/

theorem minXVisit_inside {L H T B : Int} {z : Zoid} (h : Within L H T B z) (htall : z.y0 < z.y1) :
    minXVisit L z = .ok none := by
  obtain ⟨hvalid, h0, h1, -⟩ := h
  obtain ⟨-, hx0, hx1⟩ := (zoidValid_iff z).mp hvalid
  simp [minXVisit, minXMask, mask4, htall.ne, show ¬z.xl0 < L by omega, show ¬z.xl1 < L by omega,
    show ¬z.xr0 < L by omega, show ¬z.xr1 < L by omega]

theorem maxXVisit_inside {L H T B : Int} {z : Zoid} (h : Within L H T B z) (htall : z.y0 < z.y1) :
    maxXVisit H z = .ok none := by
  obtain ⟨hvalid, h0, h1, -⟩ := h
  obtain ⟨-, hx0, hx1⟩ := (zoidValid_iff z).mp hvalid
  simp [maxXVisit, maxXMask, mask4, htall.ne, show ¬H < z.xl0 by omega, show ¬H < z.xl1 by omega,
    show ¬H < z.xr0 by omega, show ¬H < z.xr1 by omega]

/-- An x pass that finds every one of at most five entries inside its bound changes nothing. -/
theorem clipX_inside {visit : Zoid → Except Cause (Option ClipAction)} {zs : List Zoid} (sh : Bool)
    (hl : zs.length ≤ 5) (h : ∀ z ∈ zs, visit z = .ok none) :
    clipX visit Config.clipVisits 0 ⟨zs, sh⟩ = .ok ⟨zs, sh⟩ :=
  clipX_all_done Config.clipVisits [] zs sh (by simp only [Config.clipVisits]; omega) h

/-- Entries between the top and the bottom bound are kept as they are (R139, R140). -/
theorem rowsKept_self {top bottom : Int} {zs : List Zoid}
    (h : ∀ z ∈ zs, z.y0 < z.y1 ∧ top ≤ z.y0 ∧ z.y1 ≤ bottom) : rowsKept top bottom zs = zs := by
  have hall : zs.filter (fun z => decide (max top z.y0 < min bottom z.y1)) = zs :=
    List.filter_eq_self.mpr fun z hz => by have := h z hz; simp only [decide_eq_true_eq]; omega
  rw [rowsKept, hall]
  refine (List.map_congr_left fun z hz => ?_).trans (List.map_id zs)
  have hz' := h z hz
  rw [bottomCut, if_neg (by omega), topCut, if_neg (by omega)]
  rfl

theorem rowsKept_length_le (top bottom : Int) (zs : List Zoid) : (rowsKept top bottom zs).length ≤ zs.length := by
  rw [rowsKept, List.length_map]
  exact List.length_filter_le _ zs

/-- Both y passes on entries of positive height: what they keep lies between the bounds and has a height. -/
theorem clipRows_tall {L H ymin ymax : Int} {zs : List Zoid} (hordered : Ordered zs)
    (hz : ∀ z ∈ zs, (zoidValid z = true ∧ z.y0 < z.y1) ∧ (L ≤ z.xl0 ∧ z.xr0 ≤ H) ∧ L ≤ z.xl1 ∧ z.xr1 ≤ H)
    (hy : ymin ≤ ymax) :
    ∃ zs1, clipMaxY ymax zs = .ok zs1 ∧ clipMinY ymin zs1 = .ok (rowsKept ymin ymax zs) ∧
      ∀ z ∈ rowsKept ymin ymax zs, Within L H ymin ymax z ∧ z.y0 < z.y1 := by
  obtain ⟨_, _, T, B, -, -, hrows⟩ := exists_within 0 fun z m => (hz z m).1.1
  have hwithin : ∀ z ∈ zs, Within L H T B z := fun z m => by
    obtain ⟨⟨hvalid, -⟩, hx⟩ := hz z m
    obtain ⟨-, -, -, hT, hB⟩ := hrows z m
    exact ⟨hvalid, hx.1, hx.2, hT, hB⟩
  obtain ⟨zs1, zs2, hmax, hmin, hkept, -, htall, heq⟩ := clipRows_spec (ymin := ymin) (ymax := ymax) hwithin hordered
  obtain rfl := heq (fun z m => (hz z m).1.2) hy
  rw [withHeight, List.filter_eq_self] at htall
  exact ⟨zs1, hmax, hmin, fun z m => ⟨hkept z m, by simpa using htall z m⟩⟩

/-- The four passes on entries of positive height between the left and the right bound keep their rows. -/
theorem clipPasses_of_columns {r : ClipRect} {zs : List Zoid} (hordered : Ordered zs) (hl : zs.length ≤ 5)
    (hz : ∀ z ∈ zs, (zoidValid z = true ∧ z.y0 < z.y1) ∧ (r.xmin ≤ z.xl0 ∧ z.xr0 ≤ r.xmax) ∧ r.xmin ≤ z.xl1 ∧
      z.xr1 ≤ r.xmax) (hy : r.ymin ≤ r.ymax) :
    clipPasses r zs =
        .ok ⟨rowsKept r.ymin r.ymax zs, decide ((rowsKept r.ymin r.ymax zs).length < zs.length)⟩ ∧
      ∀ z ∈ rowsKept r.ymin r.ymax zs, Within r.xmin r.xmax r.ymin r.ymax z := by
  obtain ⟨zs1, hmax, hmin, hkept⟩ := clipRows_tall hordered hz hy
  have hroom := (rowsKept_length_le r.ymin r.ymax zs).trans hl
  refine ⟨?_, fun z hz => (hkept z hz).1⟩
  simp only [clipPasses, hmax, hmin, bind, Except.bind]
  rw [clipX_inside _ hroom fun z m => minXVisit_inside (hkept z m).1 (hkept z m).2]
  exact clipX_inside _ hroom fun z m => maxXVisit_inside (hkept z m).1 (hkept z m).2

/-- Z.CLIP leaves a valid contiguous table of entries of positive height inside the tile as it is, the entries above
ZN included. -/
theorem clipStage_inside {s : State} (hcount : s.zn.toNat ≤ 5) (hcontig : contiguous (zoidsOf s) = true)
    (hz : ∀ z ∈ zoidsOf s, zoidValid z = true ∧ z.y0 < z.y1) (hin : ∀ z ∈ zoidsOf s, ZoidInTile (tileOf s) z) :
    clipStage s = .ok s := by
  have hcheck : clipEntryCheck s = none := (clipEntryCheck_none_iff s).mpr ⟨hcount, fun z m => (hz z m).1, hcontig⟩
  have hordered := contiguous_ordered hcontig fun z m => (hz z m).2.le
  have hsame : rowsKept (clipRect (tileOf s)).ymin (clipRect (tileOf s)).ymax (zoidsOf s) = zoidsOf s :=
    rowsKept_self fun z m => ⟨(hz z m).2, (hin z m).2.2⟩
  have hpasses := (clipPasses_of_columns hordered (by rw [length_zoidsOf s hcount]; exact hcount)
    (fun z m => ⟨hz z m, (hin z m).1, (hin z m).2.1⟩) (clipRect_y s)).1
  rw [hsame] at hpasses
  simp [clipStage, hcheck, hpasses, storeClipped, setTable_zoidsOf s hcount]

/-! ### One entry (R143, R145) -/

theorem length_zoidsOf_eq_min (s : State) : (zoidsOf s).length = min s.zn.toNat 5 := by
  simp [zoidsOf, zEntries]

/-- One valid entry passes the entry checks. -/
theorem clipEntryCheck_single {s : State} {z : Zoid} (h : zoidsOf s = [z]) (hvalid : zoidValid z = true) :
    clipEntryCheck s = none := by
  have hlength := length_zoidsOf_eq_min s
  rw [h, List.length_singleton] at hlength
  refine (clipEntryCheck_none_iff s).mpr ⟨by omega, ?_, ?_⟩ <;> rw [h]
  · simpa using hvalid
  · rfl

/-- An x pass on one entry leaves its parts in order, each of them done. -/
theorem clipX_single_done {visit : Zoid → Except Cause (Option ClipAction)} {P R : Zoid → Prop}
    {settled : Zoid → Bool} {parts : Zoid → List Zoid} (hv : VisitKeeps visit P R settled parts) {z : Zoid} (sh : Bool)
    (hz : P z) :
    ∃ sh', clipX visit Config.clipVisits 0 ⟨[z], sh⟩ = .ok ⟨parts z, sh'⟩ ∧ (∀ x ∈ parts z, R x) ∧
      (parts z).length ≤ 5 := by
  obtain ⟨sh', hparts⟩ := clipX_single hv 28 z sh hz
  have hvisits := visitsLeft_le settled [z]
  have hentries := entriesLeft_le settled [z]
  rw [List.length_singleton] at hvisits hentries
  obtain ⟨w, hw, hdone, hlen, -⟩ | ⟨-, hfull⟩ := clipX_keeps hv Config.clipVisits [] [z] sh
    (by simp only [Config.clipVisits]; omega) (by simp) (by simpa using hz) (by simp)
  · obtain rfl : w = ⟨parts z, sh'⟩ := by
      have heq := hw.symm.trans hparts
      cases heq
      rfl
    exact ⟨sh', hparts, hdone, hlen⟩
  · simp only [List.length_nil] at hfull
    omega

section
variable {r : ClipRect} {z : Zoid} (hvalid : zoidValid z = true) (htall : z.y0 < z.y1) (htop : r.ymin ≤ z.y0)
  (hbottom : z.y1 ≤ r.ymax)
include hvalid htall htop hbottom

/-- The y passes leave one entry between the top and the bottom bound alone. -/
theorem clipRows_single : clipMaxY r.ymax [z] = .ok [z] ∧ clipMinY r.ymin [z] = .ok [z] := by
  have hwithin : ∀ x ∈ [z], Within (min z.xl0 z.xl1) (max z.xr0 z.xr1) r.ymin r.ymax x := by
    simp only [List.mem_singleton, forall_eq]
    exact ⟨hvalid, by omega, by omega, htop, hbottom⟩
  have hmax := clipMaxY_spec (ymax := r.ymax) hwithin (List.pairwise_singleton _ z)
  have hmin := clipMinY_spec (ymin := r.ymin) hwithin (List.pairwise_singleton _ z)
  rw [hmax, hmin]
  simp [bottomCut, topCut, show z.y0 < r.ymax by omega, show r.ymin < z.y1 by omega,
    show ¬r.ymax < z.y1 by omega, show ¬z.y0 < r.ymin by omega]

/-- One entry that crosses the left bound only is left as the pieces of its mask (R143). -/
theorem clipPasses_left (hx : r.xmin ≤ r.xmax) (h0 : z.xr0 ≤ r.xmax) (h1 : z.xr1 ≤ r.xmax) :
    ∃ sh, clipPasses r [z] = .ok ⟨withHeight (leftCut r.xmin z), sh⟩ ∧
      (withHeight (leftCut r.xmin z)).length ≤ 5 ∧
      ∀ x ∈ withHeight (leftCut r.xmin z), Within r.xmin r.xmax r.ymin r.ymax x := by
  obtain ⟨hmax, hmin⟩ := clipRows_single hvalid htall htop hbottom
  obtain ⟨sh, hpass, hdone, hlen⟩ := clipX_single_done (z := z) (minXVisit_keeps (L := min r.xmin (min z.xl0 z.xl1))
    (T := r.ymin) (B := r.ymax) hx (by omega)) false ⟨hvalid, by omega, by omega, htop, hbottom⟩
  rw [partsAt_tall htall] at hpass hdone hlen
  refine ⟨sh, ?_, hlen, fun x m => (hdone x m).1⟩
  simp only [clipPasses, hmax, hmin, bind, Except.bind, lt_self_iff_false, decide_false, hpass]
  exact clipX_inside _ hlen fun x m => maxXVisit_inside (hdone x m).1 (hdone x m).2

/-- One entry that crosses the right bound only is left as the pieces of its mask (R145). -/
theorem clipPasses_right (hx : r.xmin ≤ r.xmax) (h0 : r.xmin ≤ z.xl0) (h1 : r.xmin ≤ z.xl1) :
    ∃ sh, clipPasses r [z] = .ok ⟨withHeight (rightCut r.xmax z), sh⟩ ∧
      (withHeight (rightCut r.xmax z)).length ≤ 5 ∧
      ∀ x ∈ withHeight (rightCut r.xmax z), Within r.xmin r.xmax r.ymin r.ymax x := by
  obtain ⟨hmax, hmin⟩ := clipRows_single hvalid htall htop hbottom
  have hwithin : Within r.xmin (max r.xmax (max z.xr0 z.xr1)) r.ymin r.ymax z :=
    ⟨hvalid, by omega, by omega, htop, hbottom⟩
  have hleft : clipX (minXVisit r.xmin) Config.clipVisits 0 ⟨[z], false⟩ = .ok ⟨[z], false⟩ :=
    clipX_inside false (by simp) (by simpa using minXVisit_inside hwithin htall)
  obtain ⟨sh, hpass, hdone, hlen⟩ := clipX_single_done (maxXVisit_keeps (T := r.ymin) (B := r.ymax) hx
    (le_max_left _ _)) false hwithin
  rw [partsAt_tall htall] at hpass hdone hlen
  refine ⟨sh, ?_, hlen, fun x m => (hdone x m).1⟩
  simp only [clipPasses, hmax, hmin, bind, Except.bind, lt_self_iff_false, decide_false, hleft, hpass]

end

/-! ### The obligations -/

/-- Settles O55, from what a clip without a fault leaves. -/
theorem clippedTableLiesInTheTile : Obligations.ClippedTableLiesInTheTile := by
  intro s t _ hexec hfault
  obtain ⟨htable, hcount, -, hinside⟩ := zClip_clippedTo hexec hfault
  exact ⟨hcount, htable, hinside⟩

/-- Settles O58: one entry becomes at most two after each cut, so there is always room. -/
theorem clipOfOneEntryCompletes : Obligations.ClipOfOneEntryCompletes := by
  intro s hcount hvalid
  have hlength := length_zoidsOf s (by omega)
  have hcontig : contiguous (zoidsOf s) = true := by
    rw [contiguous_iff_isChain, List.isChain_iff_getElem]
    intro i hi
    omega
  have hcheck := (clipEntryCheck_none_iff s).mpr ⟨by omega, hvalid, hcontig⟩
  obtain ⟨t, ht, htable, -⟩ | ⟨-, hmany⟩ := clipStage_spec hcheck
  · exact ⟨t, by rw [exec_zClip, ht, finishStage_ok], htable⟩
  · omega

/-- Settles O56: nothing to cut at the sides, and the parts that every clip without a fault leaves. -/
theorem clipKeepsWhatLiesInside : Obligations.ClipKeepsWhatLiesInside := by
  refine ⟨fun s hcount hcontig hz => ?uncut, fun s t _ hexec hfault => ?parts⟩
  case uncut =>
    intro r
    refine ⟨fun hin => ?_, fun hx => ?_⟩
    · rw [exec_zClip, clipStage_inside hcount hcontig hz hin, finishStage_ok]
    · have hlength : (zoidsOf s).length ≤ 5 := by rw [length_zoidsOf s hcount]; exact hcount
      obtain ⟨hpasses, hwithin⟩ := clipPasses_of_columns (r := r)
        (contiguous_ordered hcontig fun z m => (hz z m).2.le) hlength (fun z m => ⟨hz z m, hx z m⟩) (clipRect_y s)
      exact execZClip_of_passes ((clipEntryCheck_none_iff s).mpr ⟨hcount, fun z m => (hz z m).1, hcontig⟩)
        hpasses ((rowsKept_length_le _ _ _).trans hlength) hwithin
  case parts =>
    obtain ⟨-, -, hparts, -⟩ := zClip_clippedTo hexec hfault
    exact hparts

/-- Settles O57: the y passes leave the entry alone, one x pass cuts it and the other finds its pieces inside. -/
theorem clipCutsOneEntryAtASide : Obligations.ClipCutsOneEntryAtASide := by
  intro s z hone hvalid htall r htop hbottom
  have hcheck := clipEntryCheck_single hone hvalid
  refine ⟨fun h0 h1 => ?left, fun h0 h1 => ?right⟩
  case left =>
    obtain ⟨sh, hpasses, hlen, hwithin⟩ := clipPasses_left hvalid htall htop hbottom (clipRect_x s) h0 h1
    exact execZClip_of_passes hcheck (by rw [hone]; exact hpasses) hlen hwithin
  case right =>
    obtain ⟨sh, hpasses, hlen, hwithin⟩ := clipPasses_right hvalid htall htop hbottom (clipRect_x s) h0 h1
    exact execZClip_of_passes hcheck (by rw [hone]; exact hpasses) hlen hwithin

end Sys2Proof.Machine
end

section
/-! PROOFS. The whole calls TRI.FILL and TRI.FILLAA, the alphas of an antialiased fill, the fills of whole-pixel entries,
and the obligations O59, O60, O49, O53, O54 (44_triangle_zoid_fill.md R121 to R129). -/

namespace Sys2Proof.Machine

/-! ### The whole calls as their stages (R127, R128) -/

theorem exec_triFill (s : State) :
    exec .triFill s = finishStage (encode .triFill) (andThen (clipStage (triSetupStage s)) fillStage) := rfl

theorem exec_triFillaa (s : State) :
    exec .triFillaa s = finishStage (encode .triFillaa) (andThen (clipStage (triSetupStage s)) fillAaStage) := rfl

/-- The table of TRI.SETUP passes the entry checks of Z.CLIP (R136). -/
theorem triSetupStage_check (s : State) : clipEntryCheck (triSetupStage s) = none := by
  obtain ⟨hcount, hcontig, hz⟩ := triSetupStage_table s
  exact (clipEntryCheck_none_iff _).mpr ⟨by omega, fun z m => (hz z m).1, hcontig⟩

/-- A clipped table passes the check of the fills. -/
theorem ClippedTo.checkTable_eq_none {s t : State} (h : ClippedTo s t) : checkTable t = none := by
  obtain ⟨-, hcount, -, hz⟩ := h
  exact (checkTable_none_iff t).mpr ⟨hcount, fun z m => (hz z m).1⟩

/-- Where the clip of a whole call leaves `t`, the call goes on as the fill of `t`: the fill's own check passes, so
its own word is never reported. -/
theorem exec_triFill_eq_zFill {s t : State} (h : clipStage (triSetupStage s) = .ok t) :
    exec .triFill s = exec .zFill t ∧ exec .triFillaa s = exec .zFillaa t := by
  have hcheck := (clipStage_ok h).checkTable_eq_none
  have hword : ∀ u : State, ∀ w w' : Word, finishStage w (.ok u) = finishStage w' (.ok u) := fun _ _ _ => rfl
  refine ⟨?_, ?_⟩
  · rw [exec_triFill, h, andThen_ok, fillStage_ok hcheck, hword _ _ (encode .zFill), ← fillStage_ok hcheck]
    rfl
  · rw [exec_triFillaa, h, andThen_ok, fillAaStage_ok hcheck, hword _ _ (encode .zFillaa), ← fillAaStage_ok hcheck]
    rfl

/-- The fills of a table that passes the check complete without changing STATUS. -/
theorem exec_fills_of_check {s : State} (h : checkTable s = none) :
    (∃ t, exec .zFill s = .next t ∧ t.fault = s.fault) ∧ ∃ t, exec .zFillaa s = .next t ∧ t.fault = s.fault := by
  have hfault : ∀ ops, (runOps ops s).fault = s.fault := fun ops => by
    obtain ⟨-, -, ⟨hf, -⟩, -⟩ := runOps_onlyPixels ops s
    exact hf
  exact ⟨⟨_, exec_zFill h, hfault _⟩, ⟨_, exec_zFillaa h, hfault _⟩⟩

theorem OnlyTable.fault_eq {s t : State} (h : OnlyTable s t) : t.fault = s.fault := by
  obtain ⟨-, -, ⟨hfault, -⟩, -⟩ := h
  exact hfault

/-- Settles O59: the clip either leaves a table that both fills take, or faults, and then only the word differs. -/
theorem wholeCallsComposeTheirSteps : Obligations.WholeCallsComposeTheirSteps := by
  intro s hs
  have hsetup : (triSetupStage s).fault = false := (triSetupStage_onlyTable s).fault_eq.trans hs
  refine ⟨triSetupStage s, ?_⟩
  obtain ⟨t, ht, hclip⟩ | ⟨herror, -⟩ := clipStage_spec (triSetupStage_check s)
  · have hfault : t.fault = false := hclip.1.fault_eq.trans hsetup
    obtain ⟨hfill, hfillaa⟩ := exec_triFill_eq_zFill ht
    have hdone := exec_fills_of_check hclip.checkTable_eq_none
    rw [hfault] at hdone
    refine ⟨t, exec_triSetup s, by rw [exec_zClip, ht, finishStage_ok], ?_, ?_, fun _ => hdone⟩
    · simp [hfill, hfault]
    · simp [hfillaa, hfault]
  · refine ⟨_, exec_triSetup s, by rw [exec_zClip, herror, finishStage_error], ?_, ?_, fun hno => ?_⟩
    · rw [exec_triFill, herror]
      rfl
    · rw [exec_triFillaa, herror]
      rfl
    · cases hno

/-! ### Triangles that need no cut (R127, R128, R129 (c)) -/

/-- Where the pieces of a triangle lie inside the tile, the clip of the whole calls leaves them as they are. -/
theorem clipStage_triSetupStage_inside {s : State}
    (h : ∀ z ∈ zoidsOf (triSetupStage s), ZoidInTile (tileOf s) z) :
    clipStage (triSetupStage s) = .ok (triSetupStage s) := by
  obtain ⟨hcount, hcontig, hz⟩ := triSetupStage_table s
  exact clipStage_inside (by omega) hcontig hz (by rwa [(triSetupStage_onlyTable s).tileOf_eq])

/-- Settles O60: the pieces of a triangle inside the tile are inside too, so the clip changes nothing and the fills
draw the pieces. -/
theorem trianglesInsideTheTileAreFilled : Obligations.TrianglesInsideTheTileAreFilled := by
  intro s a b c hperm hab hbc ⟨hax, hay⟩ ⟨hbx, _⟩ ⟨hcx, hcy⟩
  have hpieces := zoidsOf_triSetupStage hperm hab hbc
  have hclip : clipStage (triSetupStage s) = .ok (triSetupStage s) :=
    clipStage_triSetupStage_inside fun z hz => by
      rw [hpieces] at hz
      exact ((within_clipRect_iff s z).mp (piecesOf_within hab hbc hax hbx hcx hay.1 hcy.2 z hz).1).2
  obtain ⟨hfill, hfillaa⟩ := exec_triFill_eq_zFill hclip
  obtain ⟨hcount, hvalid⟩ := (checkTable_none_iff _).mp (clipStage_ok hclip).checkTable_eq_none
  obtain ⟨t, ht, hstores, -⟩ := hardFillStoresSampledPixels _ hcount hvalid
  obtain ⟨u, hu, hblends⟩ := antialiasedFillPlotsRows _ hcount hvalid
  rw [hpieces] at hstores hblends
  rw [(triSetupStage_onlyTable s).tileOf_eq] at hblends
  exact ⟨_, t, u, exec_triSetup s, hpieces, triSetupStage_onlyTable s, hfill.trans ht, hstores, hfillaa.trans hu,
    hblends⟩

/-- Settles O49: colinear vertices have no pieces, so there is nothing to clip and nothing to draw. -/
theorem colinearTrianglesDrawNothing : Obligations.ColinearTrianglesDrawNothing := by
  intro s p q r hline
  obtain ⟨a, b, c, hperm, hab, hbc⟩ := exists_sorted_vertices s
  have hpieces : piecesOf a b c = [] := piecesOf_colinear (Colinear.perm hline hperm)
  have hempty : zoidsOf (triSetupStage s) = [] := by rw [zoidsOf_triSetupStage hperm hab hbc, hpieces]
  have hzn : (triSetupStage s).zn = 0 := by
    rw [← BitVec.toNat_inj, triSetupStage_zn hperm hab hbc, hpieces]
    rfl
  have hclip : clipStage (triSetupStage s) = .ok (triSetupStage s) :=
    clipStage_triSetupStage_inside fun z hz => by rw [hempty] at hz; cases hz
  have hcheck := (clipStage_ok hclip).checkTable_eq_none
  obtain ⟨hfill, hfillaa⟩ := exec_triFill_eq_zFill hclip
  rw [exec_zFill hcheck, hempty] at hfill
  rw [exec_zFillaa hcheck, hempty] at hfillaa
  have htable := triSetupStage_onlyTable s
  exact ⟨_, _, _, exec_triSetup s, hzn, htable, hfill, hzn, htable, hfillaa, hzn, htable⟩

/-! ### The alphas of an antialiased fill (R125) -/

/-- A byte scaled by a byte over 255 is a byte. -/
theorem scaled_byte_between {v w : Int} (hv : 0 ≤ v ∧ v ≤ 255) (hw : 0 ≤ w ∧ w ≤ 255) :
    0 ≤ v * w / 255 ∧ v * w / 255 ≤ 255 :=
  ediv_between (by decide) (mul_nonneg hv.1 hw.1) (mul_le_mul hv.2 hw.2 hw.1 (by decide))

theorem aaRowPlots_alpha {t : Tile} {py rowA xl xr : Int} (hrow : 0 ≤ rowA ∧ rowA ≤ 255) {r : Point × Int}
    (h : r ∈ aaRowPlots t py rowA xl xr) : 0 ≤ r.2 ∧ r.2 ≤ 255 := by
  unfold aaRowPlots at h
  dsimp only at h
  split at h
  next =>
    obtain rfl := List.mem_singleton.mp h
    exact scaled_byte_between hrow (by omega)
  next =>
    split at h
    next =>
      rw [List.mem_append, List.mem_cons, List.mem_map, List.mem_singleton] at h
      obtain (rfl | ⟨_, -, rfl⟩) | rfl := h
      · exact scaled_byte_between hrow (by omega)
      · exact hrow
      · exact scaled_byte_between hrow (by omega)
    next => cases h

/-- On a valid entry every row of an antialiased fill covers from 0 to 256 parts of its height. -/
theorem aaZoidPlots_alpha {t : Tile} {alpha : Int} {z : Zoid} (hz : zoidValid z = true)
    (halpha : 0 ≤ alpha ∧ alpha ≤ 255) {r : Point × Int} (h : r ∈ aaZoidPlots t alpha z) : 0 ≤ r.2 ∧ r.2 ≤ 255 := by
  obtain ⟨hy, -, -⟩ := (zoidValid_iff z).mp hz
  unfold aaZoidPlots at h
  dsimp only at h
  split at h
  next => cases h
  next =>
    obtain ⟨k, hk, hr⟩ := List.mem_flatMap.mp h
    rw [List.mem_range] at hk
    exact aaRowPlots_alpha (weight_between halpha.1 halpha.2 (by omega) (by omega)) hr

/-- Settles O53: the weights of a line are bytes, and so are the row alphas of a fill and their shares. -/
theorem blendAlphasAreBytes : Obligations.BlendAlphasAreBytes := by
  refine ⟨fun p q r => lineAaPlots_alpha, fun s hvalid o ho => ?_⟩
  obtain ⟨z, hz, ho⟩ := List.mem_flatMap.mp ho
  rw [aaFillOps_eq] at ho
  obtain ⟨⟨⟨x, y⟩, a⟩, hr, rfl⟩ := List.mem_map.mp ho
  have halpha : 0 ≤ alphaOf s ∧ alphaOf s ≤ 255 := by
    have := s.alpha.isLt
    unfold alphaOf
    omega
  exact ⟨x, y, a, rfl, aaZoidPlots_alpha (hvalid z hz) halpha hr⟩

/-! ### Blends that are stores -/

/-- Of plots that are opaque or have no effect the points of the opaque ones, in order. -/
def opaquePoints (plots : List (Point × Int)) : List Point :=
  (plots.filter fun r => decide (r.2 = 255)).map Prod.fst

theorem opaquePoints_flatMap {α : Type} (l : List α) (f : α → List (Point × Int)) :
    opaquePoints (l.flatMap f) = l.flatMap fun a => opaquePoints (f a) := by
  rw [opaquePoints, List.filter_flatMap, List.map_flatMap]
  rfl

/-- Blends that are opaque or have no effect are stores (42_pixel_span.md R87). -/
theorem runOps_blendOps_opaque (c : Color) {plots : List (Point × Int)} (h : ∀ r ∈ plots, r.2 = 0 ∨ r.2 = 255)
    (s : State) :
    runOps (blendOps c plots) s = runOps (storeOps (pack565 c) (opaquePoints plots)) s := by
  induction plots generalizing s with
  | nil => rfl
  | cons r plots ih =>
    obtain ⟨hr, hrest⟩ := List.forall_mem_cons.mp h
    have htail := ih hrest
    obtain ⟨⟨x, y⟩, a⟩ := r
    simp only [blendOps, List.map_cons, runOps_cons] at htail ⊢
    obtain rfl | rfl := hr
    · rw [runOp_blend_zero, htail]
      rfl
    · rw [runOp_blend_opaque, htail]
      rfl

/-- Stores outside the tile do nothing. -/
theorem runOps_storeOps_filter (p : Pixel) (ps : List Point) (s : State) :
    runOps (storeOps p (ps.filter fun r => inside (tileOf s) r.x r.y)) s = runOps (storeOps p ps) s := by
  induction ps generalizing s with
  | nil => rfl
  | cons r ps ih =>
    have htail := ih (runOp (.set r.x r.y p) s)
    rw [tileOf_runOp] at htail
    cases hr : inside (tileOf s) r.x r.y with
    | true =>
      rw [List.filter_cons, if_pos hr]
      exact htail
    | false =>
      rw [runOp_set_outside p hr] at htail
      rw [List.filter_cons, if_neg (by simp [hr]), htail]
      exact congrArg (runOps _) (runOp_set_outside p hr).symm

/-! ### Whole-pixel entries (R129 (e)) -/

/-- Whole-pixel coordinates and vertical edges. -/
def WholePixels (z : Zoid) : Prop :=
  z.xl0 = z.xl1 ∧ z.xr0 = z.xr1 ∧ z.xl0 % 256 = 0 ∧ z.xr0 % 256 = 0 ∧ z.y0 % 256 = 0 ∧ z.y1 % 256 = 0

/-- The hard fill of a whole-pixel entry, row by row. -/
theorem hardPoints_whole {z : Zoid} (h : WholePixels z) (hne : z.y0 ≠ z.y1) :
    hardPoints z = (List.range (z.y1 / 256 - z.y0 / 256).toNat).flatMap fun (k : Nat) =>
      rowPoints (z.xl0 / 256) (z.xr0 / 256 - 1) (z.y0 / 256 + k) := by
  obtain ⟨hl, hr, hl0, hr0, hy0, hy1⟩ := h
  have hleft : ∀ py, leftEdge z py = z.xl0 := fun py => by simp [leftEdge, hl]
  have hright : ∀ py, rightEdge z py = z.xr0 := fun py => by simp [rightEdge, hr]
  simp only [hardPoints, if_neg hne, hleft, hright, intRange, List.flatMap_map]
  rw [show (z.xl0 + 255) / 256 = z.xl0 / 256 by omega, show (z.xr0 + 255) / 256 = z.xr0 / 256 by omega,
    show (z.y0 + 255) / 256 = z.y0 / 256 by omega, show (z.y1 + 255) / 256 = z.y1 / 256 by omega,
    show z.y1 / 256 - 1 - z.y0 / 256 + 1 = z.y1 / 256 - z.y0 / 256 by omega]

/-- The antialiased fill of a whole-pixel entry with ALPHA = 255: every row is covered whole. -/
theorem aaZoidPlots_whole (t : Tile) {z : Zoid} (h : WholePixels z) (hne : z.y0 ≠ z.y1) :
    aaZoidPlots t 255 z = (List.range (z.y1 / 256 - z.y0 / 256).toNat).flatMap fun (k : Nat) =>
      aaRowPlots t (z.y0 / 256 + k) 255 (z.xl0 * 256) (z.xr0 * 256) := by
  obtain ⟨hl, hr, -, -, hy0, hy1⟩ := h
  simp only [aaZoidPlots, if_neg hne, ← hl, ← hr, sub_self, zero_mul, Int.zero_ediv, mul_zero, add_zero]
  rw [show (z.y1 - 1) / 256 - z.y0 / 256 + 1 = z.y1 / 256 - z.y0 / 256 by omega]
  refine List.flatMap_congr fun k hk => ?_
  rw [List.mem_range] at hk
  congr 1
  omega

theorem rowPoints_eq_nil {x0 x1 : Int} (y : Int) (h : x1 < x0) : rowPoints x0 x1 y = [] := by
  rw [rowPoints, intRange_eq_nil h, List.map_nil]

theorem rowPoints_eq_cons {x0 x1 : Int} (y : Int) (h : x0 ≤ x1) :
    rowPoints x0 x1 y = ⟨x0, y⟩ :: rowPoints (x0 + 1) x1 y := by
  rw [rowPoints, intRange_eq_cons h, List.map_cons]
  rfl

/-- A whole row between whole pixels is one opaque run; its right edge pixel has no coverage. -/
theorem aaRowPlots_whole (t : Tile) (py : Int) {xl xr : Int} (hl : xl % 256 = 0) (hr : xr % 256 = 0)
    (hle : xl ≤ xr) :
    (∀ r ∈ aaRowPlots t py 255 (xl * 256) (xr * 256), r.2 = 0 ∨ r.2 = 255) ∧
    (opaquePoints (aaRowPlots t py 255 (xl * 256) (xr * 256))).filter (fun r => inside t r.x r.y) =
      (rowPoints (xl / 256) (xr / 256 - 1) py).filter fun r => inside t r.x r.y := by
  have hcol : xl * 256 / 65536 = xl / 256 ∧ xr * 256 / 65536 = xr / 256 := by omega
  have hfrac : xl * 256 / 256 % 256 = 0 ∧ xr * 256 / 256 % 256 = 0 := by omega
  simp only [aaRowPlots, hcol, hfrac]
  by_cases heq : xl / 256 = xr / 256
  · rw [if_pos heq, rowPoints_eq_nil _ (by omega)]
    exact ⟨by simp, rfl⟩
  · rw [if_neg heq, if_pos (by omega), rowPoints_eq_cons (x0 := xl / 256) py (by omega)]
    refine ⟨fun r hr => ?_, ?_⟩
    · rw [List.mem_append, List.mem_cons, List.mem_map, List.mem_singleton] at hr
      obtain (rfl | ⟨_, -, rfl⟩) | rfl := hr
      exacts [.inr rfl, .inr rfl, .inl rfl]
    · simp [opaquePoints, List.filter_append, List.filter_map, Function.comp_def, List.filter_cons]

/-- The fills of a valid whole-pixel entry with ALPHA = 255 store at the same pixels of the tile. -/
theorem aaZoidPlots_eq_hardPoints (t : Tile) {z : Zoid} (hz : zoidValid z = true) (h : WholePixels z) :
    (∀ r ∈ aaZoidPlots t 255 z, r.2 = 0 ∨ r.2 = 255) ∧
    (opaquePoints (aaZoidPlots t 255 z)).filter (fun r => inside t r.x r.y) =
      (hardPoints z).filter fun r => inside t r.x r.y := by
  by_cases hne : z.y0 = z.y1
  · simp [aaZoidPlots, hardPoints, hne, opaquePoints]
  · obtain ⟨-, hle, -⟩ := (zoidValid_iff z).mp hz
    have ⟨_, _, hl, hr, _⟩ := h
    have hrow := fun k : Nat => aaRowPlots_whole t (z.y0 / 256 + k) hl hr hle
    rw [aaZoidPlots_whole t h hne, hardPoints_whole h hne, opaquePoints_flatMap, List.filter_flatMap,
      List.filter_flatMap]
    refine ⟨fun r hr => ?_, List.flatMap_congr fun k _ => (hrow k).2⟩
    obtain ⟨k, -, hk⟩ := List.mem_flatMap.mp hr
    exact (hrow k).1 r hk

/-- Settles O54: the blends are all opaque or without effect, and the opaque ones are the stores of the hard fill. -/
theorem wholePixelFillsAgree : Obligations.WholePixelFillsAgree := by
  intro s hcount hvalid halpha hwhole
  have hcheck := (checkTable_none_iff s).mpr ⟨hcount, hvalid⟩
  have hentry := fun z hz => aaZoidPlots_eq_hardPoints (tileOf s) (hvalid z hz) (hwhole z hz)
  refine ⟨_, exec_zFill hcheck, ?_⟩
  rw [exec_zFillaa hcheck, halpha]
  refine congrArg _ ?_
  have hsolid : ∀ r ∈ (zoidsOf s).flatMap (aaZoidPlots (tileOf s) 255), r.2 = 0 ∨ r.2 = 255 := fun r hr => by
    obtain ⟨z, hz, hr⟩ := List.mem_flatMap.mp hr
    exact (hentry z hz).1 r hr
  calc runOps (blendOps s.color ((zoidsOf s).flatMap (aaZoidPlots (tileOf s) 255))) s
      = runOps (storeOps (pack565 s.color) (opaquePoints ((zoidsOf s).flatMap (aaZoidPlots (tileOf s) 255)))) s :=
        runOps_blendOps_opaque s.color hsolid s
    _ = runOps (storeOps (pack565 s.color) ((opaquePoints ((zoidsOf s).flatMap (aaZoidPlots (tileOf s) 255))).filter
          fun r => inside (tileOf s) r.x r.y)) s := (runOps_storeOps_filter _ _ s).symm
    _ = _ := by
      rw [opaquePoints_flatMap, List.filter_flatMap, List.filter_flatMap,
        List.flatMap_congr fun z hz => (hentry z hz).2]

end Sys2Proof.Machine
end

section
/-! PROOFS. What a command can do, said once over all 27 commands, and from it the obligations O7, O8, O22, O23, O24;
what repeating a set-type command does, and the obligation O25 (10_state.md R38, 20_memory.md R40, R43, R46,
60_exceptions.md R152, R155, R156, 70_reset_and_hazards.md R176). -/

namespace Sys2Proof.Machine

/-! ### Families of commands -/

/-- The commands that make no pixel access (20_memory.md R40). -/
def accessFreeCommands : List Instr :=
  [.cFromint, .cToint, .cMul, .cDiv, .cFloor, .cFrac, .cRfrac, .cRound, .kPack, .kUnpack, .kBlend, .triSetup, .zClip]

/-- The set-type commands, which overwrite pixels without reading them (70_reset_and_hazards.md R176). -/
def setCommands : List Instr := [.pixSet, .pixSetu, .spanSet, .spanSetu, .line, .zFill, .triFill]

/-- The commands that can be refused (42_pixel_span.md R97). -/
def Unclipped (i : Instr) : Prop := i = .pixSetu ∨ i = .pixBlendu ∨ i = .spanSetu ∨ i = .spanBlendu

/-- A call of `pix_set`. -/
def IsSet (o : PixOp) : Prop := ∃ x y p, o = .set x y p

theorem isSet_of_mem_storeOps {p : Pixel} {ps : List Point} : ∀ o ∈ storeOps p ps, IsSet o := fun o ho => by
  obtain ⟨r, -, rfl⟩ := List.mem_map.mp ho
  exact ⟨_, _, _, rfl⟩

/-! ### What a command can do -/

/-- Everything a command can do from `s`: write RES; take a fault of its own before anything has changed; find no room
in the table inside the clip passes; set up its table and draw; or be refused. -/
inductive CommandEffect (i : Instr) (s : State) : Host.Outcome State Fault Refusal → Prop
  | result (r : Word) : CommandEffect i s (.next (setRes r s))
  | fault (c : Cause) (hc : (causeCode c).toNat ∈ mayRaise i) :
      CommandEffect i s (.next (raiseFault c (encode i) s))
  | overflow {t : State} (ht : OnlyTable s t) (hc : 9 ∈ mayRaise i) :
      CommandEffect i s (.next (raiseFault .zoidOverflow (encode i) t))
  | draw {t : State} (ops : List PixOp) (ht : OnlyTable s t) (hfree : i ∈ accessFreeCommands → ops = [])
      (hset : i ∈ setCommands → ∀ o ∈ ops, IsSet o) : CommandEffect i s (.next (runOps ops t))
  | refused (hi : Unclipped i) : CommandEffect i s (.refused .unclippedOutOfBounds)

theorem OnlyTable.refl (s : State) : OnlyTable s s := by
  simp [OnlyTable, SameOperands, SameFault, SamePixels, SameOutside]

theorem OnlyTable.trans {s t u : State} (h : OnlyTable s t) (k : OnlyTable t u) : OnlyTable s u := by
  simp only [OnlyTable, SameOperands, SameFault, SamePixels, SameOutside] at *
  simp [h, k]

theorem finishInRange_effect {i : Instr} (r : Int) (s : State) (h : 3 ∈ mayRaise i) :
    CommandEffect i s (.next (finishInRange (encode i) r s)) := by
  by_cases hr : inRange32 r = true
  · rw [finishInRange_ok _ s hr]
    exact .result _
  · rw [finishInRange_fault _ s hr]
    exact .fault .range h

theorem twinOrRefused_effect {i : Instr} {s : State} {ok : Bool} {twin : Host.Outcome State Fault Refusal}
    (hi : Unclipped i) (h : CommandEffect i s twin) : CommandEffect i s (twinOrRefused ok twin) := by
  cases ok
  · exact .refused hi
  · exact h

/-- A set-type command draws with stores. -/
theorem storeOps_effect {i : Instr} {s : State} (p : Pixel) (ps : List Point) (hfree : i ∉ accessFreeCommands) :
    CommandEffect i s (.next (runOps (storeOps p ps) s)) :=
  .draw _ (.refl s) (fun hi => absurd hi hfree) fun _ => isSet_of_mem_storeOps

/-- A command that is no set-type command draws with any calls. -/
theorem runOps_effect {i : Instr} {s : State} (ops : List PixOp) (hfree : i ∉ accessFreeCommands)
    (hset : i ∉ setCommands) : CommandEffect i s (.next (runOps ops s)) :=
  .draw _ (.refl s) (fun hi => absurd hi hfree) fun hi => absurd hi hset

theorem checkTable_code {s : State} {c : Cause} (h : checkTable s = some c) : (causeCode c).toNat ∈ [4, 5] := by
  obtain ⟨-, rfl⟩ | ⟨-, -, rfl⟩ := (checkTable_some_iff s c).mp h <;> decide

theorem clipEntryCheck_code {s : State} {c : Cause} (h : clipEntryCheck s = some c) :
    (causeCode c).toNat ∈ [4, 5, 6, 9] := by
  unfold clipEntryCheck at h
  split at h
  next hcheck =>
    cases h
    have := checkTable_code hcheck
    simp only [List.mem_cons] at this ⊢
    tauto
  next =>
    split at h <;> cases h
    decide

theorem zClip_effect (s : State) : CommandEffect .zClip s (exec .zClip s) := by
  rw [exec_zClip]
  cases hcheck : clipEntryCheck s with
  | some c =>
    rw [← exec_zClip, exec_zClip_fault hcheck]
    exact .fault c (clipEntryCheck_code hcheck)
  | none =>
    obtain ⟨t, ht, htable, -⟩ | ⟨herror, -⟩ := clipStage_spec hcheck
    · rw [ht]
      exact .draw [] htable (fun _ => rfl) fun _ => by simp
    · rw [herror]
      exact .overflow (loseTable_onlyTable s) (by decide)

theorem zFill_effect (s : State) : CommandEffect .zFill s (exec .zFill s) := by
  cases hcheck : checkTable s with
  | some c =>
    rw [(exec_checkTable_fault hcheck).2.1]
    exact .fault c (checkTable_code hcheck)
  | none =>
    rw [exec_zFill hcheck]
    exact storeOps_effect _ _ (by decide)

theorem zFillaa_effect (s : State) : CommandEffect .zFillaa s (exec .zFillaa s) := by
  cases hcheck : checkTable s with
  | some c =>
    rw [(exec_checkTable_fault hcheck).2.2]
    exact .fault c (checkTable_code hcheck)
  | none =>
    rw [exec_zFillaa hcheck]
    exact runOps_effect _ (by decide) (by decide)

/-- Both whole calls: the clip finds no room, or the fill draws on the clipped table. -/
theorem wholeCalls_effect (s : State) :
    CommandEffect .triFill s (exec .triFill s) ∧ CommandEffect .triFillaa s (exec .triFillaa s) := by
  have hsetup := triSetupStage_onlyTable s
  obtain ⟨t, ht, hclip⟩ | ⟨herror, -⟩ := clipStage_spec (triSetupStage_check s)
  · have hcheck := hclip.checkTable_eq_none
    have htable := hsetup.trans hclip.1
    rw [(exec_triFill_eq_zFill ht).1, (exec_triFill_eq_zFill ht).2, exec_zFill hcheck, exec_zFillaa hcheck]
    exact ⟨.draw _ htable (fun hi => absurd hi (by decide)) fun _ => isSet_of_mem_storeOps,
      .draw _ htable (fun hi => absurd hi (by decide)) fun hi => absurd hi (by decide)⟩
  · rw [exec_triFill, exec_triFillaa, herror]
    have hlost := hsetup.trans (loseTable_onlyTable _)
    exact ⟨.overflow hlost (by decide), .overflow hlost (by decide)⟩

/-- The pixel calls of a hard line are stores (43_line.md R108). -/
theorem lineOps_eq_storeOps (t : Tile) (p q : Point) (c : Pixel) : ∃ ps, lineOps t p q c = storeOps c ps := by
  by_cases hy : p.y = q.y
  · exact ⟨_, (lineOps_horizontal t c hy).trans (spanSetOps_eq ..)⟩
  by_cases hx : p.x = q.x
  · exact ⟨_, lineOps_vertical t c hy hx⟩
  · exact ⟨_, lineOps_slanted t c hy hx⟩

theorem line_effect (s : State) : CommandEffect .line s (exec .line s) := by
  obtain ⟨ps, hps⟩ := lineOps_eq_storeOps (tileOf s) (point0 s) (point1 s) (pack565 s.color)
  rw [exec_line, hps]
  exact storeOps_effect _ _ (by decide)

/-- Every command does one of the things of `CommandEffect`. -/
theorem exec_effect (i : Instr) (s : State) : CommandEffect i s (exec i s) := by
  cases i with
  | cFromint => rw [exec_cFromint]; exact finishInRange_effect _ s (by decide)
  | cMul => rw [exec_cMul]; exact finishInRange_effect _ s (by decide)
  | cDiv =>
    by_cases hzero : s.cb = 0
    · rw [exec_cDiv_zero hzero]; exact .fault .divZero (by decide)
    · rw [exec_cDiv_nonzero hzero]; exact finishInRange_effect _ s (by decide)
  | cRound =>
    by_cases hfits : s.ca.toInt ≤ 0x7FFFFF7F
    · rw [exec_cRound_fits hfits]; exact .result _
    · rw [exec_cRound_overflow (not_le.mp hfits)]; exact .fault .range (by decide)
  | cToint | cFloor | cFrac | cRfrac | kPack | kUnpack | kBlend => exact .result _
  | pixSet => exact storeOps_effect _ [⟨s.x0.toInt, s.y0.toInt⟩] (by decide)
  | pixSetu =>
    exact twinOrRefused_effect (.inl rfl) (storeOps_effect _ [⟨s.x0.toInt, s.y0.toInt⟩] (by decide))
  | pixBlend => exact runOps_effect [.blend ..] (by decide) (by decide)
  | pixBlendu =>
    exact twinOrRefused_effect (.inr (.inl rfl)) (runOps_effect [.blend ..] (by decide) (by decide))
  | spanSet => rw [exec_spanSet]; exact storeOps_effect _ _ (by decide)
  | spanSetu =>
    rw [exec_spanSetu, exec_spanSet]
    exact twinOrRefused_effect (.inr (.inr (.inl rfl))) (storeOps_effect _ _ (by decide))
  | spanBlend => exact runOps_effect _ (by decide) (by decide)
  | spanBlendu =>
    exact twinOrRefused_effect (.inr (.inr (.inr rfl))) (runOps_effect _ (by decide) (by decide))
  | line => exact line_effect s
  | lineAa => exact runOps_effect _ (by decide) (by decide)
  | triSetup => exact .draw [] (triSetupStage_onlyTable s) (fun _ => rfl) fun _ => by simp
  | zClip => exact zClip_effect s
  | zFill => exact zFill_effect s
  | zFillaa => exact zFillaa_effect s
  | triFill => exact (wholeCalls_effect s).1
  | triFillaa => exact (wholeCalls_effect s).2

/-! ### Frames and faults -/

/-- No command changes an operand register or the port (10_state.md R38). -/
theorem exec_frame {i : Instr} {s t : State} (h : exec i s = .next t) : SameOperands s t ∧ SameOutside s t := by
  have heffect := exec_effect i s
  rw [h] at heffect
  cases heffect with
  | result r =>
    obtain ⟨hops, -, -, -, hout⟩ := setRes_onlyRes r s
    exact ⟨hops, hout⟩
  | fault c =>
    obtain ⟨hops, -, -, -, hout⟩ := raiseFault_onlyFault c (encode i) s
    exact ⟨hops, hout⟩
  | overflow ht =>
    obtain ⟨hops, -, -, -, hout⟩ := ht
    exact ⟨hops, hout⟩
  | @draw u ops ht =>
    obtain ⟨hops, -, -, -, hout⟩ := ht
    obtain ⟨hops', -, -, -, hout'⟩ := runOps_onlyPixels ops u
    simp only [SameOperands, SameOutside] at *
    simp [hops, hops', hout, hout']

/-- A fault that a command raises from a state without one: before anything has changed, or inside the clip passes
with code 9, where the table is lost (60_exceptions.md R155, R156). -/
theorem exec_fault_cases {i : Instr} {s t : State} (hs : s.fault = false) (h : exec i s = .next t)
    (ht : t.fault = true) :
    (∃ c, (causeCode c).toNat ∈ mayRaise i ∧ t = raiseFault c (encode i) s) ∨
    (9 ∈ mayRaise i ∧ ∃ u, OnlyTable s u ∧ t = raiseFault .zoidOverflow (encode i) u) := by
  have heffect := exec_effect i s
  rw [h] at heffect
  cases heffect with
  | result r => exact absurd (hs.symm.trans ht) Bool.false_ne_true
  | fault c hc => exact .inl ⟨c, hc, rfl⟩
  | overflow hu hc => exact .inr ⟨hc, _, hu, rfl⟩
  | @draw u ops hu =>
    obtain ⟨-, -, ⟨hf, -⟩, -⟩ := runOps_onlyPixels ops u
    exact absurd ((hf.trans (hu.fault_eq.trans hs)).symm.trans ht) Bool.false_ne_true

/-- A command without a fault at its end leaves STATUS and FCMD as they were. -/
theorem exec_sameFault {i : Instr} {s t : State} (h : exec i s = .next t) (ht : t.fault = false) :
    SameFault s t := by
  have heffect := exec_effect i s
  rw [h] at heffect
  cases heffect with
  | result r => exact ⟨rfl, rfl, rfl⟩
  | fault c | overflow => cases ht
  | @draw u ops hu =>
    obtain ⟨-, -, ⟨hf, hcode, hcmd⟩, -⟩ := runOps_onlyPixels ops u
    obtain ⟨-, -, ⟨hf', hcode', hcmd'⟩, -⟩ := hu
    exact ⟨hf.trans hf', hcode.trans hcode', hcmd.trans hcmd'⟩

/-! ### Accesses -/

/-- One pixel of a command on the pixel port: a write, or a read followed at once by a write of the same pixel
(20_memory.md R46). -/
def AccessBlock (b : List PixAccess) : Prop :=
  (∃ a p, b = [.write a p]) ∨ ∃ a d p, b = [.read a d, .write a p]

/-- The accesses of one primitive call as blocks; a store makes no read. -/
theorem runOp_blocks (o : PixOp) (s : State) :
    ∃ blocks : List (List PixAccess), (runOp o s).trace = blocks.flatten.reverse ++ s.trace ∧
      (∀ b ∈ blocks, AccessBlock b) ∧ (IsSet o → ∀ b ∈ blocks, ∃ a p, b = [.write a p]) := by
  obtain h | ⟨x, y, p, -, h⟩ | ⟨x, y, c, k, -, -, -, rfl, h⟩ := runOp_cases o s <;> rw [h]
  · exact ⟨[], rfl, by simp, by simp⟩
  · refine ⟨[[.write _ p]], rfl, fun b hb => ?_, fun _ b hb => ?_⟩ <;> rw [List.mem_singleton.mp hb]
    · exact .inl ⟨_, _, rfl⟩
    · exact ⟨_, _, rfl⟩
  · refine ⟨[[.read _ _, .write _ _]], rfl, fun b hb => ?_, ?_⟩
    · rw [List.mem_singleton.mp hb]
      exact .inr ⟨_, _, _, rfl⟩
    · rintro ⟨_, _, _, hset⟩
      cases hset

/-- Drawing accesses the pixels block by block; stores make no read (20_memory.md R46). -/
theorem runOps_blocks (ops : List PixOp) (s : State) :
    ∃ blocks : List (List PixAccess), (runOps ops s).trace = blocks.flatten.reverse ++ s.trace ∧
      (ops = [] → blocks = []) ∧ (∀ b ∈ blocks, AccessBlock b) ∧
      ((∀ o ∈ ops, IsSet o) → ∀ b ∈ blocks, ∃ a p, b = [.write a p]) := by
  induction ops generalizing s with
  | nil => exact ⟨[], rfl, fun _ => rfl, by simp, by simp⟩
  | cons o ops ih =>
    obtain ⟨first, htrace, hfirst, hset⟩ := runOp_blocks o s
    obtain ⟨later, htrace', -, hlater, hset'⟩ := ih (runOp o s)
    refine ⟨first ++ later, ?_, fun h => absurd h (List.cons_ne_nil _ _), fun b hb => ?_, fun hall b hb => ?_⟩
    · rw [runOps_cons, htrace', htrace, List.flatten_append, List.reverse_append, List.append_assoc]
    · exact (List.mem_append.mp hb).elim (hfirst b) (hlater b)
    · obtain ⟨ho, hops⟩ := List.forall_mem_cons.mp hall
      exact (List.mem_append.mp hb).elim (hset ho b) (hset' hops b)

/-- A primitive call writes bytes of pixels inside the tile only. -/
theorem runOp_sameMemoryOutside (o : PixOp) (s : State) :
    SameMemoryOutside s (runOp o s) (InFootprint (tileOf s)) := by
  intro b hb
  obtain h | ⟨x, y, p, hin, h⟩ | ⟨x, y, c, k, hin, -, -, -, h⟩ := runOp_cases o s <;> rw [h]
  · exact memRead_writePixel_of_not _ _ _ (hb _ ⟨x, y, hin, rfl⟩)
  · exact memRead_writePixel_of_not _ _ _ (hb _ ⟨x, y, hin, rfl⟩)

/-- Drawing writes bytes of pixels inside the tile only (20_memory.md R43). -/
theorem runOps_sameMemoryOutside (ops : List PixOp) (s : State) :
    SameMemoryOutside s (runOps ops s) (InFootprint (tileOf s)) := by
  induction ops generalizing s with
  | nil => exact fun _ _ => rfl
  | cons o ops ih =>
    intro b hb
    have hrest := ih (runOp o s)
    rw [tileOf_runOp] at hrest
    exact (hrest b hb).trans (runOp_sameMemoryOutside o s b hb)

/-- What a command does on the pixel port: nothing, or drawing in the tile it was given. -/
theorem exec_pixels {i : Instr} {s t : State} (h : exec i s = .next t) :
    SamePixels s t ∨ ∃ u ops, OnlyTable s u ∧ (i ∈ accessFreeCommands → ops = []) ∧
      (i ∈ setCommands → ∀ o ∈ ops, IsSet o) ∧ t = runOps ops u := by
  have heffect := exec_effect i s
  rw [h] at heffect
  cases heffect with
  | result | fault => exact .inl ⟨rfl, rfl⟩
  | overflow ht =>
    obtain ⟨-, -, -, hpix, -⟩ := ht
    exact .inl hpix
  | draw ops hu hfree hset => exact .inr ⟨_, ops, hu, hfree, hset, rfl⟩

/-- A command keeps the canonical form of memory. -/
theorem exec_wf {i : Instr} {s t : State} (h : exec i s = .next t) (hs : Memory.wf s.mem = true) :
    Memory.wf t.mem = true := by
  obtain ⟨hmem, -⟩ | ⟨u, ops, ⟨-, -, -, ⟨hmem, -⟩, -⟩, -, -, rfl⟩ := exec_pixels h
  · rwa [hmem]
  · exact runOps_wf ops (by rwa [hmem])

/-! ### The obligations over all commands -/

/-- Settles O7: both kinds of fault come before any pixel, and the one that loses the table has code 9. -/
theorem faultsComeBeforePixels : Obligations.FaultsComeBeforePixels := by
  intro i s t hs h ht
  obtain ⟨hops, hout⟩ := exec_frame h
  obtain ⟨c, -, rfl⟩ | ⟨-, u, ⟨-, hres, -, hpix, -⟩, rfl⟩ := exec_fault_cases hs h ht
  · exact ⟨⟨rfl, rfl⟩, hops, hout, rfl, rfl, fun _ => ⟨rfl, rfl, rfl⟩⟩
  · refine ⟨hpix, hops, hout, hres, rfl, fun hcode => ?_⟩
    exact absurd hcode (show ¬(causeCode .zoidOverflow).toNat < 7 by decide)

/-- Settles O8: a command's own causes are listed for it, and inside the clip passes only code 9 is raised. -/
theorem commandsRaiseOnlyTheirCauses : Obligations.CommandsRaiseOnlyTheirCauses := by
  intro i s t hs h ht
  obtain ⟨c, hc, rfl⟩ | ⟨hc, u, -, rfl⟩ := exec_fault_cases hs h ht
  · exact hc
  · exact hc

/-- Settles O23: drawing stays in the tile it was given, which setting up the table does not move. -/
theorem accessesStayInTheFootprint : Obligations.AccessesStayInTheFootprint := by
  intro i s t h
  obtain ⟨hmem, htrace⟩ | ⟨u, ops, hu, -, -, rfl⟩ := exec_pixels h
  · exact ⟨⟨[], htrace, by simp⟩, fun b _ => by rw [hmem]⟩
  · have htile := hu.tileOf_eq
    obtain ⟨-, -, -, ⟨hmem, htrace⟩, -⟩ := hu
    have haccess := runOps_trace_footprint ops u
    have hframe := runOps_sameMemoryOutside ops u
    simp only [SameMemoryOutside, htile, htrace, hmem] at haccess hframe
    exact ⟨haccess, hframe⟩

/-- Settles O24: drawing accesses the pixels in blocks, and an access-free command draws nothing. -/
theorem readsAreFollowedByWrites : Obligations.ReadsAreFollowedByWrites := by
  intro i s t h
  obtain ⟨-, htrace⟩ | ⟨u, ops, ⟨-, -, -, ⟨-, htrace⟩, -⟩, hfree, hset, rfl⟩ := exec_pixels h
  · exact ⟨[], htrace, by simp, fun _ => rfl, by simp⟩
  · obtain ⟨blocks, hblocks, hnone, hshape, hwrites⟩ := runOps_blocks ops u
    rw [htrace] at hblocks
    exact ⟨blocks, hblocks, hshape, fun hi => hnone (hfree hi), fun hi => hwrites (hset hi)⟩

/-- Settles O22: the frame of every command, and the refusals among its effects. -/
theorem commandsNeverWriteOperands : Obligations.CommandsNeverWriteOperands := by
  refine fun i s => ⟨fun t => exec_frame, ?_⟩
  generalize hexec : exec i s = o
  have heffect := exec_effect i s
  rw [hexec] at heffect
  cases heffect with
  | refused hi => exact .inr ⟨hi, rfl⟩
  | result | fault | overflow | draw => exact .inl ⟨_, rfl⟩

/-! ### Repeating a set-type command (R176) -/

/-- Stores made again on the memory they left find their value at every pixel they store to. -/
theorem readPixel_storeOps_again {s u : State} {p : Pixel} {ps : List Point} (htile : tileOf u = tileOf s)
    (hmem : u.mem = (runOps (storeOps p ps) s).mem) (a : PixAddr) :
    readPixel (runOps (storeOps p ps) u).mem a = readPixel u.mem a := by
  by_cases hhit : ∃ r ∈ ps, inside (tileOf u) r.x r.y = true ∧ pixAddr (tileOf u) r.x r.y = a
  · obtain ⟨r, hr, hin, rfl⟩ := hhit
    rw [readPixel_storeOps_hit p ps u r hr hin, hmem, htile]
    exact (readPixel_storeOps_hit p ps s r hr (htile ▸ hin)).symm
  · obtain ⟨-, -, -, hframe⟩ := storeOps_stores p ps u
    exact hframe.readPixel_eq hhit

/-- What command `i` does from every state that satisfies `P`: the same stores, after work on the table alone, or nothing
to memory; and `P` holds afterwards. -/
def StoresAlike (i : Instr) (P : State → Prop) : Prop :=
  (∃ p ps, ∀ u, P u → ∃ v, OnlyTable u v ∧ exec i u = .next (runOps (storeOps p ps) v) ∧
    P (runOps (storeOps p ps) v)) ∨
  ∀ u, P u → ∃ v, exec i u = .next v ∧ v.mem = u.mem ∧ P v

/-- A command that does the same from `s` and from the state it leaves changes no pixel the second time. -/
theorem StoresAlike.repeat_changes_nothing {i : Instr} {P : State → Prop} (h : StoresAlike i P) {s t : State}
    (hs : P s) (hexec : exec i s = .next t) :
    ∃ u, exec i t = .next u ∧ ∀ a, readPixel u.mem a = readPixel t.mem a := by
  obtain ⟨p, ps, hstores⟩ | hnothing := h
  · obtain ⟨v, -, hfirst, ht⟩ := hstores s hs
    obtain rfl : t = runOps (storeOps p ps) v := Host.Outcome.next.inj (hexec.symm.trans hfirst)
    obtain ⟨u, hu, hsecond, -⟩ := hstores _ ht
    refine ⟨_, hsecond, fun a => ?_⟩
    have htile : tileOf u = tileOf v := hu.tileOf_eq.trans (tileOf_runOps ..)
    obtain ⟨-, -, -, ⟨hmem, -⟩, -⟩ := hu
    rw [← hmem]
    exact readPixel_storeOps_again htile hmem a
  · obtain ⟨v, hfirst, -, ht⟩ := hnothing s hs
    obtain rfl : t = v := Host.Outcome.next.inj (hexec.symm.trans hfirst)
    obtain ⟨u, hu, hmem, -⟩ := hnothing t ht
    exact ⟨u, hu, fun a => by rw [hmem]⟩

theorem StoresAlike.congr {i j : Instr} {P : State → Prop} (h : StoresAlike i P)
    (heq : ∀ u, P u → exec j u = exec i u) : StoresAlike j P :=
  h.imp (fun ⟨p, ps, hstores⟩ => ⟨p, ps, fun u hu => by rw [heq u hu]; exact hstores u hu⟩)
    fun hnothing u hu => by rw [heq u hu]; exact hnothing u hu

/-- What the set-type commands read besides memory stands in `u` as in `s`: the operand registers and the table. -/
def SameInputs (s u : State) : Prop := SameOperands s u ∧ u.zn = s.zn ∧ u.z = s.z

theorem SameOperands.refl (s : State) : SameOperands s s := by simp [SameOperands]

theorem SameOperands.trans {s t u : State} (h : SameOperands s t) (k : SameOperands t u) : SameOperands s u := by
  simp only [SameOperands] at *
  simp [h, k]

/-- The operands as the set-type commands read them. -/
theorem SameOperands.reads {s u : State} (h : SameOperands s u) :
    tileOf u = tileOf s ∧ point0 u = point0 s ∧ point1 u = point1 s ∧ point2 u = point2 s ∧ u.color = s.color ∧
      u.x0 = s.x0 ∧ u.y0 = s.y0 ∧ u.x1 = s.x1 := by
  simp only [SameOperands] at h
  simp [tileOf, point0, point1, point2, h]

theorem SameInputs.zoidsOf_eq {s u : State} (h : SameInputs s u) : zoidsOf u = zoidsOf s := by
  obtain ⟨-, hzn, hz⟩ := h
  rw [zoidsOf, hzn, hz, zoidsOf]

theorem SameInputs.checkTable_eq {s u : State} (h : SameInputs s u) : checkTable u = checkTable s := by
  rw [checkTable, h.zoidsOf_eq, h.2.1, checkTable]

/-- Drawing leaves the inputs alone, so a command that only stores at points its inputs name does so alike. -/
theorem storesAlike_of_draws {i : Instr} {s : State} (p : Pixel) (ps : List Point)
    (h : ∀ u, SameInputs s u → exec i u = .next (runOps (storeOps p ps) u)) : StoresAlike i (SameInputs s) := by
  refine .inl ⟨p, ps, fun u hu => ⟨u, .refl u, h u hu, ?_⟩⟩
  obtain ⟨hops, -, -, ⟨hzn, hz, -⟩, -⟩ := runOps_onlyPixels (storeOps p ps) u
  obtain ⟨hops', hzn', hz'⟩ := hu
  exact ⟨hops'.trans hops, hzn.trans hzn', hz.trans hz'⟩

theorem storesAlike_pixSet (s : State) : StoresAlike .pixSet (SameInputs s) := by
  refine storesAlike_of_draws (pack565 s.color) [point0 s] fun u hu => ?_
  obtain ⟨-, hpoint, -, -, hcolor, -⟩ := hu.1.reads
  rw [← hpoint, ← hcolor]
  rfl

theorem storesAlike_spanSet (s : State) : StoresAlike .spanSet (SameInputs s) := by
  refine storesAlike_of_draws (pack565 s.color)
    ((rowPoints s.x0.toInt s.x1.toInt s.y0.toInt).filter fun r => inside (tileOf s) r.x r.y) fun u hu => ?_
  obtain ⟨htile, -, -, -, hcolor, hx0, hy0, hx1⟩ := hu.1.reads
  rw [exec_spanSet, htile, hcolor, hx0, hy0, hx1]

theorem storesAlike_line (s : State) : StoresAlike .line (SameInputs s) := by
  obtain ⟨ps, hps⟩ := lineOps_eq_storeOps (tileOf s) (point0 s) (point1 s) (pack565 s.color)
  refine storesAlike_of_draws (pack565 s.color) ps fun u hu => ?_
  obtain ⟨htile, hpoint, hpoint', -, hcolor, -⟩ := hu.1.reads
  rw [exec_line, htile, hpoint, hpoint', hcolor, hps]

/-- Z.FILL stores at the points of the table, or takes the fault of its check, again and again. -/
theorem storesAlike_zFill (s : State) : StoresAlike .zFill (SameInputs s) := by
  cases hcheck : checkTable s with
  | none =>
    refine storesAlike_of_draws (pack565 s.color)
      (((zoidsOf s).flatMap hardPoints).filter fun r => inside (tileOf s) r.x r.y) fun u hu => ?_
    obtain ⟨htile, -, -, -, hcolor, -⟩ := hu.1.reads
    rw [exec_zFill (hu.checkTable_eq.trans hcheck), htile, hcolor, hu.zoidsOf_eq]
  | some c =>
    exact .inr fun u hu => ⟨_, (exec_checkTable_fault (hu.checkTable_eq.trans hcheck)).2.1, rfl, hu⟩

/-- TRI.FILL builds its table anew, from the vertices and the tile alone. -/
theorem storesAlike_triFill (s : State) : StoresAlike .triFill (SameOperands s) := by
  obtain ⟨a, b, c, hperm, hab, hbc⟩ := exists_sorted_vertices s
  have hsame : ∀ u, SameOperands s u →
      clipPasses (clipRect (tileOf (triSetupStage u))) (zoidsOf (triSetupStage u)) =
        clipPasses (clipRect (tileOf s)) (piecesOf a b c) := fun u hu => by
    obtain ⟨htile, hp0, hp1, hp2, -⟩ := hu.reads
    rw [(triSetupStage_onlyTable u).tileOf_eq, htile, zoidsOf_triSetupStage (by rwa [hp0, hp1, hp2]) hab hbc]
  cases hpasses : clipPasses (clipRect (tileOf s)) (piecesOf a b c) with
  | ok w =>
    refine .inl ⟨pack565 s.color, (w.zs.flatMap hardPoints).filter fun r => inside (tileOf s) r.x r.y,
      fun u hu => ?_⟩
    obtain ⟨hstage, hclip, hzoids⟩ := clipStage_of_passes (triSetupStage_check u) ((hsame u hu).trans hpasses)
    have htable := (triSetupStage_onlyTable u).trans hclip.1
    obtain ⟨htile, -, -, -, hcolor, -⟩ := (hu.trans htable.1).reads
    refine ⟨_, htable, ?_, (hu.trans htable.1).trans (runOps_onlyPixels ..).1⟩
    rw [(exec_triFill_eq_zFill hstage).1, exec_zFill hclip.checkTable_eq_none, hzoids, htile, hcolor]
  | error e =>
    refine .inr fun u hu => ?_
    have hstage : clipStage (triSetupStage u) = .error (e, loseTable (triSetupStage u)) := by
      simp [clipStage, triSetupStage_check u, (hsame u hu).trans hpasses]
    have hexec : exec .triFill u = .next (raiseFault e (encode .triFill) (loseTable (triSetupStage u))) := by
      rw [exec_triFill, hstage, andThen_error, finishStage_error]
    exact ⟨_, hexec, rfl, hu⟩

/-- A command that was not refused had its pixels inside the tile. -/
theorem twinOrRefused_next {ok : Bool} {twin : Host.Outcome State Fault Refusal} {t : State}
    (h : twinOrRefused ok twin = .next t) : ok = true := by
  cases ok
  · cases h
  · rfl

/-- An unclipped command that is not refused from `s` does what its twin does, from every state with the inputs
of `s`. -/
theorem storesAlike_unclipped {s t : State} :
    (exec .pixSetu s = .next t → StoresAlike .pixSetu (SameInputs s)) ∧
    (exec .spanSetu s = .next t → StoresAlike .spanSetu (SameInputs s)) := by
  refine ⟨fun h => (storesAlike_pixSet s).congr fun u hu => ?_,
    fun h => (storesAlike_spanSet s).congr fun u hu => ?_⟩ <;>
  obtain ⟨htile, -, -, -, -, hx0, hy0, hx1⟩ := hu.1.reads
  · rw [exec_pixSetu] at h ⊢
    rw [htile, hx0, hy0, twinOrRefused_next h]
    rfl
  · rw [exec_spanSetu] at h ⊢
    rw [htile, hx0, hy0, hx1, twinOrRefused_next h]
    rfl

/-- Settles O25: a set-type command does the same from the state it leaves, and so stores what is there already. -/
theorem repeatedSetCommandChangesNothing : Obligations.RepeatedSetCommandChangesNothing := by
  intro i s t hi h
  have hinputs : SameInputs s s := ⟨.refl s, rfl, rfl⟩
  simp only [List.mem_cons, List.not_mem_nil, or_false] at hi
  obtain rfl | rfl | rfl | rfl | rfl | rfl | rfl := hi
  · exact (storesAlike_pixSet s).repeat_changes_nothing hinputs h
  · exact (storesAlike_unclipped.1 h).repeat_changes_nothing hinputs h
  · exact (storesAlike_spanSet s).repeat_changes_nothing hinputs h
  · exact (storesAlike_unclipped.2 h).repeat_changes_nothing hinputs h
  · exact (storesAlike_line s).repeat_changes_nothing hinputs h
  · exact (storesAlike_zFill s).repeat_changes_nothing hinputs h
  · exact (storesAlike_triFill s).repeat_changes_nothing (.refl s) h

end Sys2Proof.Machine
end

section
/-! PROOFS. What a step can do, said once over all events, and from it the halted state, the origin of faults and the
machine's invariant: the obligations O5, O6, O14, O15; resets between and during commands: O11, O10, O12; the register
map, the decoder, STATUS and the outside: O2, O17, O13, O20, O21 (10_state.md R20 to R35, 60_exceptions.md R153, R159,
70_reset_and_hazards.md R171 to R173). -/

namespace Sys2Proof.Machine

/-! ### What a step can do -/

/-- Everything an event of the outside can do to a state from which it has been taken. -/
inductive EventEffect (s : State) : HostEvent → State → Prop
  | command {w : Word} {t : State} (h : issueCommand w s = .next t) : EventEffect s (.write .word 0x000 w) t
  | register {r : Reg} (v : Word) (hr : r ≠ .cmd) : EventEffect s (.write .word (regOffset r) v) (writeReg r v s)
  | ignored (off : Nat) (v : Word) : EventEffect s (.write .word off v) s
  | read (off : Nat) (v : Word) : EventEffect s (.read .word off) (emit v s)
  | rst : EventEffect s .rst (hardReset s)
  | cmdRst {w : Word} {u : State} (h : issueCommand w s = .next u) :
      EventEffect s (.cmdRst w) (interruptedReset s u)
  | pixWrite (a : PixAddr) (p : Pixel) : EventEffect s (.pixWrite a p) { s with mem := writePixel s.mem a p }
  | pixRead (a : PixAddr) : EventEffect s (.pixRead a) (emit ((readPixel s.mem a).setWidth 32) s)

theorem hostEvent_effect {s t : State} {e : HostEvent} (h : hostEvent e s = .next t) : EventEffect s e t := by
  cases e with
  | write size off v =>
    obtain ⟨rfl, -, -, h⟩ := checkedAccess_next h
    obtain ⟨hat, hw⟩ | ⟨r, hr, hat, hw⟩ | ⟨-, hw⟩ := portWriteWord_cases off v s <;> rw [hw] at h
    · rw [regAt_eq_some hat]
      exact .command h
    · rw [regAt_eq_some hat]
      cases h
      exact .register v hr
    · cases h
      exact .ignored off v
  | read size off =>
    obtain ⟨rfl, -, -, h⟩ := checkedAccess_next h
    cases h
    exact .read off _
  | rst => cases h; exact .rst
  | cmdRst w =>
    simp only [hostEvent, resetDuring] at h
    split at h
    next u hu => cases h; exact .cmdRst hu
    next => cases h
    next => cases h
  | pixWrite a p => cases h; exact .pixWrite a p
  | pixRead a => cases h; exact .pixRead a

/-- A step is idle or performs the next event. -/
theorem step_effect {s t : State} (h : step s = .next t) :
    t = s ∨ ∃ e rest, s.port = e :: rest ∧ EventEffect { s with port := rest } e t := by
  cases hp : s.port with
  | nil =>
    rw [step_idle hp] at h
    cases h
    exact .inl rfl
  | cons e rest =>
    rw [step_event hp] at h
    exact .inr ⟨e, rest, rfl, hostEvent_effect h⟩

/-- A register write is the soft reset, by CTRL with bit 0 set, or leaves STATUS, FCMD and the pixels alone. -/
theorem writeReg_cases (r : Reg) (v : Word) (s : State) :
    (r = .ctrl ∧ v.getLsbD 0 = true ∧ writeReg r v s = softReset s) ∨
    (SameFault s (writeReg r v s) ∧ SamePixels s (writeReg r v s)) := by
  by_cases hctrl : r = .ctrl
  · subst hctrl
    cases hv : v.getLsbD 0 with
    | true => exact .inl ⟨rfl, rfl, writeCtrl_srst s hv⟩
    | false =>
      have hsame : writeReg .ctrl v s = s := writeCtrl_no_srst s hv
      rw [hsame]
      exact .inr ⟨⟨rfl, rfl, rfl⟩, rfl, rfl⟩
  · obtain ⟨hfault, -, hpix, -⟩ := writeReg_frame r v s hctrl
    exact .inr ⟨hfault, hpix⟩

/-! ### Interrupted commands (R173, log 11) -/

/-- A command only adds accesses. -/
theorem issueCommand_trace {w : Word} {s u : State} (h : issueCommand w s = .next u) :
    ∃ new, u.trace = new ++ s.trace := by
  obtain ⟨-, hw⟩ | ⟨i, -, -, hw⟩ | ⟨e, -, -, hw⟩ := issueCommand_cases w s <;> rw [hw] at h
  · cases h
    exact ⟨[], rfl⟩
  · obtain ⟨⟨new, hnew, -⟩, -⟩ := accessesStayInTheFootprint i s u h
    exact ⟨new, hnew⟩
  · cases h
    exact ⟨[], rfl⟩

theorem accessesBetween_eq {s u : State} {new : List PixAccess} (h : u.trace = new ++ s.trace) :
    accessesBetween s u = new.reverse := by
  simp [accessesBetween, h]

theorem replay_trace (xs : List PixAccess) (s : State) :
    (xs.foldl replayAccess s).trace = xs.reverse ++ s.trace := by
  induction xs generalizing s with
  | nil => rfl
  | cons x xs ih =>
    rw [List.foldl_cons, ih, List.reverse_cons, List.append_assoc]
    cases x <;> rfl

/-- After replayed accesses a pixel holds what the latest write among them stored there. -/
theorem readPixel_replay_latest (xs : List PixAccess) (s : State) (a : PixAddr) :
    readPixel (xs.foldl replayAccess s).mem a = (latestWrite xs.reverse a).getD (readPixel s.mem a) := by
  induction xs using List.reverseRecOn with
  | nil => rfl
  | append_singleton xs x ih =>
    rw [List.foldl_concat, List.reverse_concat]
    cases x with
    | read b p => exact ih
    | write b p =>
      simp only [replayAccess, portWrite_mem, readPixel_writePixel, latestWrite, eq_comm (a := a), ih]
      split <;> rfl

/-- Replayed accesses change no byte but those of the pixels they write. -/
theorem replay_sameMemoryOutside (xs : List PixAccess) (s : State) :
    SameMemoryOutside s (xs.foldl replayAccess s) fun a => ∃ p, .write a p ∈ xs := by
  intro b hb
  induction xs generalizing s with
  | nil => rfl
  | cons x xs ih =>
    rw [List.foldl_cons, ih (replayAccess s x) fun a ⟨p, hp⟩ => hb a ⟨p, List.mem_cons_of_mem _ hp⟩]
    cases x with
    | read a p => rfl
    | write a p => exact memRead_writePixel_of_not _ _ _ (hb a ⟨p, List.mem_cons_self ..⟩)

/-- The accesses that stay are the oldest of those the command made. -/
theorem interruptedReset_spec {s u : State} {new : List PixAccess} (h : u.trace = new ++ s.trace) :
    ∃ k, (interruptedReset s u).trace = new.drop k ++ s.trace ∧ k ≤ new.length ∧
      (∀ a, readPixel (interruptedReset s u).mem a = (latestWrite (new.drop k) a).getD (readPixel s.mem a)) ∧
      SameMemoryOutside s (interruptedReset s u) fun a => ∃ p, .write a p ∈ new.drop k := by
  refine ⟨new.length - Config.freeAccessCount s.freeCount, ?_, Nat.sub_le _ _, fun a => ?_, fun b hb => ?_⟩ <;>
    simp only [interruptedReset, hardReset_trace, hardReset_mem, accessesBetween_eq h, List.take_reverse]
  · rw [replay_trace, List.reverse_reverse]
  · rw [readPixel_replay_latest, List.reverse_reverse]
  · exact replay_sameMemoryOutside _ _ b fun a ⟨p, hp⟩ => hb a ⟨p, List.mem_reverse.mp hp⟩

/-- Settles O11, from what replaying the first accesses of the command does. -/
theorem interruptedCommandKeepsItsFirstWrites : Obligations.InterruptedCommandKeepsItsFirstWrites := by
  intro s t w rest hp h
  rw [step_event hp] at h
  obtain hcmd : EventEffect { s with port := rest } (.cmdRst w) t := hostEvent_effect h
  cases hcmd with
  | @cmdRst _ u hu =>
    obtain ⟨new, hnew⟩ := issueCommand_trace hu
    obtain ⟨k, htrace, hk, hread, hframe⟩ := interruptedReset_spec hnew
    refine ⟨⟨rfl, rfl, rfl, rfl⟩, u, k, new.drop k, hu, ?_, htrace, hread, hframe⟩
    rw [htrace, hnew, List.drop_append_of_le_length hk]

/-! ### The halted state (R153, R159) -/

/-- The events that leave the halted state. -/
def IsReset (e : HostEvent) : Prop :=
  e = .rst ∨ (∃ w, e = .cmdRst w) ∨ ∃ v : Word, v.getLsbD 0 = true ∧ e = .write .word 0x008 v

/-- In the halted state the engine makes no access, and an event leaves STATUS and FCMD alone or is a reset. -/
theorem EventEffect.of_halted {s t : State} {e : HostEvent} (hs : s.fault = true) (h : EventEffect s e t) :
    t.trace = s.trace ∧
      (SameFault s t ∨ (IsReset e ∧ t.fault = false ∧ t.fcode = 0 ∧ t.fcmd = 0 ∧ t.zn = 0)) := by
  cases h with
  | @command w _ h =>
    rw [issueCommand_halted w hs] at h
    cases h
    exact ⟨rfl, .inl ⟨rfl, rfl, rfl⟩⟩
  | @register r v hr =>
    obtain ⟨rfl, hv, hw⟩ | ⟨hfault, -, htrace⟩ := writeReg_cases r v s
    · rw [hw]
      exact ⟨rfl, .inr ⟨.inr (.inr ⟨v, hv, rfl⟩), rfl, rfl, rfl, rfl⟩⟩
    · exact ⟨htrace, .inl hfault⟩
  | ignored | read | pixWrite | pixRead => exact ⟨rfl, .inl ⟨rfl, rfl, rfl⟩⟩
  | rst => exact ⟨rfl, .inr ⟨.inl rfl, rfl, rfl, rfl, rfl⟩⟩
  | @cmdRst w u h =>
    rw [issueCommand_halted w hs] at h
    cases h
    obtain ⟨k, htrace, -⟩ := interruptedReset_spec (s := s) (u := s) (new := []) rfl
    rw [List.drop_nil] at htrace
    exact ⟨htrace, .inr ⟨.inr (.inl ⟨w, rfl⟩), rfl, rfl, rfl, rfl⟩⟩

/-- Settles O5: an idle step changes nothing, and of the events only the resets touch STATUS. -/
theorem onlyResetsLeaveTheHaltedState : Obligations.OnlyResetsLeaveTheHaltedState := by
  intro s t hs h
  obtain rfl | ⟨e, rest, hp, heffect⟩ := step_effect h
  · exact ⟨rfl, fun _ => ⟨rfl, rfl⟩, fun hno => absurd (hs.symm.trans hno) (by decide)⟩
  obtain ⟨htrace, ⟨hf, hcode, hcmd⟩ | ⟨hreset, hf, hcleared⟩⟩ :=
    EventEffect.of_halted (s := { s with port := rest }) hs heffect
  · exact ⟨htrace, fun _ => ⟨hcode, hcmd⟩, fun hno => absurd (hs.symm.trans (hf.symm.trans hno)) (by decide)⟩
  · refine ⟨htrace, fun hyes => absurd (hf.symm.trans hyes) (by decide), fun _ => ⟨⟨rest, ?_⟩, hcleared⟩⟩
    rw [hp]
    obtain rfl | ⟨w, rfl⟩ | ⟨v, hv, rfl⟩ := hreset
    exacts [.inl rfl, .inr (.inl ⟨w, rfl⟩), .inr (.inr ⟨v, hv, rfl⟩)]

/-! ### Where faults come from (R151, R152) -/

/-- A CMD write that raises a fault leaves its word in FCMD and one of the codes 1 to 9 in FCODE. -/
theorem issueCommand_fault {w : Word} {s t : State} (hs : s.fault = false) (h : issueCommand w s = .next t)
    (ht : t.fault = true) : t.fcmd = w ∧ 1 ≤ t.fcode.toNat ∧ t.fcode.toNat ≤ 9 := by
  obtain ⟨hs', -⟩ | ⟨i, -, hd, hw⟩ | ⟨e, -, -, hw⟩ := issueCommand_cases w s
  · exact absurd (hs.symm.trans hs') (by decide)
  · rw [hw] at h
    rw [eq_encode_of_decode hd]
    obtain ⟨c, -, rfl⟩ | ⟨-, u, -, rfl⟩ := exec_fault_cases hs h ht
    · exact ⟨rfl, causeCode_mem c⟩
    · exact ⟨rfl, causeCode_mem _⟩
  · rw [hw] at h
    cases h
    exact ⟨rfl, causeCode_mem _⟩

/-- Settles O6: among the events only a CMD write can set FAULT. -/
theorem faultsComeOnlyFromCommandWrites : Obligations.FaultsComeOnlyFromCommandWrites := by
  intro s t hs h ht
  obtain rfl | ⟨e, rest, hp, heffect⟩ := step_effect h
  · exact absurd (hs.symm.trans ht) (by decide)
  cases heffect with
  | command hw =>
    obtain ⟨rfl, hcode⟩ := issueCommand_fault (s := { s with port := rest }) hs hw ht
    exact ⟨⟨rest, hp⟩, hcode⟩
  | @register r v hr =>
    obtain ⟨-, -, hw⟩ | ⟨⟨hf, -⟩, -⟩ := writeReg_cases r v { s with port := rest }
    · rw [hw] at ht
      cases ht
    · exact absurd (hs.symm.trans (hf.symm.trans ht)) (by decide)
  | ignored | read | pixWrite | pixRead => exact absurd (hs.symm.trans ht) (by decide)
  | rst | cmdRst => cases ht

/-! ### The invariant of the machine -/

theorem SameFault.regsAgree {s t : State} (h : SameFault s t) (hs : FaultRegsAgree s) : FaultRegsAgree t := by
  obtain ⟨hf, hcode, hcmd⟩ := h
  unfold FaultRegsAgree
  rwa [hf, hcode, hcmd]

/-- Cleared fault registers agree. -/
theorem faultRegsAgree_cleared {s : State} (hf : s.fault = false) (hcode : s.fcode = 0) (hcmd : s.fcmd = 0) :
    FaultRegsAgree s :=
  ⟨fun _ => ⟨hcode, hcmd⟩, fun h => absurd (hf.symm.trans h) (by decide)⟩

theorem faultRegsAgree_raised (c : Cause) (w : Word) (s : State) : FaultRegsAgree (raiseFault c w s) :=
  ⟨fun hno => absurd hno (by simp), fun _ => causeCode_mem c⟩

theorem issueCommand_keeps_inv {w : Word} {s t : State} (hs : MachineInv s) (h : issueCommand w s = .next t) :
    MachineInv t := by
  obtain ⟨hwf, hregs⟩ := hs
  obtain ⟨-, hw⟩ | ⟨i, hs, -, hw⟩ | ⟨e, -, -, hw⟩ := issueCommand_cases w s
  · rw [hw] at h
    cases h
    exact ⟨hwf, hregs⟩
  · have hi := hw.symm.trans h
    refine ⟨exec_wf hi hwf, ?_⟩
    cases ht : t.fault with
    | false => exact (exec_sameFault hi ht).regsAgree hregs
    | true =>
      obtain ⟨-, hcode⟩ := issueCommand_fault hs h ht
      exact ⟨fun hno => absurd (ht.symm.trans hno) (by decide), fun _ => hcode⟩
  · rw [hw] at h
    cases h
    exact ⟨hwf, faultRegsAgree_raised _ _ s⟩

theorem interruptedReset_wf {s : State} (u : State) (h : Memory.wf s.mem = true) :
    Memory.wf (interruptedReset s u).mem = true := by
  rw [interruptedReset, hardReset_mem]
  exact replay_wf _ h

theorem EventEffect.keeps_inv {s t : State} {e : HostEvent} (h : EventEffect s e t) (hs : MachineInv s) :
    MachineInv t := by
  have ⟨hwf, hregs⟩ := hs
  cases h with
  | command h => exact issueCommand_keeps_inv hs h
  | @register r v hr =>
    obtain ⟨-, -, hw⟩ | ⟨hfault, hmem, -⟩ := writeReg_cases r v s
    · rw [hw]
      exact ⟨hwf, faultRegsAgree_cleared rfl rfl rfl⟩
    · exact ⟨by rwa [hmem], hfault.regsAgree hregs⟩
  | ignored | read | pixRead => exact hs
  | rst => exact ⟨hwf, faultRegsAgree_cleared rfl rfl rfl⟩
  | @cmdRst w u h => exact ⟨interruptedReset_wf u hwf, faultRegsAgree_cleared rfl rfl rfl⟩
  | pixWrite a p => exact ⟨writePixel_wf hwf a p, hregs⟩

/-- Settles O14: every event keeps the invariant, which does not read the queue. -/
theorem everyStepKeepsTheInvariant : Obligations.EveryStepKeepsTheInvariant := by
  intro s t hs h
  obtain rfl | ⟨e, rest, -, heffect⟩ := step_effect h
  · exact hs
  · exact heffect.keeps_inv hs

/-- Settles O15: nothing is listed in memory and the fault registers are 0. -/
theorem resetHasTheInvariant : Obligations.ResetHasTheInvariant :=
  ⟨reset_mem_wf, faultRegsAgree_cleared rfl rfl rfl⟩

/-! ### Resets between commands, STATUS, and the outside -/

/-- Settles O13: the fields of STATUS side by side. -/
theorem statusLayout : Obligations.StatusLayout := by
  intro s
  have hread : readReg s .status = statusWord s := rfl
  rw [hread, statusWord, toNat_append_eq_add, toNat_append_eq_add, toNat_append_eq_add]
  cases s.fault <;> simp <;> omega

/-- STATUS reads 0 without a fault and with FCODE 0. -/
theorem statusWord_eq_zero {s : State} (hf : s.fault = false) (hcode : s.fcode = 0) : statusWord s = 0 := by
  rw [statusWord, hf, hcode]
  rfl

/-- Settles O10: `rst` clears STATUS, FCMD and ZN and keeps the pixels, the queue and the output. -/
theorem hardwareResetClearsStatus : Obligations.HardwareResetClearsStatus := fun _ _ hp =>
  ⟨_, step_event hp, statusWord_eq_zero rfl rfl, rfl, rfl, rfl, ⟨rfl, rfl⟩, rfl, rfl⟩

/-- Settles O12: the start state holds 0 in STATUS, FCMD and ZN. -/
theorem resetStateReadsZeroStatus : Obligations.ResetStateReadsZeroStatus :=
  ⟨statusWord_eq_zero rfl rfl, rfl, rfl, rfl, rfl⟩

theorem checkedAccess_outside {off : Nat} (go : Host.Outcome State Fault Refusal) (h4 : off % 4 = 0)
    (h : 0x400 ≤ off) : checkedAccess .word off go = .fault .outsideBlock := by
  simp [checkedAccess, h4, h]

/-- Settles O20: the check of the access's form stops an access outside the block, whatever it would do. -/
theorem accessOutsideTheBlockStops : Obligations.AccessOutsideTheBlockStops := by
  intro s off v rest h4 hout hp
  obtain ⟨go, hgo⟩ := step_access hp
  rw [hgo, checkedAccess_outside go h4 hout]

section
variable {s : State} {a : PixAddr} {rest : List HostEvent}

theorem step_pixWrite {p : Pixel} (h : s.port = .pixWrite a p :: rest) :
    step s = .next { s with port := rest, mem := writePixel s.mem a p } :=
  step_event h

theorem step_pixRead (h : s.port = .pixRead a :: rest) :
    step s = .next (emit ((readPixel s.mem a).setWidth 32) { s with port := rest }) :=
  step_event h

end

/-- Settles O21: memory reads back the pixel last written, and neither access is the engine's. -/
theorem outsidePixelWriteIsReadBack : Obligations.OutsidePixelWriteIsReadBack := by
  intro s a p rest hp
  refine ⟨_, _, step_pixWrite hp, step_pixRead rfl, ?_, rfl, rfl, fun b hb => ?_⟩
  · rw [emit_output, readPixel_writePixel_same]
  · exact memRead_writePixel_of_not _ _ _ (hb a rfl)

/-! ### The register map and the decoder (R23, R53, R54) -/

/-- Settles O17, from the two directions of the register map. -/
theorem registerMapIsOneToOne : Obligations.RegisterMapIsOneToOne := fun _ _ =>
  ⟨regAt_eq_some, fun h => h ▸ regAt_regOffset _⟩

/-- Settles O2, from the two directions of the decoder. -/
theorem decodeAndEncodeAgree : Obligations.DecodeAndEncodeAgree := fun _ _ =>
  ⟨eq_encode_of_decode, fun h => h ▸ decode_encode _⟩

end Sys2Proof.Machine
end

section
/-! PROOFS. The laws of packing, widening and blending together, and the obligation O35 (41_color_blend.md R83). -/

namespace Sys2Proof.Machine

/-! ### The channels of a packed pixel (R76, R77) -/

theorem channels_between (c : Color) :
    (0 ≤ redOf c ∧ redOf c ≤ 255) ∧ (0 ≤ greenOf c ∧ greenOf c ≤ 255) ∧ (0 ≤ blueOf c ∧ blueOf c ≤ 255) := by
  have hc : c.toNat < 2 ^ 24 := c.isLt
  unfold redOf greenOf blueOf
  omega

/-- Dropping the repeated bits gives the field back. -/
theorem widened5_div {v : Int} (h0 : 0 ≤ v) (h1 : v ≤ 31) : (v * 8 + v / 4) / 8 = v := by omega

theorem widened6_div {v : Int} (h0 : 0 ≤ v) (h1 : v ≤ 63) : (v * 4 + v / 16) / 4 = v := by omega

/-- A pixel is its three fields side by side, as numbers (R76). -/
theorem toNat_eq_wide (p : Pixel) : (p.toNat : Int) = packed (wideRed p) (wideGreen p) (wideBlue p) := by
  have hp : p.toNat < 2 ^ 16 := p.isLt
  unfold packed wideRed wideGreen wideBlue
  rw [widened5_div (by omega) (by omega), widened6_div (by omega) (by omega), widened5_div (by omega) (by omega)]
  omega

/-- A packed channel is widened from its high bits, which are repeated below them (R77, R78). -/
theorem wide_pack565 (c : Color) :
    wideRed (pack565 c) = redOf c / 8 * 8 + redOf c / 32 ∧
    wideGreen (pack565 c) = greenOf c / 4 * 4 + greenOf c / 64 ∧
    wideBlue (pack565 c) = blueOf c / 8 * 8 + blueOf c / 32 := by
  have hpack := toNat_pack565 c
  have hchannels := channels_between c
  unfold packed at hpack
  unfold wideRed wideGreen wideBlue
  omega

theorem redOf_unpack888 (p : Pixel) : redOf (unpack888 p) = wideRed p := by
  rw [redOf_eq_red8, red8_unpack888, wideRed_eq_widen5]

theorem greenOf_unpack888 (p : Pixel) : greenOf (unpack888 p) = wideGreen p := by
  rw [greenOf_eq_green8, green8_unpack888, wideGreen_eq_widen6]

theorem blueOf_unpack888 (p : Pixel) : blueOf (unpack888 p) = wideBlue p := by
  rw [blueOf_eq_blue8, blue8_unpack888, wideBlue_eq_widen5]

/-! ### The laws (R83) -/

/-- Two pixels of the same number are the same. -/
theorem pixel_eq_of_packed {p q : Pixel} {r g b : Int} (hp : (p.toNat : Int) = packed r g b)
    (hq : (q.toNat : Int) = packed r g b) : p = q :=
  BitVec.eq_of_toNat_eq (Int.ofNat_inj.mp (hp.trans hq.symm))

theorem pack565_unpack888 (p : Pixel) : pack565 (unpack888 p) = p := by
  refine pixel_eq_of_packed (toNat_pack565 _) ?_
  rw [redOf_unpack888, greenOf_unpack888, blueOf_unpack888]
  exact toNat_eq_wide p

theorem mixed_zero (dv sv : Int) : mixed dv sv 0 = dv := by
  rw [mixed, mul_zero, Int.zero_tdiv, add_zero]

theorem mixed_opaque (dv sv : Int) : mixed dv sv 255 = sv := by
  rw [mixed, Int.mul_tdiv_cancel _ (by decide)]
  ring

theorem blend565_zero (d : Pixel) (c : Color) : blend565 d c 0 = d := by
  refine pixel_eq_of_packed (toNat_blend565 d c 0) ?_
  have hzero : (((0 : BitVec 8).toNat : Nat) : Int) = 0 := rfl
  simp only [hzero, mixed_zero]
  exact toNat_eq_wide d

theorem blend565_opaque (d : Pixel) (c : Color) : blend565 d c 255 = pack565 c := by
  refine pixel_eq_of_packed (toNat_blend565 d c 255) ?_
  have hopaque : (((255 : BitVec 8).toNat : Nat) : Int) = 255 := rfl
  simp only [hopaque, mixed_opaque]
  exact toNat_pack565 c

/-- Settles O35: the laws channel by channel; the bounds are reached where only the bits that packing drops are set, and
where only they are clear. -/
theorem colourLaws : Obligations.ColourLaws := by
  refine ⟨pack565_unpack888, blend565_zero, blend565_opaque, fun c => ?_, ?_, ?_⟩
  · obtain ⟨hred, hgreen, hblue⟩ := wide_pack565 c
    have hchannels := channels_between c
    omega
  · exact ⟨0x070307, by decide⟩
  · exact ⟨0xF800F8, by decide⟩

end Sys2Proof.Machine
end
